-- ==== Sys2Proof/Word.lean ====
section
/-! DEFINITION. The word types of HUFFCORE (spec/00_scope.md R7) and the plainest arithmetic over them. -/

namespace Sys2Proof

/-- A register-interface word: `REG_W = 32` (R7), also an address (`ADDR_W`), a length (`LEN_W`) and one weight (`FREQ_W`). -/
abbrev Word := BitVec 32

/-- One byte of data memory, and a symbol (R6). -/
abbrev Byte := BitVec 8

/-- A 64-bit quantity: a node weight (`WEIGHT_W`), `TOTAL`, `TBITS` and `BITS` (R7). -/
abbrev Quad := BitVec 64

/-- A node index: `NODE_IDX_W = 9` (R7). -/
abbrev NodeIdx := BitVec 9

/-- The storage of one code: `CODE_W = 256` positions (R7). -/
abbrev CodeBits := BitVec 256

/-- `NIL`, the absent-child index (R7). -/
def NIL : NodeIdx := 0x1FF#9

/-- `ceil_div(a, b)` over the naturals (R13). -/
def ceilDiv (a b : Nat) : Nat := (a + b - 1) / b

end Sys2Proof
end

