-- ==== Sys2Proof/Config.lean ====
section
/-! DEFINITION. What is fixed for the machine (00_scope.md R7), and the free values: the points the spec leaves at any value
(93_implementation_defined.md). A free value is an opaque constant with no body: nothing can be proved about what it is. -/

namespace Sys2Proof.Config

/-- `ALPHABET = 256` (R6). -/
abbrev alphabet : Nat := 256
/-- `MAX_LEAVES = 256` (R7). -/
abbrev maxLeaves : Nat := 256
/-- `MAX_NODES = 511` (R7). -/
abbrev maxNodes : Nat := 511
/-- `REG_SPACE = 0x8000` bytes (R7). -/
abbrev regSpace : Nat := 0x8000
/-- The size of the data memory, `2^ADDR_W` bytes (20_memory.md R60). -/
abbrev memSize : Nat := 2 ^ 32
/-- The value of `ID` (10_state.md R24). -/
def idValue : Word := 0x48554631#32

/-- FREE VALUE (row 8; 10_state.md R57): what a result register or a window word that is not reserved reads as while `BUSY = 1`,
at a tick; all 32 bits of it, reserved bits among them (log 8). -/
opaque busyRead : Nat → Word

/-- FREE VALUE (row 9; 40_control_and_frequency.md R104): whether a FREQ entry already reads 0 while CLRFREQ is BUSY, at a tick. -/
opaque busyFreqCleared : Nat → Bool

/-- FREE VALUE (log 9): whether a STATUS read while BUSY already shows the valid flags the running command will leave, at a tick. -/
opaque busyFlagsUpdated : Nat → Bool

/-- FREE VALUE (rows 12, 13; 20_memory.md R80): a source byte read after the host stored into the source range, or a destination
byte the host touches, while BUSY, at a tick and an address. -/
opaque racedByte : Nat → Nat → Byte

/-- FREE VALUE (rows 11, 20; 70_reset_and_hazards.md R237): a destination byte after an abort, at a tick and an address. -/
opaque abortedByte : Nat → Nat → Byte

/-- FREE VALUE (row 11; R237): the source byte of an access that was never answered, had it been answered, at a tick and an
address: what an aborted command would have written may depend on it. -/
opaque unansweredByte : Nat → Nat → Byte

/-- FREE VALUE (row 19; 60_exceptions.md R223): what data memory holds at a power-on after a power-off, at a tick: the bytes of a
list of addresses, the later entry of one address the one that counts, and `Memory.fill` at every other address. -/
opaque powerUpCells : Nat → List (Word × Byte)

end Sys2Proof.Config
end

