-- ==== Sys2Proof/Syntax.lean ====
section
/-! DEFINITION. The commands: the rows of spec/opcode_table.json (30_encoding.md R87). No command has an operand field (R86). -/

namespace Sys2Proof

/-- The six commands of HUFFCORE, one constructor per row of spec/opcode_table.json. A command word that is none of these is
illegal (R88) and selects no command: its effect is `Sys2Proof.Machine.execIllegal` (R110). -/
inductive Instr where
  /-- NOP (40_control_and_frequency.md R101). -/
  | nop
  /-- CLRFREQ (40_control_and_frequency.md R102). -/
  | clrfreq
  /-- BUILD (41_tree_builder.md R120). -/
  | build
  /-- GENCODE (42_code_generator.md R135). -/
  | gencode
  /-- ENCODE (43_encoder.md R150). -/
  | encode
  /-- DECODE (44_decoder.md R165). -/
  | decode
  deriving DecidableEq, Repr

end Sys2Proof
end

