-- ==== Sys2Proof/Decode.lean ====
section
/-! DEFINITION. Command words: the decoder, total over all 2^32 words and rejecting by name (30_encoding.md R85 to R88), and
the encoder, written from the same opcode map. -/

namespace Sys2Proof

/-- Why a command word is illegal (R88). Either reason gives `ILLEGAL_CMD` (40_control_and_frequency.md R110). -/
inductive Illegal where
  /-- `RSV != 0`, whatever `OP` is. -/
  | reservedBits
  /-- `RSV = 0` and `OP` in `0x6..0xF`. -/
  | reservedOpcode
  deriving DecidableEq, Repr

/-- `OP = word[3:0]` (R86). -/
def opField (w : Word) : BitVec 4 := w.extractLsb' 0 4

/-- `RSV = word[31:4]` (R86). -/
def rsvField (w : Word) : BitVec 28 := w.extractLsb' 4 28

/-- The opcode map by its `OP` column (R87). -/
def decodeOp (op : BitVec 4) : Except Illegal Instr :=
  match op.toNat with
  | 0 => .ok .nop
  | 1 => .ok .clrfreq
  | 2 => .ok .build
  | 3 => .ok .gencode
  | 4 => .ok .encode
  | 5 => .ok .decode
  | _ => .error .reservedOpcode

/-- The command a word stands for: legal exactly for `0x00000000` to `0x00000005` (R88). -/
def decode (w : Word) : Except Illegal Instr :=
  if rsvField w = 0 then decodeOp (opField w) else .error .reservedBits

/-- The opcode of a command (R87). -/
def opcode : Instr → BitVec 4
  | .nop => 0
  | .clrfreq => 1
  | .build => 2
  | .gencode => 3
  | .encode => 4
  | .decode => 5

/-- The command word of a command: `RSV = 0` above its opcode (R85). -/
def encode (i : Instr) : Word := (0#28) ++ opcode i

/-- The decoder's answer for an instruction whose bits, numbered as spec/opcode_table.json numbers them, are `w`. A command is
one 32-bit word (R85, R91), so nothing longer is one. -/
def decodeTableWord (nbits w : Nat) : Option Instr :=
  if nbits ≤ 32 then
    match decode (BitVec.ofNat 32 (w % 2 ^ nbits)) with
    | .ok i => some i
    | .error _ => none
  else none

end Sys2Proof
end

