-- ==== Sys2Proof/Machine/HostScript.lean ====
section
/-! DEFINITION. The host's side of the interface: the register map by name and offset (10_state.md R22, 30_encoding.md R93),
the host's actions (R92, R95), and host-script statements with their expansions (R95, R96). -/

namespace Sys2Proof.Machine

/-- A 32-bit word of the register window, by name (10_state.md R22; 30_encoding.md R93). -/
inductive Reg where
  | id | ctrl | status | cmd | errcode | srcAddr | srcLen | dstAddr | dstCap | outLen | inCount
  | bitsLo | bitsHi | alpha | totalLo | totalHi | tbitsLo | tbitsHi | root | nodeCount | errAddr
  /-- `FREQ[s]` (R42). -/
  | freq (s : Byte)
  /-- Word `w` of the four words of NODE window entry `i` (R44): 0 INFO, 1 WLO, 2 WHI, 3 reserved. -/
  | nodeWord (i : NodeIdx) (w : BitVec 2)
  /-- Word `w` of the sixteen words of CODE window entry `s` (R47): 0 INFO, 1 to 8 BITS0 to BITS7, 9 to 15 reserved. -/
  | codeWord (s : Byte) (w : BitVec 4)
  /-- A reserved offset outside the windows (R41). -/
  | reserved
  deriving DecidableEq, Repr

/-- The registers of `0x000` to `0x3FC`, by word index (R22, R41). -/
def lowReg (k : Nat) : Reg :=
  match k with
  | 0 => .id
  | 1 => .ctrl
  | 2 => .status
  | 3 => .cmd
  | 4 => .errcode
  | 5 => .srcAddr
  | 6 => .srcLen
  | 7 => .dstAddr
  | 8 => .dstCap
  | 9 => .outLen
  | 10 => .inCount
  | 11 => .bitsLo
  | 12 => .bitsHi
  | 13 => .alpha
  | 14 => .totalLo
  | 15 => .totalHi
  | 16 => .tbitsLo
  | 17 => .tbitsHi
  | 18 => .root
  | 19 => .nodeCount
  | 20 => .errAddr
  | _ => .reserved

/-- The register word at byte `n` of the window (R22): registers, FREQ, reserved words, NODE window, CODE window. -/
def regInMap (n : Nat) : Reg :=
  if n < 0x400 then lowReg (n / 4)
  else if n < 0x800 then .freq (BitVec.ofNat 8 ((n - 0x400) / 4))
  else if n < 0x2000 then .reserved
  else if n < 0x4000 then .nodeWord (BitVec.ofNat 9 ((n - 0x2000) / 16)) (BitVec.ofNat 2 (n % 16 / 4))
  else .codeWord (BitVec.ofNat 8 ((n - 0x4000) / 64)) (BitVec.ofNat 4 (n % 64 / 4))

/-- The register word at an offset, or none where the bus answers with an error: a misaligned offset, or one at or beyond
`0x8000` (20_memory.md R65). -/
def regAt (offset : Word) : Option Reg :=
  if offset.toNat % 4 = 0 ∧ offset.toNat < Config.regSpace then some (regInMap offset.toNat) else none

/-- The offset of a register word (R22, R44, R47; 30_encoding.md R93). The reserved words outside the windows share one name,
which stands for `0x054`, the first of them. -/
def regOffset : Reg → Word
  | .id => 0x000#32
  | .ctrl => 0x004#32
  | .status => 0x008#32
  | .cmd => 0x00C#32
  | .errcode => 0x010#32
  | .srcAddr => 0x014#32
  | .srcLen => 0x018#32
  | .dstAddr => 0x01C#32
  | .dstCap => 0x020#32
  | .outLen => 0x024#32
  | .inCount => 0x028#32
  | .bitsLo => 0x02C#32
  | .bitsHi => 0x030#32
  | .alpha => 0x034#32
  | .totalLo => 0x038#32
  | .totalHi => 0x03C#32
  | .tbitsLo => 0x040#32
  | .tbitsHi => 0x044#32
  | .root => 0x048#32
  | .nodeCount => 0x04C#32
  | .errAddr => 0x050#32
  | .reserved => 0x054#32
  | .freq s => BitVec.ofNat 32 (0x400 + 4 * s.toNat)
  | .nodeWord i w => BitVec.ofNat 32 (0x2000 + 16 * i.toNat + 4 * w.toNat)
  | .codeWord s w => BitVec.ofNat 32 (0x4000 + 64 * s.toNat + 4 * w.toNat)

/-- One action of the host: the machine code of a host script (30_encoding.md R92, R95), and what the
platform does to the block: its reset input and its power (70_reset_and_hazards.md R235, 60_exceptions.md R223). Offsets are relative to `HUFF_BASE`. -/
inductive HostAction where
  /-- A register-bus write of `size` bytes at `offset`; `W <offset> <data>` is the one of 4 bytes. -/
  | write (size : Nat) (offset data : Word)
  /-- A register-bus read of `size` bytes at `offset`; `R <offset>` is the one of 4 bytes. -/
  | read (size : Nat) (offset : Word)
  /-- `WAIT`: repeat `RD STATUS` until `STATUS.BUSY = 0`. -/
  | wait
  /-- `MEM`: the host stores bytes into data memory at `addr`, `addr + 1`, … . -/
  | store (addr : Word) (bytes : List Byte)
  /-- The host loads one byte of data memory (20_memory.md R75, R80). -/
  | load (addr : Word)
  /-- The platform's reset input, power kept (70_reset_and_hazards.md R235). -/
  | resetInput
  /-- The platform is powered off and on again (60_exceptions.md R223). -/
  | powerCycle
  deriving DecidableEq, Repr

/-- A host-script statement, pseudo-instructions included (30_encoding.md R95, R96). `EXPECT` is a test's assertion and no
action, so it has no place here. -/
inductive Stmt where
  | wr (r : Reg) (v : Word)
  | rd (r : Reg)
  | wait
  | mem (addr : Word) (bytes : List Byte)
  | cmd (i : Instr)
  | run (i : Instr)
  | setf (s : Byte) (w : Word)
  | src (addr len : Word)
  | dst (addr cap : Word)
  | ack
  | srst
  | irqOn
  deriving DecidableEq, Repr

/-- `WR <reg>, <value>` as its transaction `W <offset(reg)> <value>` (R95). -/
def writeAction (r : Reg) (v : Word) : HostAction := .write 4 (regOffset r) v

/-- `RD <reg>` as its transaction `R <offset(reg)>` (R95). -/
def readAction (r : Reg) : HostAction := .read 4 (regOffset r)

/-- `CMD <mnemonic>` (R96). -/
def cmdAction (i : Instr) : HostAction := writeAction .cmd (encode i)

/-- The expansion of a statement (R95, R96). -/
def expandStmt : Stmt → List HostAction
  | .wr r v => [writeAction r v]
  | .rd r => [readAction r]
  | .wait => [.wait]
  | .mem a bs => [.store a bs]
  | .cmd i => [cmdAction i]
  | .run i => [cmdAction i, .wait]
  | .setf s w => [writeAction (.freq s) w]
  | .src a n => [writeAction .srcAddr a, writeAction .srcLen n]
  | .dst a n => [writeAction .dstAddr a, writeAction .dstCap n]
  | .ack => [writeAction .status 0x22#32]
  | .srst => [writeAction .ctrl 0x2#32]
  | .irqOn => [writeAction .ctrl 0x1#32]

/-- A host script: the "program" of this hardware (R92). -/
def expandScript (ss : List Stmt) : List HostAction := ss.flatMap expandStmt

end Sys2Proof.Machine
end

