-- ==== Sys2Proof/Machine/State.lean ====
section
/-! DEFINITION. The state of HUFFCORE as plain data (10_state.md), with the data memory, the platform and the host's pending
actions, the reasons a step can stop, and the state after reset (10_state.md R58). -/

namespace Sys2Proof.Machine

/-- One node of the arena (10_state.md R43). -/
structure Node where
  leaf : Bool
  sym : Byte
  left : NodeIdx
  right : NodeIdx
  weight : Quad
  deriving DecidableEq, Repr

/-- One entry of the code table (10_state.md R46). Position `k` of `bits` is `bits.getMsbD k`: position 0 is the
most-significant bit. -/
structure CodeEntry where
  len : BitVec 8
  bits : CodeBits
  deriving DecidableEq, Repr

/-- The data memory: address and byte, addresses strictly rising, no entry equal to what an unlisted address reads as
(`Memory.wf`). -/
abbrev Memory := List Host.Cell

/-- How the platform answers the engine's access to one byte of data memory. -/
inductive Answer where
  /-- `MEM_OK` is true (00_scope.md R14). -/
  | completes
  /-- `MEM_OK` is false: the access has no effect and raises `BUS_ERROR` (R14). -/
  | refuses
  /-- The platform never answers (70_reset_and_hazards.md R248). -/
  | silent
  /-- The address is not ordinary memory (20_memory.md R69, 70_reset_and_hazards.md R245). -/
  | device
  deriving DecidableEq, Repr

/-- A range of data memory that the platform answers otherwise than by completing. -/
structure Region where
  base : Nat
  size : Nat
  onRead : Answer
  onWrite : Answer
  deriving DecidableEq, Repr

/-- Where a running command stands. -/
inductive Phase where
  /-- It completes once `delay` more host actions have been answered (70_reset_and_hazards.md R248: any finite delay). -/
  | due (delay : Nat)
  /-- It waits for an access the platform never answers; only a reset ends it (R248). -/
  | hung
  deriving DecidableEq, Repr

/-- An accepted command that has not completed: `STATUS.BUSY = 1` (10_state.md R54). -/
structure Running where
  /-- The command word, fixed at acceptance (40_control_and_frequency.md R109). -/
  word : Word
  phase : Phase
  /-- The data-memory addresses the host stored to since acceptance (20_memory.md R80). -/
  raced : List Word
  deriving DecidableEq, Repr

/-- What the host's accesses answered. -/
inductive Response where
  /-- A register read's value (30_encoding.md R95 `RD`). -/
  | word (v : Word)
  /-- A data-memory load's byte. -/
  | byte (v : Byte)
  /-- The register bus's error response (20_memory.md R65). -/
  | busError
  deriving DecidableEq, Repr

/-- The whole machine. The first group is the block (10_state.md R20); the second is what stands around it. -/
structure State where
  /-- `CTRL.IE` (R25). -/
  ctrlIE : Bool
  /-- `STATUS.DONE` (R26). -/
  done : Bool
  /-- `STATUS.TREE_VALID` (R51). -/
  treeValid : Bool
  /-- `STATUS.CODES_VALID` (R52). -/
  codesValid : Bool
  /-- `STATUS.OVR` (R53). -/
  ovr : Bool
  /-- `ERRCODE[7:0]` (R28). -/
  errcode : BitVec 8
  /-- `SRC_ADDR` (R29). -/
  srcAddr : Word
  /-- `SRC_LEN` (R30). -/
  srcLen : Word
  /-- `DST_ADDR` (R31). -/
  dstAddr : Word
  /-- `DST_CAP` (R32). -/
  dstCap : Word
  /-- `OUT_LEN` (R33). -/
  outLen : Word
  /-- `IN_COUNT` (R34). -/
  inCount : Word
  /-- `BITS` (R35). -/
  bits : Quad
  /-- `ERRADDR` (60_exceptions.md R209). -/
  errAddr : Word
  /-- `ALPHA[8:0]` (R36). -/
  alpha : BitVec 9
  /-- `TOTAL` (R37). -/
  total : Quad
  /-- `TBITS` (R38). -/
  tbits : Quad
  /-- `ROOT[8:0]` (R39). -/
  root : NodeIdx
  /-- `NODE_COUNT[9:0]` (R40). -/
  nodeCount : BitVec 10
  /-- `FREQ[0..255]` (R42). -/
  freq : Vector Word 256
  /-- `NODE[0..510]` (R43). -/
  node : Vector Node 511
  /-- `CODE[0..255]` (R46). -/
  code : Vector CodeEntry 256
  /-- The engine: idle, or the running command. `STATUS.BUSY` is 1 exactly when it holds one (R54). -/
  engine : Option Running
  /-- The data memory (20_memory.md R60). -/
  mem : Memory
  /-- `MEM_OK` and the kinds of memory: the first region that holds an address answers for it, and any other access
  completes. It never changes (log 3). -/
  platform : List Region
  /-- The host's pending actions, first first (30_encoding.md R92). -/
  script : List HostAction
  /-- What the host's accesses answered, last first. -/
  responses : List Response
  /-- The delays of the commands still to be accepted, first first; 0 when none is listed (70_reset_and_hazards.md R248). -/
  durations : List Nat
  /-- The MODEL's own counter, from which free values are drawn. -/
  tick : Nat
  deriving DecidableEq, Repr

/-- Why the machine stops with a fault. -/
inductive Fault where
  /-- A host store runs past the last address of the data memory (20_memory.md R60: `2^32` bytes). Raised by the host's `MEM`
  action only, never by a command. Safe: the model stops. -/
  | storeOutsideMemory
  deriving DecidableEq, Repr

/-- Why the model gives an execution no meaning. -/
inductive Refusal where
  /-- A command's meaning is not modelled. Raised by an arm of `exec`; no arm is left that does. Safe. -/
  | notModelled (mnemonic : String)
  /-- A command or a host access touched an address that is not ordinary memory: "the spec gives no meaning to the command's
  effect on the device" (20_memory.md R69, 70_reset_and_hazards.md R245; 93 row 15 `refuse`). Raised by ENCODE, DECODE and the
  host's stores and loads. Safe. -/
  | notOrdinaryMemory
  deriving DecidableEq, Repr

/-- The answer of a step of this machine. -/
abbrev Outcome := Host.Outcome State Fault Refusal

/-- A node with nothing in it: the named reset content of the arena (DESIGN CHOICE, log 5), and what the index `NIL`, which
never names a node (R43), gives. -/
def Node.blank : Node := { leaf := false, sym := 0#8, left := NIL, right := NIL, weight := 0#64 }

/-- An entry without a code (R46); the named reset content of the table (DESIGN CHOICE, log 5). -/
def CodeEntry.blank : CodeEntry := { len := 0#8, bits := 0#256 }

/-- The machine right after reset (10_state.md R58). The values the spec does not state (the arena, the table, the fields
around the block) are named in log 2, 3, 4, 5, 7 and 16. -/
def State.reset : State where
  ctrlIE := false
  done := false
  treeValid := false
  codesValid := false
  ovr := false
  errcode := 0#8
  srcAddr := 0#32
  srcLen := 0#32
  dstAddr := 0#32
  dstCap := 0#32
  outLen := 0#32
  inCount := 0#32
  bits := 0#64
  errAddr := 0#32
  alpha := 0#9
  total := 0#64
  tbits := 0#64
  root := NIL
  nodeCount := 0#10
  freq := Vector.replicate 256 0#32
  node := Vector.replicate 511 Node.blank
  code := Vector.replicate 256 CodeEntry.blank
  engine := none
  mem := []
  platform := []
  script := []
  responses := []
  durations := []
  tick := 0

end Sys2Proof.Machine
end

