-- ==== Sys2Proof/Machine/Ops.lean ====
section
/-! DEFINITION. The named operations over data memory and the engine: byte reads and writes, the platform's answers, acceptance
of a command, and the two ways a command ends (`finish` and `raise E`: this block's "taking an exception", 60_exceptions.md). -/

namespace Sys2Proof.Machine

/-! ### Data memory -/

/-- What an unlisted address reads as (DESIGN CHOICE, log 4: the spec gives data memory no reset contents). -/
def Memory.fill : Byte := 0#8

/-- The listed cells rise strictly from `lo`, lie inside the data memory, and none holds `Memory.fill`. -/
def Memory.wfFrom (lo : Nat) : Memory → Bool
  | [] => true
  | (a, v) :: rest =>
    decide (lo ≤ a) && decide (a < Config.memSize) && !(v == Memory.fill) && Memory.wfFrom (a + 1) rest

/-- The canonical form of a memory. -/
def Memory.wf (m : Memory) : Bool := Memory.wfFrom 0 m

/-- The byte at an address. -/
def Memory.read (m : Memory) (a : Nat) : Byte :=
  match m with
  | [] => Memory.fill
  | (k, v) :: rest => if k = a then v else Memory.read rest a

/-- A cell in canonical form: none for the byte an unlisted address reads as. -/
def Memory.cell (a : Nat) (v : Byte) : Memory := if v = Memory.fill then [] else [(a, v)]

/-- The memory with one byte replaced, in canonical form. -/
def Memory.write (m : Memory) (a : Nat) (v : Byte) : Memory :=
  match m with
  | [] => Memory.cell a v
  | (k, w) :: rest =>
    if k = a then Memory.cell a v ++ rest
    else if a < k then Memory.cell a v ++ (k, w) :: rest
    else (k, w) :: Memory.write rest a v

/-- The bytes from `a` on, in ascending order. -/
def Memory.readList (m : Memory) (a : Nat) (n : Nat) : List Byte := (List.range n).map (fun k => m.read (a + k))

/-! ### The engine -/

/-- `STATUS.BUSY` (10_state.md R54). -/
def State.busy (s : State) : Bool := s.engine.isSome

/-- The word of the running command, if one runs. -/
def State.runningWord (s : State) : Option Word := s.engine.map Running.word

/-- The addresses the host stored to while the running command was BUSY (20_memory.md R80). -/
def State.raced (s : State) : List Word :=
  match s.engine with
  | some r => r.raced
  | none => []

/-- Whether an address lies in the buffer of `n` bytes from `base` on (10_state.md R29 to R32). -/
def inBuffer (base n a : Word) : Bool := decide (base.toNat ≤ a.toNat) && decide (a.toNat < base.toNat + n.toNat)

/-- Whether the host stored into the source range while the running command was BUSY (20_memory.md R80). -/
def State.sourceRaced (s : State) : Bool := s.raced.any (inBuffer s.srcAddr s.srcLen)

/-- The state one step later, as far as the model's own counter goes. -/
def State.nextTick (s : State) : State := { s with tick := s.tick + 1 }

/-- Acceptance of the command word `w` (40_control_and_frequency.md R100): `BUSY <- 1; DONE <- 0; ERRCODE <- 0`. The command's
delay is the next listed duration. -/
def acceptCommand (w : Word) (s : State) : State :=
  { s with
    done := false
    errcode := 0#8
    engine := some { word := w, phase := .due (s.durations.headD 0), raced := [] }
    durations := s.durations.tail }

/-- The error codes of a command (60_exceptions.md R206). -/
inductive ErrCode where
  | emptyInput | truncated | illegalCmd | noTree | noCodes | noCodeForSymbol | dstFull
  | absentChild | partialCode | countMismatch | addrRange | overlap | busError
  deriving DecidableEq, Repr

/-- The value of an error code in `ERRCODE` (R206). -/
def errValue : ErrCode → BitVec 8
  | .emptyInput => 0x01#8
  | .truncated => 0x02#8
  | .illegalCmd => 0x03#8
  | .noTree => 0x04#8
  | .noCodes => 0x05#8
  | .noCodeForSymbol => 0x06#8
  | .dstFull => 0x07#8
  | .absentChild => 0x08#8
  | .partialCode => 0x09#8
  | .countMismatch => 0x0A#8
  | .addrRange => 0x0B#8
  | .overlap => 0x0C#8
  | .busError => 0x0D#8

/-- `finish` (60_exceptions.md R211): `BUSY <- 0; DONE <- 1`, with `ERRCODE = 0`. -/
def finish (s : State) : State := { s with engine := none, done := true, errcode := 0#8 }

/-- `raise E` (60_exceptions.md R210 item 3): `ERRCODE <- E; BUSY <- 0; DONE <- 1`. -/
def raiseError (e : ErrCode) (s : State) : State := { s with engine := none, done := true, errcode := errValue e }

/-! ### The engine's data-memory port -/

/-- Whether a region holds an address. -/
def Region.holds (r : Region) (a : Nat) : Bool := decide (r.base ≤ a) && decide (a < r.base + r.size)

/-- How the platform answers a read of an address (`MEM_OK(addr, read)`, 00_scope.md R14). -/
def readAnswer (s : State) (a : Word) : Answer :=
  match s.platform.find? (fun r => r.holds a.toNat) with
  | some r => r.onRead
  | none => .completes

/-- How the platform answers a write of an address (`MEM_OK(addr, write)`, R14). -/
def writeAnswer (s : State) (a : Word) : Answer :=
  match s.platform.find? (fun r => r.holds a.toNat) with
  | some r => r.onWrite
  | none => .completes

/-- Why a command's stream stops before its end. -/
inductive Halt where
  /-- `raise E` with `E` other than `BUS_ERROR`. -/
  | error (e : ErrCode)
  /-- `raise BUS_ERROR` for the access at `addr` (R14). -/
  | busError (addr : Word)
  /-- The platform never answered (70_reset_and_hazards.md R248). -/
  | noAnswer
  /-- The address is not ordinary memory (R245). -/
  | device
  deriving DecidableEq, Repr

/-- A stream's progress: still going, or halted with the state it reached. -/
inductive Flow (σ : Type) where
  | go (st : σ)
  | halt (st : σ) (why : Halt)
  deriving DecidableEq, Repr

/-- Go on with the next part of a stream, unless it has halted. -/
def Flow.andThen {σ : Type} (f : Flow σ) (k : σ → Flow σ) : Flow σ :=
  match f with
  | .go st => k st
  | .halt st why => .halt st why

/-- The state a stream reached. -/
def Flow.reached {σ : Type} : Flow σ → σ
  | .go st => st
  | .halt st _ => st

/-- Why a stream halted, if it did. -/
def Flow.stop {σ : Type} : Flow σ → Option Halt
  | .go _ => none
  | .halt _ why => some why

/-- `MemRead(addr, 1)` (00_scope.md R14): the byte, or why there is none. Once the host has stored into the source range while
BUSY, every byte the engine reads is any value (20_memory.md R80). -/
def portRead (s : State) (m : Memory) (a : Word) : Except Halt Byte :=
  match readAnswer s a with
  | .completes => .ok (if s.sourceRaced then Config.racedByte s.tick a.toNat else m.read a.toNat)
  | .refuses => .error (.busError a)
  | .silent => .error .noAnswer
  | .device => .error .device

/-- `MemWrite(addr, 1, v)` (R14): the memory after it, or why there is none. A destination byte the host stored to while BUSY ends
at any value (R80, log 12). -/
def portWrite (s : State) (m : Memory) (a : Word) (v : Byte) : Except Halt Memory :=
  match writeAnswer s a with
  | .completes => .ok (m.write a.toNat (if a ∈ s.raced then Config.racedByte s.tick a.toNat else v))
  | .refuses => .error (.busError a)
  | .silent => .error .noAnswer
  | .device => .error .device

/-- The `on exit` clause of ENCODE and DECODE (43_encoder.md R150, 44_decoder.md R165) and the command's end: the result
registers and `ERRADDR` (60_exceptions.md R209), then `finish` or `raise E` (R210, R211). A command whose access is never
answered stays BUSY with what it wrote so far (70_reset_and_hazards.md R248). -/
def endCodec (i : Instr) (s : State) (mem : Memory) (out inc bits : Nat) (why : Option Halt) : Outcome :=
  let r : State :=
    { s with
      mem := mem
      outLen := BitVec.ofNat 32 out
      inCount := BitVec.ofNat 32 inc
      bits := BitVec.ofNat 64 bits
      errAddr := 0#32 }
  match why with
  | none => .next (finish r)
  | some (.error e) => .next (raiseError e r)
  | some (.busError a) => .next (raiseError .busError { r with errAddr := a })
  | some .noAnswer => .next { s with mem := mem, engine := some { word := encode i, phase := .hung, raced := s.raced } }
  | some .device => .refused .notOrdinaryMemory

end Sys2Proof.Machine
end

