-- ==== Sys2Proof/Machine/Operands.lean ====
section
/-! DEFINITION. The operands of the commands (30_encoding.md R89, R90): buffers and their checks (20_memory.md R71, R72), nodes
and codes by index, and the bits of a byte and of a code (20_memory.md R64, 42_code_generator.md R142). -/

namespace Sys2Proof.Machine

/-- A buffer is in range when `a + n <= 2^32` (20_memory.md R71). -/
def inRange (a n : Word) : Bool := decide (a.toNat + n.toNat ≤ 2 ^ 32)

/-- The source and destination ranges overlap (20_memory.md R72). -/
def overlaps (src srcLen dst dstCap : Word) : Bool :=
  decide (0 < srcLen.toNat) && decide (0 < dstCap.toNat) &&
    decide (src.toNat < dst.toNat + dstCap.toNat) && decide (dst.toNat < src.toNat + srcLen.toNat)

/-- The checks ENCODE and DECODE make first, in order (43_encoder.md R150, 44_decoder.md R165; 60_exceptions.md R208). -/
def codecPrecheck (s : State) : Option ErrCode :=
  if s.codesValid = false then some .noCodes
  else if !(inRange s.srcAddr s.srcLen) || !(inRange s.dstAddr s.dstCap) then some .addrRange
  else if overlaps s.srcAddr s.srcLen s.dstAddr s.dstCap then some .overlap
  else none

/-- `NODE[i]` (10_state.md R43). The index `NIL` never names a node: it gives the blank one (log 18). -/
def nodeAt (arena : Vector Node 511) (i : NodeIdx) : Node := arena.getD i.toNat Node.blank

/-- `CODE[s]` (10_state.md R46; found by direct index, 43_encoder.md R151). -/
def codeAt (table : Vector CodeEntry 256) (s : Byte) : CodeEntry := table.getD s.toNat CodeEntry.blank

/-- `FREQ[s]` (10_state.md R42). -/
def freqAt (freq : Vector Word 256) (s : Byte) : Word := freq.getD s.toNat 0#32

/-- A bit string as a number, its first bit the most significant. -/
def bitsToNat (p : List Bool) : Nat := p.foldl (fun acc b => 2 * acc + b.toNat) 0

/-- Eight bits as a byte: `Σ q[t] * 2^(7-t)` (43_encoder.md R150 `emit`). -/
def packByte (q : List Bool) : Byte := BitVec.ofNat 8 (bitsToNat q)

/-- Stream bit `j` of a byte: bit `7 - (j mod 8)` (20_memory.md R64). -/
def streamBit (b : Byte) (j : Nat) : Bool := b.getLsbD (7 - j % 8)

/-- `CODE[s].bits[0..len)`: the code of an entry, position 0 first (42_code_generator.md R136). -/
def codeString (e : CodeEntry) : List Bool := (List.range e.len.toNat).map (fun k => e.bits.getMsbD k)

/-- The entry that holds the code `p`: its length, its bits left-aligned, and every later position 0 (42_code_generator.md R142). -/
def codeEntry (p : List Bool) : CodeEntry :=
  { len := BitVec.ofNat 8 p.length, bits := BitVec.ofNat 256 (bitsToNat p * 2 ^ (256 - p.length)) }

/-- Zero bits that fill a bit string up to eight (43_encoder.md R153). -/
def padByte (q : List Bool) : List Bool := q ++ List.replicate (8 - q.length) false

end Sys2Proof.Machine
end

