-- ==== Sys2Proof/Machine/Flags.lean ====
section
/-! DEFINITION. The flags: STATUS as a word (10_state.md R26), `irq` (R55), the valid flags' invalidation (R51, R52), the
write-1-to-clear bits (40_control_and_frequency.md R107), OVR (R53, R109), and the flags a running command will leave. -/

namespace Sys2Proof.Machine

/-- The `irq` output: `STATUS.DONE & CTRL.IE` at all times (10_state.md R55). -/
def State.irq (s : State) : Bool := s.done && s.ctrlIE

/-- `ERRCODE[7:0]` as it reads: 0 while BUSY (10_state.md R57). -/
def State.errcodeRead (s : State) : BitVec 8 := if s.busy then 0#8 else s.errcode

/-- A change of `FREQ` clears both valid flags (40_control_and_frequency.md R102, R103). -/
def invalidate (s : State) : State := { s with treeValid := false, codesValid := false }

/-- A discarded write sets `OVR` (R109). -/
def setOvr (s : State) : State := { s with ovr := true }

/-- A write to STATUS (R107): bit 1 clears DONE, bit 5 clears OVR, every other bit is ignored. -/
def writeStatus (v : Word) (s : State) : State :=
  { s with done := s.done && !v.getLsbD 1, ovr := s.ovr && !v.getLsbD 5 }

/-- Whether the frequency table has an entry. -/
def someFreq (freq : Vector Word 256) : Bool := freq.toList.any (fun w => !(w == 0#32))

/-- `(TREE_VALID, CODES_VALID)` as the command of word `w` will leave them (10_state.md R51, R52). -/
def flagsAfter (w : Word) (s : State) : Bool × Bool :=
  match decode w with
  | .ok .clrfreq => (false, false)
  | .ok .build => (someFreq s.freq, false)
  | .ok .gencode => (s.treeValid, s.treeValid || s.codesValid)
  | _ => (s.treeValid, s.codesValid)

/-- A valid flag as STATUS shows it: while BUSY either its value before the command or the value the command will leave (log 9). -/
def flagShown (tick : Nat) (now after : Bool) : Bool :=
  if now = after then now else if Config.busyFlagsUpdated tick then after else now

/-- `(TREE_VALID, CODES_VALID)` as STATUS shows them. -/
def validFlagsShown (s : State) : Bool × Bool :=
  match s.engine with
  | none => (s.treeValid, s.codesValid)
  | some r =>
    (flagShown s.tick s.treeValid (flagsAfter r.word s).1, flagShown s.tick s.codesValid (flagsAfter r.word s).2)

/-- A single flag at a bit position of a word. -/
def flagBit (b : Bool) (pos : Nat) : Word := if b then BitVec.twoPow 32 pos else 0#32

/-- STATUS as it reads (10_state.md R26): BUSY 0, DONE 1, ERR 2, TREE_VALID 3, CODES_VALID 4, OVR 5, the rest 0. -/
def statusWord (s : State) : Word :=
  flagBit s.busy 0 ||| flagBit s.done 1 ||| flagBit (!(s.errcodeRead == 0#8)) 2 |||
    flagBit (validFlagsShown s).1 3 ||| flagBit (validFlagsShown s).2 4 ||| flagBit s.ovr 5

end Sys2Proof.Machine
end

