-- ==== Sys2Proof/Machine/CodeGenerator.lean ====
section
/-! DEFINITION. GENCODE: the code table generator (spec/42_code_generator.md). -/

namespace Sys2Proof.Machine

/-- A table without codes (R135). -/
def emptyTable : Vector CodeEntry 256 := Vector.replicate 256 CodeEntry.blank

/-- The table with one entry replaced. -/
def setCode (table : Vector CodeEntry 256) (s : Byte) (e : CodeEntry) : Vector CodeEntry 256 :=
  table.setIfInBounds s.toNat e

/-- The tree walk (R135): each leaf's symbol gets the path to it, 0 for a left step and 1 for a right one (R136). `fuel` is the
number of levels still allowed: a tree of at most 256 leaves has at most 256 (R137). -/
def walkTree (arena : Vector Node 511) : Nat → NodeIdx → List Bool → Vector CodeEntry 256 → Vector CodeEntry 256
  | 0, _, _, table => table
  | fuel + 1, i, p, table =>
    let n := nodeAt arena i
    if n.leaf then setCode table n.sym (codeEntry p)
    else
      let table := if n.left = NIL then table else walkTree arena fuel n.left (p ++ [false]) table
      if n.right = NIL then table else walkTree arena fuel n.right (p ++ [true]) table

/-- The code table of a tree (R135). -/
def genTable (arena : Vector Node 511) (root : NodeIdx) : Vector CodeEntry 256 :=
  walkTree arena Config.maxLeaves root [] emptyTable

/-- The encoded bits of node `i`: weight times code length for a leaf, nothing for an internal node (R135). -/
def leafBits (arena : Vector Node 511) (table : Vector CodeEntry 256) (i : Nat) : Nat :=
  let n := nodeAt arena (BitVec.ofNat 9 i)
  if n.leaf then n.weight.toNat * (codeAt table n.sym).len.toNat else 0

/-- The total encoded bit count (R138), exact. -/
def totalBits (arena : Vector Node 511) (table : Vector CodeEntry 256) (count : Nat) : Nat :=
  ((List.range count).map (leafBits arena table)).sum

/-- GENCODE (R135). -/
def execGencode (s : State) : Outcome :=
  if s.treeValid = false then .next (raiseError .noTree s)
  else
    let table := genTable s.node s.root
    .next (finish
      { s with
        code := table
        tbits := BitVec.ofNat 64 (totalBits s.node table s.nodeCount.toNat)
        codesValid := true })

end Sys2Proof.Machine
end

