-- ==== Sys2Proof/Machine/Control.lean ====
section
/-! DEFINITION. The control commands NOP and CLRFREQ, and illegal command words (spec/40_control_and_frequency.md). -/

namespace Sys2Proof.Machine

/-- NOP (R101): `finish`. -/
def execNop (s : State) : Outcome := .next (finish s)

/-- The empty frequency table (R102). -/
def emptyFreq : Vector Word 256 := Vector.replicate 256 0#32

/-- CLRFREQ (R102): every `FREQ[s] <- 0`, both valid flags cleared; `ALPHA`, `TOTAL`, `ROOT`, `NODE_COUNT` and `TBITS` keep
their values. -/
def execClrfreq (s : State) : Outcome := .next (finish (invalidate { s with freq := emptyFreq }))

/-- An accepted illegal command word (R110): `raise ILLEGAL_CMD`, and no other state changes. -/
def execIllegal (s : State) : Outcome := .next (raiseError .illegalCmd s)

end Sys2Proof.Machine
end

