-- ==== Sys2Proof/Machine/Decoder.lean ====
section
/-! DEFINITION. DECODE: the tree-guided decoder (spec/44_decoder.md). -/

namespace Sys2Proof.Machine

/-- What DECODE carries along its stream (R165): the memory, `out`, `bits`, the current source byte and the cursor. -/
structure DecodeRun where
  mem : Memory
  out : Nat
  bits : Nat
  byte : Byte
  cur : NodeIdx
  deriving DecidableEq, Repr

/-- The start of a stream: the cursor at `ROOT` (R169). -/
def decodeStart (s : State) : DecodeRun := { mem := s.mem, out := 0, bits := 0, byte := 0#8, cur := s.root }

/-- The source byte of stream bit `j`, read at each eighth bit (R165). -/
def fetchByte (s : State) (j : Nat) (st : DecodeRun) : Flow DecodeRun :=
  if j % 8 = 0 then
    match portRead s st.mem (s.srcAddr + BitVec.ofNat 32 (j / 8)) with
    | .error why => .halt st why
    | .ok b => .go { st with byte := b }
  else .go st

/-- The child a bit selects: 0 left, 1 right (R169). -/
def childOf (n : Node) (bit : Bool) : NodeIdx := if bit then n.right else n.left

/-- One step of the walk (R165): the absent-child guard (R170), a symbol at a leaf (R171), or a move of the cursor. -/
def walkBit (s : State) (j : Nat) (st : DecodeRun) : Flow DecodeRun :=
  let nxt := childOf (nodeAt s.node st.cur) (streamBit st.byte j)
  if nxt = NIL then .halt st (.error .absentChild)
  else if (nodeAt s.node nxt).leaf then
    if st.out = s.dstCap.toNat then .halt st (.error .dstFull)
    else
      match portWrite s st.mem (s.dstAddr + BitVec.ofNat 32 st.out) (nodeAt s.node nxt).sym with
      | .error why => .halt st why
      | .ok m => .go { st with mem := m, out := st.out + 1, cur := s.root, bits := j + 1 }
  else .go { st with cur := nxt, bits := j + 1 }

/-- The stream bits from `j` on, `n` of them (R165). -/
def decodeBits (s : State) : Nat → Nat → DecodeRun → Flow DecodeRun
  | 0, _, st => .go st
  | n + 1, j, st => ((fetchByte s j st).andThen (walkBit s j)).andThen (fun st' => decodeBits s n (j + 1) st')

/-- The checks at the end of the stream: `PARTIAL_CODE` (R172), then `COUNT_MISMATCH` (R173). -/
def decodeEnd (s : State) (st : DecodeRun) : Flow DecodeRun :=
  if st.cur ≠ s.root then .halt st (.error .partialCode)
  else if st.out ≠ s.total.toNat then .halt st (.error .countMismatch)
  else .go st

/-- The whole stream of DECODE, its prechecks first, `TRUNCATED` the last of them (R165, R167). -/
def decodeStream (s : State) : Flow DecodeRun :=
  match codecPrecheck s with
  | some e => .halt (decodeStart s) (.error e)
  | none =>
    if s.srcLen.toNat < ceilDiv s.tbits.toNat 8 then .halt (decodeStart s) (.error .truncated)
    else (decodeBits s s.tbits.toNat 0 (decodeStart s)).andThen (decodeEnd s)

/-- DECODE (R165). -/
def execDecode (s : State) : Outcome :=
  let f := decodeStream s
  endCodec .decode s f.reached.mem f.reached.out (ceilDiv f.reached.bits 8) f.reached.bits f.stop

end Sys2Proof.Machine
end

