-- ==== Sys2Proof/Machine/Encoder.lean ====
section
/-! DEFINITION. ENCODE: the bit-pack encoder (spec/43_encoder.md). -/

namespace Sys2Proof.Machine

/-- What ENCODE carries along its stream (R150): the memory, `out`, `inc`, `bits` and the pending-bit buffer. -/
structure EncodeRun where
  mem : Memory
  out : Nat
  inc : Nat
  bits : Nat
  buf : List Bool
  deriving DecidableEq, Repr

/-- The start of a stream. -/
def encodeStart (s : State) : EncodeRun := { mem := s.mem, out := 0, inc := 0, bits := 0, buf := [] }

/-- `emit(q)` (R150): `DST_FULL` at the capacity (R155), else one output byte. -/
def emitByte (s : State) (q : List Bool) (st : EncodeRun) : Flow EncodeRun :=
  if st.out = s.dstCap.toNat then .halt st (.error .dstFull)
  else
    match portWrite s st.mem (s.dstAddr + BitVec.ofNat 32 st.out) (packByte q) with
    | .error why => .halt st why
    | .ok m => .go { st with mem := m, out := st.out + 1 }

/-- `while |buf| >= 8`: emit the leading eight bits and remove them (R152), at most `fuel` times. -/
def drainBuffer (s : State) : Nat → EncodeRun → Flow EncodeRun
  | 0, st => .go st
  | fuel + 1, st =>
    if 8 ≤ st.buf.length then
      (emitByte s (st.buf.take 8) st).andThen (fun st' => drainBuffer s fuel { st' with buf := st.buf.drop 8 })
    else .go st

/-- One source byte (R150): read it, append its code, emit what is full. -/
def encodeByte (s : State) (k : Nat) (st : EncodeRun) : Flow EncodeRun :=
  match portRead s st.mem (s.srcAddr + BitVec.ofNat 32 k) with
  | .error why => .halt st why
  | .ok b =>
    let e := codeAt s.code b
    if e.len = 0#8 then .halt st (.error .noCodeForSymbol)
    else
      let buf := st.buf ++ codeString e
      drainBuffer s buf.length { st with buf := buf, inc := st.inc + 1, bits := st.bits + e.len.toNat }

/-- The source bytes from `k` on, `n` of them, in ascending order (R150). -/
def encodeBytes (s : State) : Nat → Nat → EncodeRun → Flow EncodeRun
  | 0, _, st => .go st
  | n + 1, k, st => (encodeByte s k st).andThen (fun st' => encodeBytes s n (k + 1) st')

/-- The final pad (R153): the pending bits, filled up with zeros, as one byte. -/
def encodePad (s : State) (st : EncodeRun) : Flow EncodeRun :=
  if st.buf = [] then .go st
  else (emitByte s (padByte st.buf) st).andThen (fun st' => .go { st' with buf := [] })

/-- The whole stream of ENCODE, its prechecks first (R150). -/
def encodeStream (s : State) : Flow EncodeRun :=
  match codecPrecheck s with
  | some e => .halt (encodeStart s) (.error e)
  | none => (encodeBytes s s.srcLen.toNat 0 (encodeStart s)).andThen (encodePad s)

/-- ENCODE (R150). -/
def execEncode (s : State) : Outcome :=
  let f := encodeStream s
  endCodec .encode s f.reached.mem f.reached.out f.reached.inc f.reached.bits f.stop

end Sys2Proof.Machine
end

