-- ==== Sys2Proof/Machine/TreeBuilder.lean ====
section
/-! DEFINITION. BUILD: the tree builder (spec/41_tree_builder.md). -/

namespace Sys2Proof.Machine

/-- The symbols with a non-zero frequency and their frequencies, in ascending symbol order (R121). -/
def observed (freq : Vector Word 256) : List (Byte × Word) :=
  ((List.range 256).map (fun k => (BitVec.ofNat 8 k, freqAt freq (BitVec.ofNat 8 k)))).filter (fun e => !(e.2 == 0#32))

/-- The leaf of a table entry (R120). -/
def leafNode (e : Byte × Word) : Node :=
  { leaf := true, sym := e.1, left := NIL, right := NIL, weight := e.2.setWidth 64 }

/-- An internal node (R120, R124, R125). -/
def internalNode (left right : NodeIdx) (weight : Quad) : Node :=
  { leaf := false, sym := 0#8, left := left, right := right, weight := weight }

/-- The key of a live node in the priority queue: `(weight, index)` (R123). -/
structure QueueKey where
  weight : Quad
  index : Nat
  deriving DecidableEq, Repr

/-- The key order is lexicographic: lower weight first, then lower index (R123). -/
def QueueKey.lt (a b : QueueKey) : Bool :=
  decide (a.weight.toNat < b.weight.toNat) || (a.weight == b.weight && decide (a.index < b.index))

/-- The least of a key and a list of keys: the `argmin` of R120. -/
def leastKey (k : QueueKey) (ks : List QueueKey) : QueueKey := ks.foldl (fun m x => if x.lt m then x else m) k

/-- Remove the least key from the live set; none when it is empty. -/
def popLeast : List QueueKey → Option (QueueKey × List QueueKey)
  | [] => none
  | k :: ks => some (leastKey k ks, (k :: ks).erase (leastKey k ks))

/-- The tree under construction: the nodes by index, and the live set (R56, R121). -/
structure Growth where
  nodes : List Node
  live : List QueueKey
  deriving DecidableEq, Repr

/-- One merge (R125): the two least keys leave the live set and their parent enters it; none when fewer than two are live. -/
def mergeOnce (g : Growth) : Option Growth :=
  match popLeast g.live with
  | none => none
  | some (a, live1) =>
    match popLeast live1 with
    | none => none
    | some (b, live2) =>
      some
        { nodes := g.nodes ++ [internalNode (BitVec.ofNat 9 a.index) (BitVec.ofNat 9 b.index) (a.weight + b.weight)]
          live := live2 ++ [{ weight := a.weight + b.weight, index := g.nodes.length }] }

/-- The merge loop (R120): it runs while two or more nodes are live, at most `fuel` times. -/
def mergeAll : Nat → Growth → Growth
  | 0, g => g
  | fuel + 1, g =>
    match mergeOnce g with
    | none => g
    | some g' => mergeAll fuel g'

/-- The leaves with their keys: the start of the merge loop (R120, R121). -/
def plantLeaves (leaves : List Node) : Growth :=
  { nodes := leaves, live := leaves.zipIdx.map (fun p => { weight := p.1.weight, index := p.2 }) }

/-- The nodes BUILD makes from a non-empty table, by index (R120). A single leaf is wrapped (R124); `n` leaves take `n - 1`
merges (R126), which the number of leaves bounds. -/
def growTree (freq : Vector Word 256) : List Node :=
  match (observed freq).map leafNode with
  | [] => []
  | [l] => [l, internalNode 0#9 NIL l.weight]
  | leaves => (mergeAll leaves.length (plantLeaves leaves)).nodes

/-- Write nodes into the arena from index `i` on; the other entries keep what they hold (log 6). -/
def writeArena : Nat → List Node → Vector Node 511 → Vector Node 511
  | _, [], arena => arena
  | i, n :: ns, arena => writeArena (i + 1) ns (arena.setIfInBounds i n)

/-- `Σ_s FREQ[s]`, exact (R127). -/
def freqTotal (freq : Vector Word 256) : Nat := ((observed freq).map (fun e => e.2.toNat)).sum

/-- BUILD (R120). -/
def execBuild (s : State) : Outcome :=
  let s1 : State :=
    { s with
      codesValid := false
      tbits := 0#64
      alpha := BitVec.ofNat 9 (observed s.freq).length
      total := BitVec.ofNat 64 (freqTotal s.freq) }
  match growTree s.freq with
  | [] => .next (raiseError .emptyInput { s1 with treeValid := false, root := NIL, nodeCount := 0#10 })
  | nodes =>
    .next (finish
      { s1 with
        node := writeArena 0 nodes s.node
        root := BitVec.ofNat 9 (nodes.length - 1)
        nodeCount := BitVec.ofNat 10 nodes.length
        treeValid := true })

end Sys2Proof.Machine
end

