-- ==== Sys2Proof/Machine/Registers.lean ====
section
/-! DEFINITION. The register window: reads (10_state.md R22 to R48, R57), writes (40_control_and_frequency.md R103 to R109), and
reset and power (70_reset_and_hazards.md R235 to R237, 60_exceptions.md R223). -/

namespace Sys2Proof.Machine

/-! ### Reset -/

/-- An answer that is given after all: an access that has none, or that the spec gives no meaning, completes. -/
def Answer.ifAnswered : Answer → Answer
  | .completes => .completes
  | .refuses => .refuses
  | .silent => .completes
  | .device => .completes

/-- A region that answers every access. -/
def Region.ifAnswered (r : Region) : Region := { r with onRead := r.onRead.ifAnswered, onWrite := r.onWrite.ifAnswered }

/-- Whether a read of an address gets no answer (70_reset_and_hazards.md R248), or none the spec gives a meaning (R245). -/
def readUnanswered (s : State) (a : Word) : Bool := readAnswer s a == .silent || readAnswer s a == .device

/-- Data memory with any value at each source byte whose read gets no answer. -/
def answeredMemory (s : State) : Memory :=
  ((List.range s.srcLen.toNat).map (fun k => s.srcAddr + BitVec.ofNat 32 k)).foldl
    (fun m a => if readUnanswered s a then m.write a.toNat (Config.unansweredByte s.tick a.toNat) else m) s.mem

/-- The same machine with every access answered: what a command does from here is what it would do, had each access an answer. -/
def answeredState (s : State) : State := { s with platform := s.platform.map Region.ifAnswered, mem := answeredMemory s }

/-- How many destination bytes a stream would have written: `out` where it ends, and as many as it writes with every access
answered where it stops at an access that is not (R237, row 11). -/
def streamExtent (out : Nat) (stop : Option Halt) (answered : Nat) : Nat :=
  match stop with
  | some .noAnswer => answered
  | some .device => answered
  | some (.error _) => out
  | some (.busError _) => out
  | none => out

/-- How many destination bytes the running command would have written (R82, R237). -/
def abortCount (s : State) : Nat :=
  match s.runningWord.map decode with
  | some (.ok .encode) =>
    streamExtent (encodeStream s).reached.out (encodeStream s).stop (encodeStream (answeredState s)).reached.out
  | some (.ok .decode) =>
    streamExtent (decodeStream s).reached.out (decodeStream s).stop (decodeStream (answeredState s)).reached.out
  | _ => 0

/-- The first `n` destination bytes at any value (R237). -/
def scrambleDestination (s : State) (n : Nat) : Memory :=
  (List.range n).foldl
    (fun m k => m.write (s.dstAddr + BitVec.ofNat 32 k).toNat
      (Config.abortedByte s.tick (s.dstAddr + BitVec.ofNat 32 k).toNat)) s.mem

/-- `soft_reset()` (R236), from either reset source (R235): every reset value of 10_state.md R58, the engine idle, data memory
untouched but for what an aborted command had under way (R237). What stands around the block stays (log 27). -/
def softReset (s : State) : State :=
  { State.reset with
    mem := scrambleDestination s (abortCount s)
    platform := s.platform
    script := s.script
    responses := s.responses
    durations := s.durations
    tick := s.tick }

/-- Data memory at a power-on (60_exceptions.md R223, row 19): any value at every byte. -/
def powerUpMemory (tick : Nat) : Memory := (Config.powerUpCells tick).foldl (fun m c => m.write c.1.toNat c.2) []

/-- The platform is powered off and on again (60_exceptions.md R223): power-on is a reset of the block, and no byte of data
memory survives (log 22). What stands around the block stays (log 27). -/
def powerCycle (s : State) : State :=
  { State.reset with
    mem := powerUpMemory s.tick
    platform := s.platform
    script := s.script
    responses := s.responses
    durations := s.durations
    tick := s.tick }

/-! ### Reads -/

/-- The low 32 bits of a 64-bit quantity (10_state.md R59). -/
def lowWord (q : Quad) : Word := q.extractLsb' 0 32

/-- The high 32 bits of a 64-bit quantity (R59). -/
def highWord (q : Quad) : Word := q.extractLsb' 32 32

/-- NODE_INFO of a node (R44): VALID 31, LEAF 30, SYM 25:18, RIGHT 17:9, LEFT 8:0. -/
def nodeInfo (n : Node) : Word := 1#1 ++ BitVec.ofBool n.leaf ++ 0#4 ++ n.sym ++ n.right ++ n.left

/-- A word of the NODE window (R44, R45). -/
def nodeWindow (s : State) (i : NodeIdx) (w : BitVec 2) : Word :=
  if s.treeValid = false ∨ s.nodeCount.toNat ≤ i.toNat then 0#32
  else
    match w.toNat with
    | 0 => nodeInfo (nodeAt s.node i)
    | 1 => lowWord (nodeAt s.node i).weight
    | 2 => highWord (nodeAt s.node i).weight
    | _ => 0#32

/-- CODE_INFO of an entry (R47): VALID 31, LEN 7:0. -/
def codeInfo (e : CodeEntry) : Word := BitVec.ofBool (!(e.len == 0#8)) ++ 0#23 ++ e.len

/-- CODE_BITS`w` of an entry (R47): position `k` at bit `31 - (k mod 32)` of word `k / 32`. -/
def codeBitsWord (e : CodeEntry) (w : Nat) : Word := e.bits.extractLsb' (224 - 32 * w) 32

/-- A word of the CODE window (R47, R48). -/
def codeWindow (s : State) (sym : Byte) (w : BitVec 4) : Word :=
  if s.codesValid = false then 0#32
  else if w.toNat = 0 then codeInfo (codeAt s.code sym)
  else if w.toNat ≤ 8 then codeBitsWord (codeAt s.code sym) (w.toNat - 1)
  else 0#32

/-- A result register's value, or any value while BUSY (R57). All 32 bits are free then, the reserved bits of ALPHA, ROOT,
NODE_COUNT, NODE_INFO and CODE_INFO among them: 93_implementation_defined.md row 24 says that reserved bits read 0, row 8 and R57
leave the whole word open (DESIGN CHOICE, log 8). -/
def unlessBusy (s : State) (v : Word) : Word := if s.busy then Config.busyRead s.tick else v

/-- A read of a word of the NODE window: its last word is reserved and reads 0 always (10_state.md R41, R44). -/
def readNode (s : State) (i : NodeIdx) (w : BitVec 2) : Word :=
  if w = 3#2 then 0#32 else unlessBusy s (nodeWindow s i w)

/-- A read of a word of the CODE window: the words from 9 on are reserved and read 0 always (R41, R47). -/
def readCode (s : State) (sym : Byte) (w : BitVec 4) : Word :=
  if 9 ≤ w.toNat then 0#32 else unlessBusy s (codeWindow s sym w)

/-- Whether the running command is CLRFREQ. -/
def clearingFreq (s : State) : Bool :=
  match s.runningWord.map decode with
  | some (.ok .clrfreq) => true
  | _ => false

/-- A read of `FREQ[i]` (40_control_and_frequency.md R104): exact, but either the old value or 0 while CLRFREQ is BUSY. -/
def readFreq (s : State) (i : Byte) : Word :=
  if clearingFreq s && Config.busyFreqCleared s.tick then 0#32 else freqAt s.freq i

/-- What a read of a register word returns (R22 to R48, R57). No read changes state (20_memory.md R68). -/
def readReg (s : State) : Reg → Word
  | .id => Config.idValue
  | .ctrl => flagBit s.ctrlIE 0
  | .status => statusWord s
  | .cmd => 0#32
  | .errcode => s.errcodeRead.setWidth 32
  | .srcAddr => s.srcAddr
  | .srcLen => s.srcLen
  | .dstAddr => s.dstAddr
  | .dstCap => s.dstCap
  | .outLen => unlessBusy s s.outLen
  | .inCount => unlessBusy s s.inCount
  | .bitsLo => unlessBusy s (lowWord s.bits)
  | .bitsHi => unlessBusy s (highWord s.bits)
  | .alpha => unlessBusy s (s.alpha.setWidth 32)
  | .totalLo => unlessBusy s (lowWord s.total)
  | .totalHi => unlessBusy s (highWord s.total)
  | .tbitsLo => unlessBusy s (lowWord s.tbits)
  | .tbitsHi => unlessBusy s (highWord s.tbits)
  | .root => unlessBusy s (s.root.setWidth 32)
  | .nodeCount => unlessBusy s (s.nodeCount.setWidth 32)
  | .errAddr => unlessBusy s s.errAddr
  | .freq i => readFreq s i
  | .nodeWord i w => readNode s i w
  | .codeWord x w => readCode s x w
  | .reserved => 0#32

/-! ### Writes -/

/-- A write to CTRL (40_control_and_frequency.md R106): SRST resets, and the IE bit of that word is discarded. -/
def writeCtrl (v : Word) (s : State) : State :=
  if v.getLsbD 1 then softReset s else { s with ctrlIE := v.getLsbD 0 }

/-- A write that is stored while idle, and discarded with `OVR <- 1` while BUSY (R103, R105, R109; 10_state.md R53). -/
def guardedWrite (s stored : State) : State := if s.busy then setOvr s else stored

/-- A write of a frequency entry (R103). -/
def setFreq (i : Byte) (v : Word) (s : State) : State :=
  invalidate { s with freq := s.freq.setIfInBounds i.toNat v }

/-- A 32-bit write of `v` to a register word (R103 to R109). -/
def writeReg (s : State) (r : Reg) (v : Word) : State :=
  match r with
  | .ctrl => writeCtrl v s
  | .status => writeStatus v s
  | .cmd => guardedWrite s (acceptCommand v s)
  | .srcAddr => guardedWrite s { s with srcAddr := v }
  | .srcLen => guardedWrite s { s with srcLen := v }
  | .dstAddr => guardedWrite s { s with dstAddr := v }
  | .dstCap => guardedWrite s { s with dstCap := v }
  | .freq i => guardedWrite s (setFreq i v s)
  | .id => s
  | .errcode => s
  | .outLen => s
  | .inCount => s
  | .bitsLo => s
  | .bitsHi => s
  | .alpha => s
  | .totalLo => s
  | .totalHi => s
  | .tbitsLo => s
  | .tbitsHi => s
  | .root => s
  | .nodeCount => s
  | .errAddr => s
  | .nodeWord _ _ => s
  | .codeWord _ _ => s
  | .reserved => s

end Sys2Proof.Machine
end

