-- ==== Sys2Proof/WellFormed.lean ====
section
/-! DEFINITION. Well-formedness. A command has no operand (30_encoding.md R86), so every command is well-formed; a host action
is well-formed when it obeys the access rules of 20_memory.md R65 and 70_reset_and_hazards.md R246 and stays inside the data
memory (20_memory.md R60). -/

namespace Sys2Proof

/-- Every command is well-formed: there is no operand to check (R86). -/
def Instr.wf : Instr → Bool
  | .nop => true
  | .clrfreq => true
  | .build => true
  | .gencode => true
  | .encode => true
  | .decode => true

namespace Machine

/-- A register access is 32-bit, 4-byte aligned and below `0x8000` (R65, R246). -/
def accessWf (size : Nat) (offset : Word) : Bool :=
  size == 4 && offset.toNat % 4 == 0 && decide (offset.toNat < Config.regSpace)

/-- `n` bytes at `addr` lie inside the data memory (R60). -/
def spanWf (addr : Word) (n : Nat) : Bool := decide (addr.toNat + n ≤ Config.memSize)

/-- A well-formed host action. The machine gives every action a meaning; this says which ones keep the rules. -/
def HostAction.wf : HostAction → Bool
  | .write size off _ => accessWf size off
  | .read size off => accessWf size off
  | .wait => true
  | .store a bs => spanWf a bs.length
  | .load _ => true
  | .resetInput => true
  | .powerCycle => true

/-- A well-formed script. -/
def scriptWf (as : List HostAction) : Bool := as.all HostAction.wf

end Machine
end Sys2Proof
end

