-- ==== Sys2Proof/Machine/HostPort.lean ====
section
/-! DEFINITION. What each host action does (spec/30_encoding.md R92, R95): register-bus accesses, WAIT, data-memory stores and
loads, the reset input, and the loss of power. -/

namespace Sys2Proof.Machine

/-- Record what an access answered. -/
def respond (r : Response) (s : State) : State := { s with responses := r :: s.responses }

/-- A register-bus write (20_memory.md R65): an error response and no other change where the access is not a 32-bit one at an
aligned offset of the window. -/
def busWrite (size : Nat) (offset data : Word) (s : State) : State :=
  if size ≠ 4 then respond .busError s
  else
    match regAt offset with
    | none => respond .busError s
    | some r => writeReg s r data

/-- A register-bus read (R65); it changes nothing (R68) but the host's record of it. -/
def busRead (size : Nat) (offset : Word) (s : State) : State :=
  if size ≠ 4 then respond .busError s
  else
    match regAt offset with
    | none => respond .busError s
    | some r => respond (.word (readReg s r)) s

/-- Whether the running command is ENCODE or DECODE, the only ones that touch data memory (20_memory.md R82). -/
def codecRunning (s : State) : Bool :=
  match s.runningWord.map decode with
  | some (.ok .encode) => true
  | some (.ok .decode) => true
  | _ => false

/-- Whether an address lies in the destination range while a command, whichever it is, is BUSY (20_memory.md R80,
70_reset_and_hazards.md R241). -/
def inBusyDestination (s : State) (a : Word) : Bool := s.busy && inBuffer s.dstAddr s.dstCap a

/-- A host store of one byte. While BUSY it is noted, since the engine's source reads are any value once one went into the source
range (R80); a byte of the destination range ends at any value (log 12). -/
def storeByte (s : State) (a : Word) (v : Byte) : State :=
  { s with
    mem := s.mem.write a.toNat (if inBusyDestination s a then Config.racedByte s.tick a.toNat else v)
    engine := s.engine.map (fun r => { r with raced := a :: r.raced }) }

/-- Host stores at `a`, `a + 1`, … (30_encoding.md R95 `MEM`). -/
def storeBytes (s : State) (a : Word) : List Byte → State
  | [] => s
  | b :: bs => storeBytes (storeByte s a b) (a + 1#32) bs

/-- The addresses of `n` bytes from `a` on. -/
def spanAddrs (a : Word) (n : Nat) : List Word := (List.range n).map (fun k => a + BitVec.ofNat 32 k)

/-- The host's `MEM` (R95). -/
def hostStore (a : Word) (bytes : List Byte) (s : State) : Outcome :=
  if spanWf a bytes.length = false then .fault .storeOutsideMemory
  else if (spanAddrs a bytes.length).any (fun x => writeAnswer s x == .device) then .refused .notOrdinaryMemory
  else .next (storeBytes s a bytes)

/-- The byte a host load returns: any value in the destination range while BUSY (R80, R241). -/
def loadByte (s : State) (a : Word) : Byte :=
  if inBusyDestination s a then Config.racedByte s.tick a.toNat else s.mem.read a.toNat

/-- The host's load of one byte. -/
def hostLoad (a : Word) (s : State) : Outcome :=
  if readAnswer s a == .device then .refused .notOrdinaryMemory
  else .next (respond (.byte (loadByte s a)) s)

/-- One poll of `WAIT` (R95): it stays the host's next action while BUSY (R97). -/
def hostWait (s : State) : State :=
  let polled := respond (.word (statusWord s)) s
  if s.busy then { polled with script := .wait :: s.script } else polled

/-- One host action, already taken from the script. -/
def hostAct (a : HostAction) (s : State) : Outcome :=
  match a with
  | .write size off data => .next (busWrite size off data s)
  | .read size off => .next (busRead size off s)
  | .wait => .next (hostWait s)
  | .store addr bytes => hostStore addr bytes s
  | .load addr => hostLoad addr s
  | .resetInput => .next (softReset s)
  | .powerCycle => .next (powerCycle s)

/-- The host's next action, if it has one; else nothing happens (10_state.md R21). -/
def hostStep (s : State) : Outcome :=
  match s.script with
  | [] => .next s
  | a :: rest => hostAct a { s with script := rest }

end Sys2Proof.Machine
end

