-- ==== Sys2Proof/Machine/Engine.lean ====
section
/-! DEFINITION. The engine's turn and the choice of whose turn it is (00_scope.md R8, R9; 70_reset_and_hazards.md R248). -/

namespace Sys2Proof.Machine

/-- Run an accepted command word to its completion (40_control_and_frequency.md R100): the command it stands for, or
`ILLEGAL_CMD` (R110). -/
def runCommand (w : Word) (s : State) : Outcome :=
  match decode w with
  | .ok i => exec i s
  | .error _ => execIllegal s

/-- One step of the pair of agents: the running command completes when its delay is over or the host has nothing to do; until
then, and while idle or hung, the host acts. -/
def turn (s : State) : Outcome :=
  match s.engine with
  | none => hostStep s
  | some r =>
    match r.phase with
    | .hung => hostStep s
    | .due 0 => runCommand r.word s
    | .due (d + 1) =>
      match s.script with
      | [] => runCommand r.word s
      | _ :: _ => hostStep { s with engine := some { r with phase := .due d } }

/-- The state with the word `w` accepted and due now: the command the very next step runs. -/
def acceptNow (w : Word) (s : State) : State :=
  { s with done := false, errcode := 0#8, engine := some { word := w, phase := .due 0, raced := [] } }

end Sys2Proof.Machine
end

