-- ==== Sys2Proof/Machine/Step.lean ====
section
/-! DEFINITION. One step of the machine, and the state whose very next step runs a given command word. HUFFCORE fetches no
instructions (10_state.md R21): what a step runs next is the accepted command in `engine`. -/

namespace Sys2Proof.Machine

/-- One step: the model's counter moves on, and the agent whose turn it is acts. -/
def step (s : State) : Host.Outcome State Fault Refusal := turn s.nextTick

/-- The state with the command word `w` (of `nbits` bits, 0 above) accepted and due now (log 16). -/
def State.withFetchWord (s : State) (nbits w : Nat) : State := acceptNow (BitVec.ofNat 32 (w % 2 ^ nbits)) s

end Sys2Proof.Machine
end

