-- ==== Sys2Proof/Machine/FileFormat.lean ====
section
/-! DEFINITION. The host procedures: the compressed file format, and compress and decompress as runs of host scripts on the block
(spec/46_host_procedures.md). `MAGIC` is an OPEN parameter (R189): an argument here. -/

namespace Sys2Proof.Machine

/-- Why decompress fails (46_host_procedures.md R192 to R195). -/
inductive FormatError where
  | badMagicTag | truncated | inconsistent
  deriving DecidableEq, Repr

/-- `le32(v)`: the four bytes of `v`, least-significant first (R185, R188). -/
def le32 (v : Word) : List Byte :=
  [v.extractLsb' 0 8, v.extractLsb' 8 8, v.extractLsb' 16 8, v.extractLsb' 24 8]

/-- The little-endian value of the first four bytes of a list (R188). -/
def ofLe32 (b : List Byte) : Word :=
  BitVec.ofNat 32 ((b.take 4).foldr (fun x acc => x.toNat + 256 * acc) 0)

/-- `count[s]`: how often a symbol occurs in the input (R185). For an input of `2^32` bytes or more, which is beyond what R188
allows and which the spec gives no procedure for, the model wraps the count modulo `2^32` (DESIGN CHOICE, log 26). -/
def symbolCount (x : List Byte) (s : Byte) : Word := BitVec.ofNat 32 (x.count s)

/-- All symbols, ascending (R190). -/
def allSymbols : List Byte := (List.range 256).map (fun k => BitVec.ofNat 8 k)

/-- The frequency-table entries of a file, in ascending symbol order (R187, R190). -/
def entryBytes (entries : List (Byte × Word)) : List Byte := entries.flatMap (fun e => e.1 :: le32 e.2)

/-- The header of a file (R185, R187): tag, the two counts, the entries. -/
def fileHeader (magic : List Byte) (alphabet total : Word) (entries : List (Byte × Word)) : List Byte :=
  magic ++ le32 alphabet ++ le32 total ++ entryBytes entries

/-- Compress, first part (R185): load the counts, build, generate. None for the empty input, which reports `EmptyInput` (R186). -/
def compressLoad (x : List Byte) : Option (List Stmt) :=
  if x = [] then none
  else some ([.run .clrfreq] ++
    (allSymbols.filter (fun s => !(symbolCount x s == 0#32))).map (fun s => .setf s (symbolCount x s)) ++
    [.run .build, .run .gencode])

/-- Compress, second part (R185): place the input, give `ceil_div(TBITS, 8)` bytes of destination, encode. `SRC_LEN` and `DST_CAP`
are wrapped modulo `2^32` for an input of `2^32` bytes or more (DESIGN CHOICE, log 26). -/
def compressEncode (x : List Byte) (src dst : Word) (tbits : Quad) : List Stmt :=
  [.mem src x, .src src (BitVec.ofNat 32 x.length), .dst dst (BitVec.ofNat 32 (ceilDiv tbits.toNat 8)), .run .encode]

/-- The file the host writes once ENCODE has completed (R185). -/
def compressedFile (magic : List Byte) (s : State) : List Byte :=
  fileHeader magic (s.alpha.setWidth 32) (s.total.setWidth 32) (observed s.freq) ++
    s.mem.readList s.dstAddr.toNat s.outLen.toNat

/-- A file read back (R191). -/
structure ParsedFile where
  alphabet : Word
  total : Word
  entries : List (Byte × Word)
  payload : List Byte
  deriving DecidableEq, Repr

/-- `n` entries of five bytes each (R187). -/
def readEntries : Nat → List Byte → List (Byte × Word)
  | 0, _ => []
  | n + 1, b => (b.headD 0#8, ofLe32 (b.drop 1)) :: readEntries n (b.drop 5)

/-- Header consistency (R194): 1 to 256 entries, distinct symbols, no weight 0, the weights' sum the total count. -/
def headerConsistent (alphabet total : Word) (entries : List (Byte × Word)) : Bool :=
  decide (1 ≤ alphabet.toNat) && decide (alphabet.toNat ≤ 256) && decide ((entries.map Prod.fst).Nodup) &&
    entries.all (fun e => !(e.2 == 0#32)) && decide ((entries.map (fun e => e.2.toNat)).sum = total.toNat)

/-- Reading a file (R191): the tag (R192), the counts and the entries (R193), their consistency (R194). -/
def parseFile (magic f : List Byte) : Except FormatError ParsedFile :=
  if f.take magic.length ≠ magic then .error .badMagicTag
  else
    let r := f.drop magic.length
    if r.length < 8 then .error .truncated
    else
      let alphabet := ofLe32 r
      let total := ofLe32 (r.drop 4)
      if r.length < 8 + 5 * alphabet.toNat then .error .truncated
      else
        let entries := readEntries alphabet.toNat (r.drop 8)
        if headerConsistent alphabet total entries then
          .ok { alphabet := alphabet, total := total, entries := entries, payload := r.drop (8 + 5 * alphabet.toNat) }
        else .error .inconsistent

/-- Decompress on the block (R191): load the entries, build, generate, place the payload, decode. The length of a payload of
`2^32` bytes or more is wrapped modulo `2^32` where it is written to `SRC_LEN` (DESIGN CHOICE, log 26: the spec does not say). -/
def decompressScript (p : ParsedFile) (src dst : Word) : List Stmt :=
  [.run .clrfreq] ++ p.entries.map (fun e => .setf e.1 e.2) ++
    [.run .build, .run .gencode, .mem src p.payload, .src src (BitVec.ofNat 32 p.payload.length), .dst dst p.total,
      .run .decode]

/-- What decompress outputs once DECODE has completed: nothing on any failure (R191, R195). -/
def decompressOutput (s : State) : Option (List Byte) :=
  if s.errcode = 0#8 then some (s.mem.readList s.dstAddr.toNat s.outLen.toNat) else none

/-- The failure a DECODE error stands for (R195); none for a host programming or platform fault. -/
def payloadError : ErrCode → Option FormatError
  | .truncated => some .truncated
  | .absentChild => some .inconsistent
  | .partialCode => some .inconsistent
  | .countMismatch => some .inconsistent
  | .emptyInput => none
  | .illegalCmd => none
  | .noTree => none
  | .noCodes => none
  | .noCodeForSymbol => none
  | .dstFull => none
  | .addrRange => none
  | .overlap => none
  | .busError => none

/-- The error an `ERRCODE` value names (60_exceptions.md R206). -/
def errorNamed (v : BitVec 8) : Option ErrCode :=
  [ErrCode.emptyInput, .truncated, .illegalCmd, .noTree, .noCodes, .noCodeForSymbol, .dstFull, .absentChild, .partialCode,
    .countMismatch, .addrRange, .overlap, .busError].find? (fun e => errValue e == v)

/-! ### Running a procedure -/

/-- Why a host procedure ends without a result. -/
inductive HostFailure where
  /-- `compress([])` (R186). -/
  | emptyInput
  /-- A format error (R192 to R195). -/
  | format (e : FormatError)
  /-- The last command's `ERRCODE`, which is no format error: a host programming or platform fault (R195). -/
  | block (errcode : BitVec 8)
  /-- A command waits for an access that is never answered (70_reset_and_hazards.md R248). -/
  | unanswered
  /-- The machine stopped with a fault. -/
  | fault (f : Fault)
  /-- The machine stopped with a refusal. -/
  | refused (r : Refusal)
  deriving DecidableEq, Repr

/-- The host actions a running command is still away from its completion. -/
def pendingDelay (s : State) : Nat :=
  match s.engine with
  | some { word := _, phase := .due d, raced := _ } => d + 1
  | some { word := _, phase := .hung, raced := _ } => 0
  | none => 0

/-- More steps than a script can take that no unanswered access holds up: each step answers an action, takes one off a delay, or
completes a command. -/
def hostFuel (s : State) : Nat := 2 * s.script.length + s.durations.sum + pendingDelay s + 1

/-- Step until the host has nothing left to do and the block is idle. -/
def runHost : Nat → State → Except HostFailure State
  | 0, _ => .error .unanswered
  | fuel + 1, s =>
    if s.script.isEmpty && !s.busy then .ok s
    else
      match step s with
      | .next t => runHost fuel t
      | .fault f => .error (.fault f)
      | .refused r => .error (.refused r)

/-- Run a host script (30_encoding.md R92) to its end. -/
def runScript (ss : List Stmt) (s : State) : Except HostFailure State :=
  runHost (hostFuel { s with script := s.script ++ expandScript ss }) { s with script := s.script ++ expandScript ss }

/-- `TBITS` as the host reads it, in two halves (10_state.md R38, R59). -/
def readTbits (s : State) : Quad := readReg s .tbitsHi ++ readReg s .tbitsLo

/-- Compress (R185, R186) of the input `x`, placed at `src`, with the output at `dst`: the file and the state it leaves. An ENCODE
that ends with an error, of which R185 says nothing, gives no file (log 23). -/
def compress (magic x : List Byte) (src dst : Word) (s : State) : Except HostFailure (List Byte × State) :=
  match compressLoad x with
  | none => .error .emptyInput
  | some load =>
    match runScript load s with
    | .error e => .error e
    | .ok s1 =>
      match runScript (compressEncode x src dst (readTbits s1)) s1 with
      | .error e => .error e
      | .ok s2 => if s2.errcode = 0#8 then .ok (compressedFile magic s2, s2) else .error (.block s2.errcode)

/-- The failure of a decompress whose DECODE ended with an error (R195). -/
def decodeFailure (errcode : BitVec 8) : HostFailure :=
  match (errorNamed errcode).bind payloadError with
  | some e => .format e
  | none => .block errcode

/-- Decompress (R191) of the file `f`, its payload placed at `src`, with the output at `dst`: the output and the state it leaves. A
file whose header fails never reaches the block (R192 to R194). -/
def decompress (magic f : List Byte) (src dst : Word) (s : State) : Except HostFailure (List Byte × State) :=
  match parseFile magic f with
  | .error e => .error (.format e)
  | .ok p =>
    match runScript (decompressScript p src dst) s with
    | .error e => .error e
    | .ok s1 =>
      match decompressOutput s1 with
      | some y => .ok (y, s1)
      | none => .error (decodeFailure s1.errcode)

/-- The code table as the diagnostic accessors give it while idle: symbol, weight and code of each symbol that has one; none while
`CODES_VALID = 0`, when the CODE window reads 0 (40_control_and_frequency.md R104; 10_state.md R48; R196). -/
def codeListing (s : State) : List (Byte × Word × List Bool) :=
  if s.codesValid = false then []
  else (allSymbols.filter (fun x => !((codeAt s.code x).len == 0#8))).map
    (fun x => (x, freqAt s.freq x, codeString (codeAt s.code x)))

end Sys2Proof.Machine
end

