-- ==== Sys2Proof/Safety.lean ====
section
/-! DEFINITION. What counts as a safe run, and the invariants of the machine in the terms the statements use: the canonical
memory, the flags (10_state.md R51 to R54), the counts (R36 to R40), the tree (R49) and the codes (R50). -/

namespace Sys2Proof.Machine

/-- `n` steps end in neither a fault nor a refusal. -/
def SafeRun : Nat → State → Prop
  | 0, _ => True
  | n + 1, s => ∃ t, step s = .next t ∧ SafeRun n t

/-- The data memory is in canonical form. -/
def MemoryOk (s : State) : Prop := s.mem.wf = true

/-- `CODES_VALID` implies `TREE_VALID` (R52); while BUSY, `DONE = 0` and `ERRCODE = 0` (R54); `ERRCODE` is one of the codes of
60_exceptions.md R206. -/
def FlagsOk (s : State) : Prop :=
  (s.codesValid = true → s.treeValid = true) ∧
  (s.busy = true → s.done = false ∧ s.errcode = 0#8) ∧
  s.errcode.toNat ≤ 0x0D

/-- The ranges of the result registers of BUILD (R36, R37, R39, R40): with no nodes `ROOT` is `NIL`, else it is the last node. -/
def CountsOk (s : State) : Prop :=
  s.alpha.toNat ≤ 256 ∧
  s.total.toNat ≤ 0xFFFFFFFF00 ∧
  s.nodeCount.toNat ≤ 511 ∧
  (s.nodeCount.toNat = 0 → s.root = NIL) ∧
  (0 < s.nodeCount.toNat → s.root.toNat + 1 = s.nodeCount.toNat)

/-! ### The tree -/

/-- A tree as the arena holds it, each node with its index. `wrap` is the single-symbol wrapper (41_tree_builder.md R124). -/
inductive Shape where
  | leaf (idx : Nat) (sym : Byte) (w : Word)
  | wrap (idx : Nat) (only : Shape)
  | fork (idx : Nat) (l r : Shape)
  deriving DecidableEq, Repr

/-- The index of a tree's root. -/
def Shape.idx : Shape → Nat
  | .leaf i _ _ => i
  | .wrap i _ => i
  | .fork i _ _ => i

/-- The sum of the weights of the leaves. -/
def Shape.weight : Shape → Nat
  | .leaf _ _ w => w.toNat
  | .wrap _ t => t.weight
  | .fork _ l r => l.weight + r.weight

/-- The indices of all nodes. -/
def Shape.indices : Shape → List Nat
  | .leaf i _ _ => [i]
  | .wrap i t => i :: t.indices
  | .fork i l r => i :: (l.indices ++ r.indices)

/-- The symbols at the leaves with their weights. -/
def Shape.leaves : Shape → List (Byte × Word)
  | .leaf _ s w => [(s, w)]
  | .wrap _ t => t.leaves
  | .fork _ l r => l.leaves ++ r.leaves

/-- The symbols at the leaves with the paths to them: 0 for a left step, 1 for a right one (42_code_generator.md R136). -/
def Shape.paths : Shape → List (Byte × List Bool)
  | .leaf _ s _ => [(s, [])]
  | .wrap _ t => t.paths.map (fun e => (e.1, false :: e.2))
  | .fork _ l r => l.paths.map (fun e => (e.1, false :: e.2)) ++ r.paths.map (fun e => (e.1, true :: e.2))

/-- Every internal node has two children: no wrapper. -/
def Shape.full : Shape → Prop
  | .leaf _ _ _ => True
  | .wrap _ _ => False
  | .fork _ l r => l.full ∧ r.full

/-- A tree BUILD may make: its root is internal, and either every internal node has two children or it is one wrapped leaf
(10_state.md R49 items 4 and 5). -/
def Shape.proper : Shape → Prop
  | .leaf _ _ _ => False
  | .wrap _ t => ∃ i s w, t = .leaf i s w
  | .fork _ l r => l.full ∧ r.full

/-- The arena holds a tree: each node stands at its index with its children's indices and the sum of its leaves' weights. -/
def Shape.heldBy (arena : Vector Node 511) : Shape → Prop
  | .leaf i s w =>
    i < 511 ∧ nodeAt arena (BitVec.ofNat 9 i) =
      { leaf := true, sym := s, left := NIL, right := NIL, weight := w.setWidth 64 }
  | .wrap i t =>
    i < 511 ∧ nodeAt arena (BitVec.ofNat 9 i) =
      { leaf := false, sym := 0#8, left := BitVec.ofNat 9 t.idx, right := NIL, weight := BitVec.ofNat 64 t.weight } ∧
    t.heldBy arena
  | .fork i l r =>
    i < 511 ∧ nodeAt arena (BitVec.ofNat 9 i) =
      { leaf := false, sym := 0#8, left := BitVec.ofNat 9 l.idx, right := BitVec.ofNat 9 r.idx,
        weight := BitVec.ofNat 64 (l.weight + r.weight) } ∧
    l.heldBy arena ∧ r.heldBy arena

/-- `t` is the tree of a state (10_state.md R49): the arena holds it, `ROOT` is its root, its nodes are the indices below
`NODE_COUNT` once each (so no sharing, no cycles, none out of reach), and its leaves are the entries of `FREQ`. -/
def IsTree (s : State) (t : Shape) : Prop :=
  t.heldBy s.node ∧ t.proper ∧ s.root = BitVec.ofNat 9 t.idx ∧
  t.indices.Perm (List.range s.nodeCount.toNat) ∧ t.leaves.Perm (observed s.freq)

/-- When `TREE_VALID = 1`, the arena holds the tree of `FREQ` (R49). -/
def TreeOk (s : State) : Prop := s.treeValid = true → ∃ t, IsTree s t

/-- Node `k` is live when node `m` is made, in an arena whose first `n` nodes are the leaves: it stands below `m`, and no node
merged before has it as a child (10_state.md R56, 41_tree_builder.md R123). -/
def LiveBefore (s : State) (n m k : Nat) : Prop :=
  k < m ∧ ∀ j, n ≤ j → j < m →
    (nodeAt s.node (BitVec.ofNat 9 j)).left ≠ BitVec.ofNat 9 k ∧ (nodeAt s.node (BitVec.ofNat 9 j)).right ≠ BitVec.ofNat 9 k

/-- Node `a` comes before node `b` under the key `(weight, index)` (41_tree_builder.md R123). -/
def LowerKey (s : State) (a b : Nat) : Prop :=
  (nodeAt s.node (BitVec.ofNat 9 a)).weight.toNat < (nodeAt s.node (BitVec.ofNat 9 b)).weight.toNat ∨
  ((nodeAt s.node (BitVec.ofNat 9 a)).weight = (nodeAt s.node (BitVec.ofNat 9 b)).weight ∧ a < b)

/-- `Σ_s FREQ[s] * CODE[s].len` (42_code_generator.md R138). -/
def weightedLength (s : State) : Nat :=
  (allSymbols.map (fun x => (freqAt s.freq x).toNat * (codeAt s.code x).len.toNat)).sum

/-- The code table describes a tree (10_state.md R46, R50): each leaf's symbol has the path to it as its code, of 1 to 255 bits
and zeros behind, and a symbol without a leaf has none. -/
def IsCodeTable (s : State) (t : Shape) : Prop :=
  (∀ e ∈ t.paths, codeString (codeAt s.code e.1) = e.2 ∧ 1 ≤ e.2.length ∧ e.2.length ≤ 255) ∧
  (∀ x : Byte, ∀ k, (codeAt s.code x).len.toNat ≤ k → (codeAt s.code x).bits.getMsbD k = false) ∧
  (∀ x : Byte, freqAt s.freq x = 0#32 → codeAt s.code x = CodeEntry.blank)

/-- When `CODES_VALID = 1`, the code table and `TBITS` describe the tree (R50, R52; 42_code_generator.md R138). -/
def CodesOk (s : State) : Prop :=
  s.codesValid = true → ∃ t, IsTree s t ∧ IsCodeTable s t ∧ s.tbits.toNat = weightedLength s

/-- All invariants together. -/
def Inv (s : State) : Prop := MemoryOk s ∧ FlagsOk s ∧ CountsOk s ∧ TreeOk s ∧ CodesOk s

/-! ### Conditions of the statements -/

/-- The platform answers every access to the two buffers, completing or refusing it: the premise of completion (00_scope.md R10,
R14; 70_reset_and_hazards.md R248). -/
def BuffersAnswered (s : State) : Prop :=
  (∀ k, k < s.srcLen.toNat → readAnswer s (s.srcAddr + BitVec.ofNat 32 k) = .completes ∨
    readAnswer s (s.srcAddr + BitVec.ofNat 32 k) = .refuses) ∧
  (∀ k, k < s.dstCap.toNat → writeAnswer s (s.dstAddr + BitVec.ofNat 32 k) = .completes ∨
    writeAnswer s (s.dstAddr + BitVec.ofNat 32 k) = .refuses)

/-- While the running command was BUSY the host stored into neither buffer: it kept the duty of 70_reset_and_hazards.md R241. -/
def NoRace (s : State) : Prop :=
  ∀ a ∈ s.raced, inBuffer s.srcAddr s.srcLen a = false ∧ inBuffer s.dstAddr s.dstCap a = false

/-- The platform completes a read of each of the `n` bytes from `a` on (`MEM_OK`, 00_scope.md R14). -/
def ReadsComplete (s : State) (a : Word) (n : Nat) : Prop := ∀ k, k < n → readAnswer s (a + BitVec.ofNat 32 k) = .completes

/-- The platform completes a write of each of the `n` bytes from `a` on. -/
def WritesComplete (s : State) (a : Word) (n : Nat) : Prop := ∀ k, k < n → writeAnswer s (a + BitVec.ofNat 32 k) = .completes

/-- `a` is where the first access of the command `i` (ENCODE or DECODE) that the platform does not complete goes, and `ans` its
answer (00_scope.md R14): a platform that refuses `a` alone ends the command there, in `u`, and on the platform of `s` every access
before that one completes. At a write, DECODE has read the source byte of the bit at which it stands, too. -/
def FirstStop (i : Instr) (s u : State) (a : Word) (ans : Answer) : Prop :=
  exec i { s with platform := [{ base := a.toNat, size := 1, onRead := .refuses, onWrite := .refuses }] } = .next u ∧
  u.errcode = 0x0D#8 ∧ WritesComplete s s.dstAddr u.outLen.toNat ∧
  if inBuffer s.srcAddr s.srcLen a then ReadsComplete s s.srcAddr u.inCount.toNat ∧ readAnswer s a = ans
  else ReadsComplete s s.srcAddr (if i = .encode then u.inCount.toNat else u.bits.toNat / 8 + 1) ∧ writeAnswer s a = ans

/-- The bytes of a source buffer. -/
def sourceBytes (s : State) : List Byte := s.mem.readList s.srcAddr.toNat s.srcLen.toNat

/-- The code bits of a byte sequence (43_encoder.md R150). -/
def codeStream (s : State) (x : List Byte) : List Bool := x.flatMap (fun b => codeString (codeAt s.code b))

/-- Bit `j` of a byte sequence, MSB-first (20_memory.md R64). -/
def bitOf (y : List Byte) (j : Nat) : Bool := streamBit (y.getD (j / 8) 0#8) j

/-- An address lies in the first `n` bytes from `a` on. -/
def inSpan (a : Word) (n : Nat) (x : Nat) : Prop := a.toNat ≤ x ∧ x < a.toNat + n

end Sys2Proof.Machine
end

