-- ==== Sys2Proof/Certificates/Slice0/Obligations.lean ====
section
/-! DEFINITION. The statements about HUFFCORE, one `def Obligations.<Name> : Prop` each, with the rules of spec/ they formalise. -/

open Sys2Proof Sys2Proof.Machine

/-! ### Command words and the register map -/

/-- 30_encoding.md R87: the six command words; and three illegal ones (R88). -/
def Obligations.CommandWordsDecode : Prop :=
  decode 0x00000000#32 = .ok .nop ∧ decode 0x00000001#32 = .ok .clrfreq ∧ decode 0x00000002#32 = .ok .build ∧
  decode 0x00000003#32 = .ok .gencode ∧ decode 0x00000004#32 = .ok .encode ∧ decode 0x00000005#32 = .ok .decode ∧
  decode 0x00000006#32 = .error .reservedOpcode ∧ decode 0x00000012#32 = .error .reservedBits ∧
  decode 0x80000000#32 = .error .reservedBits

/-- R88: a word is legal exactly when it is one of `0x00000000` to `0x00000005`, and a legal word is the encoding of what it
decodes to. -/
def Obligations.LegalWordsAreTheEncodings : Prop :=
  (∀ w : Word, (∃ i, decode w = .ok i) ↔ w.toNat ≤ 5) ∧
  (∀ i : Instr, i.wf = true → decode (encode i) = .ok i) ∧
  (∀ (w : Word) (i : Instr), decode w = .ok i → w = encode i)

/-- R22, R42, R44, R47: the register map with its offsets; and every register word outside the reserved ranges stands at its own
offset, and no other. -/
def Obligations.RegisterMapIsABijection : Prop :=
  (regAt 0x000#32 = some .id ∧ regAt 0x004#32 = some .ctrl ∧ regAt 0x008#32 = some .status ∧ regAt 0x00C#32 = some .cmd ∧
    regAt 0x010#32 = some .errcode ∧ regAt 0x014#32 = some .srcAddr ∧ regAt 0x018#32 = some .srcLen ∧
    regAt 0x01C#32 = some .dstAddr ∧ regAt 0x020#32 = some .dstCap ∧ regAt 0x024#32 = some .outLen ∧
    regAt 0x028#32 = some .inCount ∧ regAt 0x02C#32 = some .bitsLo ∧ regAt 0x030#32 = some .bitsHi ∧
    regAt 0x034#32 = some .alpha ∧ regAt 0x038#32 = some .totalLo ∧ regAt 0x03C#32 = some .totalHi ∧
    regAt 0x040#32 = some .tbitsLo ∧ regAt 0x044#32 = some .tbitsHi ∧ regAt 0x048#32 = some .root ∧
    regAt 0x04C#32 = some .nodeCount ∧ regAt 0x050#32 = some .errAddr) ∧
  (∀ s : Byte, regAt (BitVec.ofNat 32 (0x400 + 4 * s.toNat)) = some (.freq s)) ∧
  (∀ (i : NodeIdx) (w : BitVec 2), regAt (BitVec.ofNat 32 (0x2000 + 16 * i.toNat + 4 * w.toNat)) = some (.nodeWord i w)) ∧
  (∀ (x : Byte) (w : BitVec 4), regAt (BitVec.ofNat 32 (0x4000 + 64 * x.toNat + 4 * w.toNat)) = some (.codeWord x w)) ∧
  (∀ r : Reg, r ≠ .reserved → regAt (regOffset r) = some r) ∧
  (∀ (off : Word) (r : Reg), regAt off = some r → r ≠ .reserved → off = regOffset r)

/-- R41: reserved words read 0, ignore writes, and are no error, in every state, BUSY or idle; those inside the two windows too
(93_implementation_defined.md row 23, which the model follows where 10_state.md R57 names the windows whole: log 8). -/
def Obligations.ReservedWordsReadZero : Prop :=
  (∀ off : Word, off.toNat % 4 = 0 →
    (0x054 ≤ off.toNat ∧ off.toNat < 0x400) ∨ (0x800 ≤ off.toNat ∧ off.toNat < 0x2000) → regAt off = some .reserved) ∧
  (∀ s v, readReg s .reserved = 0#32 ∧ writeReg s .reserved v = s) ∧
  (∀ s i v, regAt (regOffset (.nodeWord i 3#2)) = some (.nodeWord i 3#2) ∧
    readReg s (.nodeWord i 3#2) = 0#32 ∧ writeReg s (.nodeWord i 3#2) v = s) ∧
  (∀ s x (w : BitVec 4) v, 9 ≤ w.toNat → regAt (regOffset (.codeWord x w)) = some (.codeWord x w) ∧
    readReg s (.codeWord x w) = 0#32 ∧ writeReg s (.codeWord x w) v = s)

/-- From 20_memory.md R65: an access that is not 32-bit, is misaligned, or lies at or beyond 0x8000 gets an error response and has
no effect on the block; every other access is answered. That the error response is recorded and the host goes on is the model's
choice (log 15): R65 has a model treat the access as a host-side fault. -/
def Obligations.BadAccessGetsErrorAndNoEffect : Prop :=
  ∀ (size : Nat) (off data : Word) (s : State),
    (size ≠ 4 ∨ off.toNat % 4 ≠ 0 ∨ 0x8000 ≤ off.toNat →
      hostAct (.write size off data) s = .next { s with responses := .busError :: s.responses } ∧
      hostAct (.read size off) s = .next { s with responses := .busError :: s.responses }) ∧
    (size = 4 ∧ off.toNat % 4 = 0 ∧ off.toNat < 0x8000 →
      ∃ r, regAt off = some r ∧
        hostAct (.write size off data) s = .next (writeReg s r data) ∧
        hostAct (.read size off) s = .next { s with responses := .word (readReg s r) :: s.responses })

/-! ### A step -/

/-- 40_control_and_frequency.md R100: when an accepted command is due, or the host has nothing to do, the step runs exactly the
command its word decodes to; beside it only the model's counter moves. `withFetchWord` puts a command there. -/
def Obligations.StepRunsTheDecodedCommand : Prop :=
  (∀ (s : State) (r : Running) (i : Instr), s.engine = some r →
    r.phase = .due 0 ∨ (∃ d, r.phase = .due (d + 1) ∧ s.script = []) →
    decode r.word = .ok i → step s = exec i { s with tick := s.tick + 1 }) ∧
  (∀ (s : State) (i : Instr),
    step (s.withFetchWord 32 (encode i).toNat) =
      exec i { s with
        done := false
        errcode := 0#8
        engine := some { word := encode i, phase := .due 0, raced := [] }
        tick := s.tick + 1 })

/-- From 40_control_and_frequency.md R110: an accepted illegal word completes with `ERRCODE = 0x03` and changes nothing else. When
it completes (its delay is over, or the host has nothing to do) is the model's choice (log 2). -/
def Obligations.IllegalWordRaisesIllegalCmd : Prop :=
  ∀ (s : State) (r : Running), s.engine = some r →
    r.phase = .due 0 ∨ (∃ d, r.phase = .due (d + 1) ∧ s.script = []) → 5 < r.word.toNat →
    step s = .next { s with engine := none, done := true, errcode := 0x03#8, tick := s.tick + 1 }

/-- 10_state.md R21, 00_scope.md R8: while no command is due, a step is the host's next action; an idle block with no host action
does nothing; a pending command's delay counts the host's actions (the model's account of 70_reset_and_hazards.md R248, log 2). -/
def Obligations.HostActsUntilTheCommandIsDue : Prop :=
  (∀ s : State, s.engine = none → s.script = [] → step s = .next { s with tick := s.tick + 1 }) ∧
  (∀ (s : State) a rest, s.engine = none → s.script = a :: rest →
    step s = hostAct a { s with script := rest, tick := s.tick + 1 }) ∧
  (∀ (s : State) r d a rest, s.engine = some r → r.phase = .due (d + 1) → s.script = a :: rest →
    step s = hostAct a { s with script := rest, tick := s.tick + 1, engine := some { r with phase := .due d } }) ∧
  (∀ (s : State) r a rest, s.engine = some r → r.phase = .hung → s.script = a :: rest →
    step s = hostAct a { s with script := rest, tick := s.tick + 1 }) ∧
  (∀ (s : State) r, s.engine = some r → r.phase = .hung → s.script = [] → step s = .next { s with tick := s.tick + 1 })

/-- R100, R27: a CMD write while idle is accepted: BUSY is set, DONE and ERRCODE are cleared, and the word is the running
command's. The delay it gets is the model's (log 2). -/
def Obligations.CmdWriteWhileIdleIsAccepted : Prop :=
  ∀ (s : State) (w : Word), s.busy = false →
    hostAct (.write 4 0x00C#32 w) s = .next
      { s with
        done := false
        errcode := 0#8
        engine := some { word := w, phase := .due (s.durations.headD 0), raced := [] }
        durations := s.durations.tail }

/-- R97: `WAIT` after an accepted CMD write ends once the command completes: with the platform answering every access to the
buffers, after one poll for each host action of delay, the completion and the last poll (delays in host actions are the model's,
log 2). -/
def Obligations.WaitEndsAtCompletion : Prop :=
  ∀ (s : State) (r : Running) (d : Nat) (rest : List HostAction),
    BuffersAnswered s → s.engine = some r → r.phase = .due d → s.script = .wait :: rest →
    ∃ t, Host.Core.run Sys2Proof.core (d + 2) s = .next t ∧ t.script = rest ∧ t.busy = false ∧ t.done = true

/-! ### Register accesses -/

/-- R109, R53: while BUSY, a write to CMD, to an operand register or to a FREQ entry sets OVR and changes nothing else. -/
def Obligations.BusyWritesAreDiscarded : Prop :=
  ∀ (s : State) (r : Reg) (v : Word), s.busy = true →
    r = .cmd ∨ r = .srcAddr ∨ r = .srcLen ∨ r = .dstAddr ∨ r = .dstCap ∨ (∃ i, r = .freq i) →
    writeReg s r v = { s with ovr := true }

/-- R103: a FREQ write while idle stores the value, leaves every other entry, clears both valid flags, and changes nothing else.
-/
def Obligations.FreqWriteStoresAndInvalidates : Prop :=
  ∀ (s : State) (i : Byte) (v : Word), s.busy = false →
    ∃ f, writeReg s (.freq i) v = { s with freq := f, treeValid := false, codesValid := false } ∧
      freqAt f i = v ∧ ∀ j, j ≠ i → freqAt f j = freqAt s.freq j

/-- R105, R106, R107, R108: what a write to an operand register (while idle), to CTRL, to STATUS and to a read-only word does. -/
def Obligations.RegisterWriteEffects : Prop :=
  (∀ (s : State) v, s.busy = false →
    writeReg s .srcAddr v = { s with srcAddr := v } ∧ writeReg s .srcLen v = { s with srcLen := v } ∧
    writeReg s .dstAddr v = { s with dstAddr := v } ∧ writeReg s .dstCap v = { s with dstCap := v }) ∧
  (∀ (s : State) v, (v.getLsbD 1 = true → writeReg s .ctrl v = softReset s) ∧
    (v.getLsbD 1 = false → writeReg s .ctrl v = { s with ctrlIE := v.getLsbD 0 })) ∧
  (∀ (s : State) v, writeReg s .status v =
    { s with
      done := if v.getLsbD 1 then false else s.done
      ovr := if v.getLsbD 5 then false else s.ovr }) ∧
  (∀ (s : State) r v, r ≠ .ctrl → r ≠ .status → r ≠ .cmd → r ≠ .srcAddr → r ≠ .srcLen → r ≠ .dstAddr → r ≠ .dstCap →
    (∀ i, r ≠ .freq i) → writeReg s r v = s) ∧
  (∀ s : State, readReg s .cmd = 0#32)

/-- 20_memory.md R68: no register read has a side effect: only the host's record of answers grows. -/
def Obligations.ReadsHaveNoSideEffect : Prop :=
  ∀ (s : State) (size : Nat) (off : Word), ∃ r, hostAct (.read size off) s = .next { s with responses := r :: s.responses }

/-- 10_state.md R26: STATUS, bit by bit. While BUSY each of the two valid flags reads its value before the command or the one the
command leaves (which of them is the model's reading, log 9); so under a command that changes neither (NOP, ENCODE, DECODE) and under
an illegal word it reads its value. -/
def Obligations.StatusBits : Prop :=
  ∀ s : State,
    (statusWord s).getLsbD 0 = s.busy ∧ (statusWord s).getLsbD 1 = s.done ∧
    ((statusWord s).getLsbD 2 = true ↔ readReg s .errcode ≠ 0#32) ∧
    (s.busy = false → (statusWord s).getLsbD 3 = s.treeValid ∧ (statusWord s).getLsbD 4 = s.codesValid) ∧
    (∀ r, s.engine = some r →
      (∀ i t, decode r.word = .ok i → exec i s = .next t →
        ((statusWord s).getLsbD 3 = s.treeValid ∨ (statusWord s).getLsbD 3 = t.treeValid) ∧
        ((statusWord s).getLsbD 4 = s.codesValid ∨ (statusWord s).getLsbD 4 = t.codesValid)) ∧
      ((∀ i, decode r.word = .ok i → i = .nop ∨ i = .encode ∨ i = .decode) →
        (statusWord s).getLsbD 3 = s.treeValid ∧ (statusWord s).getLsbD 4 = s.codesValid)) ∧
    (statusWord s).getLsbD 5 = s.ovr ∧ ∀ k, 6 ≤ k → (statusWord s).getLsbD k = false

/-- R24, R25, R57, R54: ID, CTRL and the operand registers read their values, BUSY or idle; FREQ too, unless CLRFREQ is BUSY, when
it reads its value or 0 (R104); and while BUSY, STATUS.BUSY reads 1 and ERRCODE reads 0. -/
def Obligations.DefinedReadsWhileBusy : Prop :=
  ∀ s : State,
    (s.busy = true → (readReg s .status).getLsbD 0 = true ∧ readReg s .errcode = 0#32) ∧
    readReg s .id = 0x48554631#32 ∧
    readReg s .ctrl = (if s.ctrlIE then 1#32 else 0#32) ∧
    readReg s .srcAddr = s.srcAddr ∧ readReg s .srcLen = s.srcLen ∧ readReg s .dstAddr = s.dstAddr ∧
    readReg s .dstCap = s.dstCap ∧
    (∀ i, readReg s (.freq i) = freqAt s.freq i ∨
      (readReg s (.freq i) = 0#32 ∧ ∃ r, s.engine = some r ∧ r.word = 0x00000001#32)) ∧
    (s.busy = false → ∀ i, readReg s (.freq i) = freqAt s.freq i)

/-- R44, R45: the NODE window while idle: 0 without a tree or from NODE_COUNT on; else INFO as VALID, LEAF, SYM, RIGHT, LEFT, and
the two halves of the weight. -/
def Obligations.NodeWindowShowsTheArena : Prop :=
  ∀ (s : State) (i : NodeIdx) (w : BitVec 2), s.busy = false →
    (s.treeValid = false ∨ s.nodeCount.toNat ≤ i.toNat → readReg s (.nodeWord i w) = 0#32) ∧
    (s.treeValid = true → i.toNat < s.nodeCount.toNat →
      (readReg s (.nodeWord i 0#2)).toNat =
        2 ^ 31 + (if (nodeAt s.node i).leaf then 2 ^ 30 else 0) + 2 ^ 18 * (nodeAt s.node i).sym.toNat +
          2 ^ 9 * (nodeAt s.node i).right.toNat + (nodeAt s.node i).left.toNat ∧
      (readReg s (.nodeWord i 2#2)).toNat * 2 ^ 32 + (readReg s (.nodeWord i 1#2)).toNat =
        (nodeAt s.node i).weight.toNat)

/-- R47, R48: the CODE window while idle: 0 without codes; else INFO as VALID and LEN, and code position `k` at bit
`31 - (k mod 32)` of word BITS `k / 32`. -/
def Obligations.CodeWindowShowsTheTable : Prop :=
  ∀ (s : State) (x : Byte), s.busy = false →
    (s.codesValid = false → ∀ w, readReg s (.codeWord x w) = 0#32) ∧
    (s.codesValid = true →
      (readReg s (.codeWord x 0#4)).toNat =
        (if (codeAt s.code x).len.toNat = 0 then 0 else 2 ^ 31) + (codeAt s.code x).len.toNat ∧
      ∀ k, k < 256 →
        (readReg s (.codeWord x (BitVec.ofNat 4 (1 + k / 32)))).getLsbD (31 - k % 32) =
          (codeAt s.code x).bits.getMsbD k)

/-- R28, R33 to R40, R59: while idle the result registers read their values, a 64-bit one low word first. -/
def Obligations.ResultRegistersRead : Prop :=
  ∀ s : State, s.busy = false →
    (readReg s .errcode).toNat = s.errcode.toNat ∧ readReg s .outLen = s.outLen ∧ readReg s .inCount = s.inCount ∧
    readReg s .errAddr = s.errAddr ∧ (readReg s .alpha).toNat = s.alpha.toNat ∧ (readReg s .root).toNat = s.root.toNat ∧
    (readReg s .nodeCount).toNat = s.nodeCount.toNat ∧
    (readReg s .bitsHi).toNat * 2 ^ 32 + (readReg s .bitsLo).toNat = s.bits.toNat ∧
    (readReg s .totalHi).toNat * 2 ^ 32 + (readReg s .totalLo).toNat = s.total.toNat ∧
    (readReg s .tbitsHi).toNat * 2 ^ 32 + (readReg s .tbitsLo).toNat = s.tbits.toNat

/-- 60_exceptions.md R214: when `irq` rises and falls; OVR never affects it. -/
def Obligations.InterruptRisesAndFalls : Prop :=
  ∀ (s : State) (e : ErrCode) (v w : Word),
    (finish s).irq = s.ctrlIE ∧ (raiseError e s).irq = s.ctrlIE ∧ (acceptCommand w s).irq = false ∧
    (v.getLsbD 1 = false → v.getLsbD 0 = true → (writeReg s .ctrl v).irq = s.done) ∧
    (v.getLsbD 1 = false → v.getLsbD 0 = false → (writeReg s .ctrl v).irq = false) ∧
    (v.getLsbD 1 = true → (writeReg s .status v).irq = false) ∧
    (v.getLsbD 1 = false → (writeReg s .status v).irq = s.irq) ∧
    (softReset s).irq = false ∧ (∀ b, ({ s with ovr := b } : State).irq = s.irq)

/-! ### Reset -/

/-- R58: what reset leaves, register by register. (The arena, the table and the fields around the block are the model's, log 2 to
5, 7 and 16, and are not stated here.) -/
def Obligations.ResetLeavesTheStatedValues : Prop :=
  readReg State.reset .id = 0x48554631#32 ∧ readReg State.reset .ctrl = 0#32 ∧ readReg State.reset .status = 0#32 ∧
  readReg State.reset .errcode = 0#32 ∧
  (∀ r ∈ [Reg.srcAddr, .srcLen, .dstAddr, .dstCap, .outLen, .inCount, .bitsLo, .bitsHi, .errAddr, .alpha, .totalLo,
    .totalHi, .tbitsLo, .tbitsHi, .nodeCount], readReg State.reset r = 0#32) ∧
  readReg State.reset .root = 0x1FF#32 ∧ (∀ i, readReg State.reset (.freq i) = 0#32) ∧
  (∀ i w, readReg State.reset (.nodeWord i w) = 0#32) ∧ (∀ i w, readReg State.reset (.codeWord i w) = 0#32) ∧
  State.reset.engine = none ∧ State.reset.irq = false

/-- From 70_reset_and_hazards.md R236: a soft reset (CTRL.SRST, or the reset input) puts every register of the block at its
reset value (the arena and the table at the model's, log 5), idle or BUSY, whatever else the CTRL word holds, and while no
ENCODE or DECODE runs leaves data memory as it is. Power-on is such a reset (60_exceptions.md R223), with data memory at any
value: nothing in it survives the power-off (93 row 19). What stands around the block stays through all three: the model's choice (log 27). -/
def Obligations.SoftResetAppliesResetValues : Prop :=
  (∀ s : State, ∃ m, m.wf = true ∧
    hostAct .powerCycle s = .next
      { State.reset with
        mem := m
        platform := s.platform
        script := s.script
        responses := s.responses
        durations := s.durations
        tick := s.tick }) ∧
  ∀ (s : State) (v : Word), v.getLsbD 1 = true →
    ∃ m, writeReg s .ctrl v =
        { State.reset with
          mem := m
          platform := s.platform
          script := s.script
          responses := s.responses
          durations := s.durations
          tick := s.tick } ∧
      hostAct .resetInput s = .next (writeReg s .ctrl v) ∧
      (codecRunning s = false → m = s.mem)

/-- From R237 (93 row 11): an abort records no outcome and writes no byte outside the destination range; and no byte that the
running command would not have written: where the command, left to itself, would complete with `OUT_LEN` bytes written, every byte
behind them is unchanged too; and where it would not, every byte behind those it writes with every access answered (a source byte
the platform does not answer being any value, `answeredState`; log 11). -/
def Obligations.AbortWritesOnlyTheDestination : Prop :=
  ∀ s : State,
    ((softReset s).engine = none ∧ (softReset s).done = false ∧ (softReset s).errcode = 0#8 ∧ (softReset s).irq = false ∧
      ∀ a, ¬ inSpan s.dstAddr s.dstCap.toNat a → (softReset s).mem.read a = s.mem.read a) ∧
    (∀ (r : Running) (i : Instr) (t : State), s.engine = some r → decode r.word = .ok i → exec i s = .next t →
      t.engine = none → i = .encode ∨ i = .decode →
      ∀ a, ¬ inSpan s.dstAddr t.outLen.toNat a → (softReset s).mem.read a = s.mem.read a) ∧
    (∀ (r : Running) (i : Instr), s.engine = some r → decode r.word = .ok i → i = .encode ∨ i = .decode →
      ∃ t, exec i (answeredState s) = .next t ∧ t.engine = none ∧
        ∀ a, ¬ inSpan s.dstAddr t.outLen.toNat a → (softReset s).mem.read a = s.mem.read a) ∧
    (codecRunning s = false → (softReset s).mem = s.mem)

/-! ### NOP and CLRFREQ -/

/-- R101: NOP finishes and changes no other state. -/
def Obligations.NopOnlyFinishes : Prop :=
  ∀ s : State, exec .nop s = .next { s with engine := none, done := true, errcode := 0#8 }

/-- R102: CLRFREQ empties the table, clears both valid flags, finishes, and changes nothing else. -/
def Obligations.ClrfreqEmptiesTheTable : Prop :=
  ∀ s : State, ∃ f,
    exec .clrfreq s = .next
      { s with
        freq := f
        treeValid := false
        codesValid := false
        engine := none
        done := true
        errcode := 0#8 } ∧
    ∀ i, freqAt f i = 0#32

/-! ### BUILD -/

/-- R122: BUILD of an empty table raises EMPTY_INPUT, with the result registers of "no tree", and changes nothing else. -/
def Obligations.BuildOfEmptyTableRaises : Prop :=
  ∀ s : State, (∀ i, freqAt s.freq i = 0#32) →
    exec .build s = .next
      { s with
        alpha := 0#9
        total := 0#64
        root := NIL
        nodeCount := 0#10
        treeValid := false
        codesValid := false
        tbits := 0#64
        engine := none
        done := true
        errcode := 0x01#8 }

/-- R127 (with the counts of R126 and, on success, the flags of R128): BUILD of any other table completes, with `n` the number
of non-zero entries: ALPHA, TOTAL, NODE_COUNT and ROOT, TBITS = 0, TREE_VALID set and CODES_VALID cleared; only these and the
arena change. -/
def Obligations.BuildCompletes : Prop :=
  ∀ s : State, (∃ i, freqAt s.freq i ≠ 0#32) →
    let n := (allSymbols.filter (fun x => !(freqAt s.freq x == 0#32))).length
    ∃ a tot rt cnt nodes,
      exec .build s = .next
        { s with
          alpha := a
          total := tot
          root := rt
          nodeCount := cnt
          node := nodes
          treeValid := true
          codesValid := false
          tbits := 0#64
          engine := none
          done := true
          errcode := 0#8 } ∧
      a.toNat = n ∧ tot.toNat = (allSymbols.map (fun x => (freqAt s.freq x).toNat)).sum ∧
      (n = 1 → cnt.toNat = 2 ∧ rt.toNat = 1) ∧
      (2 ≤ n → cnt.toNat = 2 * n - 1 ∧ rt.toNat = 2 * n - 2)

/-- R123 (and the node R125 makes): a merge removes the two live keys that are least under `(weight, index)`, appends their
parent with the lesser as left child and the weights' sum, and inserts it with the next free index; it takes place exactly while
two are live (R126). And the arena BUILD leaves is made of such merges: its first `n` nodes are the leaves of the table in
ascending symbol order (R121), and each node behind them joins the two least of the nodes then live. -/
def Obligations.MergeTakesTheTwoLeast : Prop :=
  (∀ g : Growth, mergeOnce g = none ↔ g.live.length < 2) ∧
  (∀ g g' : Growth, mergeOnce g = some g' →
    ∃ a b rest,
      g.live.Perm (a :: b :: rest) ∧
      (∀ k ∈ b :: rest, k.lt a = false) ∧ (∀ k ∈ rest, k.lt b = false) ∧
      g'.nodes = g.nodes ++
        [{ leaf := false, sym := 0#8, left := BitVec.ofNat 9 a.index, right := BitVec.ofNat 9 b.index,
           weight := a.weight + b.weight }] ∧
      g'.live.Perm ({ weight := a.weight + b.weight, index := g.nodes.length } :: rest)) ∧
  (∀ s : State,
    let present := allSymbols.filter (fun x => !(freqAt s.freq x == 0#32))
    let n := present.length
    2 ≤ n →
    ∃ t, exec .build s = .next t ∧ t.nodeCount.toNat = 2 * n - 1 ∧
      (∀ k, k < n → nodeAt t.node (BitVec.ofNat 9 k) =
        { leaf := true, sym := present.getD k 0#8, left := NIL, right := NIL,
          weight := (freqAt s.freq (present.getD k 0#8)).setWidth 64 }) ∧
      ∀ m, n ≤ m → m < t.nodeCount.toNat →
        ∃ a b : Nat, LiveBefore t n m a ∧ LiveBefore t n m b ∧ LowerKey t a b ∧
          (∀ k, LiveBefore t n m k → k ≠ a → k ≠ b → LowerKey t b k) ∧
          nodeAt t.node (BitVec.ofNat 9 m) =
            { leaf := false, sym := 0#8, left := BitVec.ofNat 9 a, right := BitVec.ofNat 9 b,
              weight := (nodeAt t.node (BitVec.ofNat 9 a)).weight + (nodeAt t.node (BitVec.ofNat 9 b)).weight })

/-- From R124: the single-symbol wrap: one leaf at index 0, the internal node with no right child at index 1. -/
def Obligations.SingleSymbolIsWrapped : Prop :=
  ∀ (s : State) (x : Byte), freqAt s.freq x ≠ 0#32 → (∀ y, y ≠ x → freqAt s.freq y = 0#32) →
    ∃ t, exec .build s = .next t ∧ t.errcode = 0#8 ∧ t.root = 1#9 ∧ t.nodeCount = 2#10 ∧ t.treeValid = true ∧
      nodeAt t.node 0#9 =
        { leaf := true, sym := x, left := NIL, right := NIL, weight := (freqAt s.freq x).setWidth 64 } ∧
      nodeAt t.node 1#9 =
        { leaf := false, sym := 0#8, left := 0#9, right := NIL, weight := (freqAt s.freq x).setWidth 64 }

/-- From R49: a BUILD that succeeds leaves the tree of the table. -/
def Obligations.BuildMakesTheTree : Prop :=
  ∀ s : State, (∃ i, freqAt s.freq i ≠ 0#32) →
    ∃ t shape, exec .build s = .next t ∧ t.treeValid = true ∧ IsTree t shape ∧
      (nodeAt t.node t.root).weight = t.total

/-- R131: the arena BUILD produces is a function of the 256 frequencies alone. -/
def Obligations.BuildDependsOnFrequenciesOnly : Prop :=
  ∀ s s' : State, (∀ i, freqAt s.freq i = freqAt s'.freq i) →
    ∃ t t', exec .build s = .next t ∧ exec .build s' = .next t' ∧
      t.errcode = t'.errcode ∧ t.alpha = t'.alpha ∧ t.total = t'.total ∧ t.root = t'.root ∧ t.nodeCount = t'.nodeCount ∧
      t.treeValid = t'.treeValid ∧ ∀ i : NodeIdx, i.toNat < t.nodeCount.toNat → nodeAt t.node i = nodeAt t'.node i

/-! ### GENCODE -/

/-- R135: GENCODE without a tree raises NO_TREE and changes nothing else. -/
def Obligations.GencodeWithoutTreeRaises : Prop :=
  ∀ s : State, s.treeValid = false →
    exec .gencode s = .next { s with engine := none, done := true, errcode := 0x04#8 }

/-- From R135: GENCODE with a tree completes: it writes the code table and TBITS, sets CODES_VALID, and changes nothing else. -/
def Obligations.GencodeCompletes : Prop :=
  ∀ s : State, s.treeValid = true →
    ∃ c n,
      exec .gencode s = .next
        { s with code := c, tbits := n, codesValid := true, engine := none, done := true, errcode := 0#8 }

/-- From R136, R137, R138, R142: on the tree of the state, the codes are the paths from the root, of 1 to 255 bits, stored
left-aligned, symbols without a leaf have none, and TBITS is `Σ_s FREQ[s] * CODE[s].len`, below 2^48. -/
def Obligations.GencodeAssignsThePaths : Prop :=
  ∀ (s : State) (shape : Shape), s.treeValid = true → IsTree s shape →
    ∃ t, exec .gencode s = .next t ∧ t.codesValid = true ∧ IsTree t shape ∧ IsCodeTable t shape ∧
      t.tbits.toNat = weightedLength t ∧ t.tbits.toNat < 2 ^ 48

/-- R141 (and R50 item 1): with valid codes (in a state that keeps the invariant), a symbol has a code exactly when its
frequency is not 0, and no code is a beginning of another. -/
def Obligations.CodesFormAPrefixCode : Prop :=
  ∀ s : State, CodesOk s → s.codesValid = true →
    (∀ x, 1 ≤ (codeAt s.code x).len.toNat ↔ freqAt s.freq x ≠ 0#32) ∧
    (∀ x y, x ≠ y → freqAt s.freq x ≠ 0#32 → freqAt s.freq y ≠ 0#32 →
      ¬ (codeString (codeAt s.code x)).isPrefixOf (codeString (codeAt s.code y)) = true)

/-! ### ENCODE and DECODE -/

/-- 60_exceptions.md R208: the prechecks of ENCODE and DECODE in their order, each leaving the result registers and ERRADDR at 0
(43_encoder.md R156, 44_decoder.md R174, R167) and memory untouched; and ENCODE or DECODE completes with one of their codes only
where that precheck is the first that fails. -/
def Obligations.PrecheckErrorsInOrder : Prop :=
  ∀ s : State,
    let failed (e : BitVec 8) : State :=
      { s with
        outLen := 0#32
        inCount := 0#32
        bits := 0#64
        errAddr := 0#32
        errcode := e
        engine := none
        done := true }
    let wraps := ¬ (s.srcAddr.toNat + s.srcLen.toNat ≤ 2 ^ 32 ∧ s.dstAddr.toNat + s.dstCap.toNat ≤ 2 ^ 32)
    let meet := 0 < s.srcLen.toNat ∧ 0 < s.dstCap.toNat ∧ s.srcAddr.toNat < s.dstAddr.toNat + s.dstCap.toNat ∧
      s.dstAddr.toNat < s.srcAddr.toNat + s.srcLen.toNat
    (∀ i, i = .encode ∨ i = .decode →
      (s.codesValid = false → exec i s = .next (failed 0x05#8)) ∧
      (s.codesValid = true → wraps → exec i s = .next (failed 0x0B#8)) ∧
      (s.codesValid = true → ¬ wraps → meet → exec i s = .next (failed 0x0C#8))) ∧
    (s.codesValid = true → ¬ wraps → ¬ meet → s.srcLen.toNat < ceilDiv s.tbits.toNat 8 →
      exec .decode s = .next (failed 0x02#8)) ∧
    (∀ i t, i = .encode ∨ i = .decode → exec i s = .next t → t.engine = none →
      (t.errcode = 0x05#8 → s.codesValid = false) ∧
      (t.errcode = 0x0B#8 → s.codesValid = true ∧ wraps) ∧
      (t.errcode = 0x0C#8 → s.codesValid = true ∧ ¬ wraps ∧ meet) ∧
      (t.errcode = 0x02#8 → i = .decode ∧ s.codesValid = true ∧ ¬ wraps ∧ ¬ meet ∧
        s.srcLen.toNat < ceilDiv s.tbits.toNat 8))

/-- From R150, R152, R153, R156: ENCODE completes on every source whose bytes have codes, given room for the output and a
platform that completes the reads of the source and the writes of the output: all source bytes are consumed, BITS is the sum of
their code lengths, OUT_LEN is `ceil_div(BITS, 8)`, stream bit `j` of the output is the `j`-th bit of the codes in order (R152),
the padding is 0 (R153), every byte outside the output is as it was, and nothing else changes. -/
def Obligations.EncodePacksTheCodes : Prop :=
  ∀ s : State, MemoryOk s → NoRace s → s.codesValid = true →
    ReadsComplete s s.srcAddr s.srcLen.toNat →
    WritesComplete s s.dstAddr (ceilDiv (codeStream s (sourceBytes s)).length 8) →
    inRange s.srcAddr s.srcLen = true → inRange s.dstAddr s.dstCap = true →
    overlaps s.srcAddr s.srcLen s.dstAddr s.dstCap = false →
    (∀ b ∈ sourceBytes s, (codeAt s.code b).len ≠ 0#8) →
    ceilDiv (codeStream s (sourceBytes s)).length 8 ≤ s.dstCap.toNat →
    ∃ m out n,
      exec .encode s = .next
        { s with
          mem := m
          outLen := out
          inCount := s.srcLen
          bits := n
          errAddr := 0#32
          engine := none
          done := true
          errcode := 0#8 } ∧
      n.toNat = (codeStream s (sourceBytes s)).length ∧ out.toNat = ceilDiv n.toNat 8 ∧
      (∀ j, j < n.toNat →
        bitOf (m.readList s.dstAddr.toNat out.toNat) j = (codeStream s (sourceBytes s)).getD j false) ∧
      (∀ j, n.toNat ≤ j → j < 8 * out.toNat → bitOf (m.readList s.dstAddr.toNat out.toNat) j = false) ∧
      (∀ a, ¬ inSpan s.dstAddr out.toNat a → m.read a = s.mem.read a)

/-- From R157 (and the range check of R71, which comes first): ENCODE of an empty source finishes without error, reads nothing
and writes nothing, whatever the platform answers. -/
def Obligations.EncodeOfEmptySourceFinishes : Prop :=
  ∀ s : State, s.codesValid = true → s.srcLen = 0#32 → inRange s.dstAddr s.dstCap = true →
    exec .encode s = .next
      { s with
        outLen := 0#32
        inCount := 0#32
        bits := 0#64
        errAddr := 0#32
        engine := none
        done := true
        errcode := 0#8 }

/-- From R154, R155, R156, R208, R210: what the result registers say of every completion of ENCODE that met no race: IN_COUNT source
bytes were consumed, each has a code, BITS is the number of their code bits, and these, filled up with zeros, are the OUT_LEN bytes
written. A source byte is read only when the whole bytes of the codes before it are written: those of all consumed bytes but the last
are, and at a read that is refused and at a byte without a code those of all of them. On success all source bytes were consumed and
OUT_LEN is `ceil_div(BITS, 8)`; a byte without a code is the one at IN_COUNT; where output runs out OUT_LEN is DST_CAP, and there and
at a refused write one more byte is due: eight more bits, or fewer at the end of the source. -/
def Obligations.EncodeErrorPoints : Prop :=
  ∀ s t : State, NoRace s → exec .encode s = .next t → t.engine = none →
    let x := s.mem.readList s.srcAddr.toNat t.inCount.toNat
    (∀ b ∈ x, (codeAt s.code b).len ≠ 0#8) ∧ t.bits.toNat = (codeStream s x).length ∧
    (MemoryOk s → ∀ j, j < 8 * t.outLen.toNat →
      bitOf (t.mem.readList s.dstAddr.toNat t.outLen.toNat) j = (codeStream s x).getD j false) ∧
    (codeStream s x.dropLast).length / 8 ≤ t.outLen.toNat ∧
    (t.errcode = 0x00#8 → t.inCount = s.srcLen ∧ t.outLen.toNat = ceilDiv t.bits.toNat 8) ∧
    (t.errcode = 0x0D#8 → inBuffer s.srcAddr s.srcLen t.errAddr = true → t.outLen.toNat = t.bits.toNat / 8) ∧
    (t.errcode = 0x06#8 → t.inCount.toNat < s.srcLen.toNat ∧ t.outLen.toNat = t.bits.toNat / 8 ∧
      (codeAt s.code (s.mem.read (s.srcAddr.toNat + t.inCount.toNat))).len = 0#8) ∧
    (t.errcode = 0x07#8 → t.outLen = s.dstCap) ∧
    (t.errcode = 0x07#8 ∨ (t.errcode = 0x0D#8 ∧ inBuffer s.dstAddr s.dstCap t.errAddr = true) →
      8 * t.outLen.toNat < t.bits.toNat ∧ (t.bits.toNat < 8 * (t.outLen.toNat + 1) → t.inCount = s.srcLen))

/-- From R165, R168, R169, R174: DECODE completes on every stream that is the codes of a symbol sequence `x` of the declared
count, where the platform completes the reads of those codes and the writes of `x`: it writes exactly `x`, with `OUT_LEN = TOTAL`,
`BITS = TBITS`, `IN_COUNT = ceil_div(TBITS, 8)`; every byte outside is as it was, and nothing else changes. The premise on tree and
codes is the invariant `CodesOk`. -/
def Obligations.DecodeReadsTheCodes : Prop :=
  ∀ (s : State) (x : List Byte), MemoryOk s → CodesOk s → NoRace s → s.codesValid = true →
    ReadsComplete s s.srcAddr (ceilDiv s.tbits.toNat 8) → WritesComplete s s.dstAddr x.length →
    inRange s.srcAddr s.srcLen = true → inRange s.dstAddr s.dstCap = true →
    overlaps s.srcAddr s.srcLen s.dstAddr s.dstCap = false →
    (∀ b ∈ x, freqAt s.freq b ≠ 0#32) → x.length = s.total.toNat → x.length ≤ s.dstCap.toNat →
    (codeStream s x).length = s.tbits.toNat → ceilDiv s.tbits.toNat 8 ≤ s.srcLen.toNat →
    (∀ j, j < s.tbits.toNat → bitOf (sourceBytes s) j = (codeStream s x).getD j false) →
    ∃ m out inc,
      exec .decode s = .next
        { s with
          mem := m
          outLen := out
          inCount := inc
          bits := s.tbits
          errAddr := 0#32
          engine := none
          done := true
          errcode := 0#8 } ∧
      out.toNat = s.total.toNat ∧ inc.toNat = ceilDiv s.tbits.toNat 8 ∧
      m.readList s.dstAddr.toNat x.length = x ∧
      (∀ a, ¬ inSpan s.dstAddr out.toNat a → m.read a = s.mem.read a)

/-- From R170 to R174, R208, R210: where each stream error of DECODE stands, a refused read at the first bit of a byte and, at a full
destination and a refused write, the bit that reached the leaf not counted; ABSENT_CHILD, in a state with the tree of R49, exactly when the
table has one symbol and a bit within the first TBITS is 1 (R170). And what was read on every completion (in a state that keeps
the invariants, with no race): the first BITS bits of the source are the codes of the bytes written, and then a beginning `p` of one
more code, which is empty on success: a stream that decodes without error is the codes of what was written. At a full destination
and a refused write exactly one bit of that code is missing, and it is the stream bit at BITS (R171). -/
def Obligations.DecodeErrorPoints : Prop :=
  (∀ s t : State, exec .decode s = .next t → t.engine = none →
    (t.errcode = 0x07#8 → t.outLen = s.dstCap ∧ t.bits.toNat < s.tbits.toNat) ∧
    (t.errcode = 0x08#8 → TreeOk s → s.treeValid = true → t.bits.toNat < s.tbits.toNat ∧
      (NoRace s → bitOf (sourceBytes s) t.bits.toNat = true) ∧
      ∃ x, freqAt s.freq x ≠ 0#32 ∧ ∀ y, y ≠ x → freqAt s.freq y = 0#32) ∧
    (t.errcode = 0x0D#8 → inBuffer s.srcAddr s.srcLen t.errAddr = true → t.bits.toNat < s.tbits.toNat ∧ t.bits.toNat % 8 = 0) ∧
    (t.errcode = 0x09#8 → t.bits = s.tbits) ∧
    (t.errcode = 0x0A#8 → t.bits = s.tbits ∧ t.outLen.toNat ≠ s.total.toNat) ∧
    (t.errcode = 0x00#8 → t.bits = s.tbits ∧ t.outLen.toNat = s.total.toNat) ∧
    (MemoryOk s → CodesOk s → NoRace s → s.codesValid = true →
      let y := t.mem.readList s.dstAddr.toNat t.outLen.toNat
      (∀ b ∈ y, freqAt s.freq b ≠ 0#32) ∧
      ∃ (p q : List Bool) (b : Byte), freqAt s.freq b ≠ 0#32 ∧ codeString (codeAt s.code b) = p ++ q ∧ q ≠ [] ∧
        t.bits.toNat = (codeStream s y ++ p).length ∧
        (∀ j, j < t.bits.toNat → bitOf (sourceBytes s) j = (codeStream s y ++ p).getD j false) ∧
        (t.errcode = 0x00#8 → p = []) ∧ (t.errcode = 0x09#8 → p ≠ []) ∧ (t.errcode = 0x0A#8 → p = []) ∧
        (t.errcode = 0x07#8 ∨ (t.errcode = 0x0D#8 ∧ inBuffer s.dstAddr s.dstCap t.errAddr = true) →
          t.bits.toNat < s.tbits.toNat ∧ q = [bitOf (sourceBytes s) t.bits.toNat]))) ∧
  (∀ (s : State) (x : Byte) (j : Nat), CodesOk s → NoRace s → s.codesValid = true →
    inRange s.srcAddr s.srcLen = true → inRange s.dstAddr s.dstCap = true →
    overlaps s.srcAddr s.srcLen s.dstAddr s.dstCap = false → ceilDiv s.tbits.toNat 8 ≤ s.srcLen.toNat →
    freqAt s.freq x ≠ 0#32 → (∀ y, y ≠ x → freqAt s.freq y = 0#32) →
    j < s.tbits.toNat → bitOf (sourceBytes s) j = true → (∀ i, i < j → bitOf (sourceBytes s) i = false) →
    j ≤ s.dstCap.toNat → ReadsComplete s s.srcAddr (j / 8 + 1) → WritesComplete s s.dstAddr j →
    ∃ t, exec .decode s = .next t ∧ t.engine = none ∧ t.done = true ∧ t.errcode = 0x08#8 ∧ t.bits.toNat = j ∧
      t.outLen.toNat = j)

/-- From R175: the pad bits and the bytes behind them have no effect: two memories that agree on the first TBITS bits of the
source give the same registers and the same output bytes. -/
def Obligations.DecodeIgnoresPadAndTrailingBytes : Prop :=
  ∀ (s t : State) (m' : Memory), MemoryOk s → m'.wf = true → NoRace s →
    (∀ j, j < s.tbits.toNat →
      streamBit (s.mem.read (s.srcAddr.toNat + j / 8)) j = streamBit (m'.read (s.srcAddr.toNat + j / 8)) j) →
    exec .decode s = .next t →
    ∃ n', exec .decode { s with mem := m' } = .next { t with mem := n' } ∧
      (t.engine = none → ∀ a, inSpan s.dstAddr t.outLen.toNat a → n'.read a = t.mem.read a)

/-- R82, R33: what ENCODE and DECODE change, on every completion, error or not: the memory bytes
`DST_ADDR .. DST_ADDR + OUT_LEN - 1` only, OUT_LEN never above DST_CAP, and beside these only IN_COUNT, BITS, ERRADDR, ERRCODE and
the engine's flags. A command that is never answered has changed memory inside the destination range at most, and nothing else. -/
def Obligations.CodecFrame : Prop :=
  ∀ (s t : State) (i : Instr), i = .encode ∨ i = .decode → exec i s = .next t →
    t = { s with
      mem := t.mem
      outLen := t.outLen
      inCount := t.inCount
      bits := t.bits
      errAddr := t.errAddr
      errcode := t.errcode
      engine := t.engine
      done := t.done } ∧
    (t.engine = none → t.done = true ∧ t.outLen.toNat ≤ s.dstCap.toNat ∧
      ∀ a, ¬ inSpan s.dstAddr t.outLen.toNat a → t.mem.read a = s.mem.read a) ∧
    (t.engine ≠ none → t = { s with mem := t.mem, engine := t.engine } ∧
      ∀ a, ¬ inSpan s.dstAddr s.dstCap.toNat a → t.mem.read a = s.mem.read a)

/-- From R14, R209, R210: BUS_ERROR records the address of a refused access, which the result registers locate; any other
completion of ENCODE or DECODE leaves ERRADDR = 0. No refused access passes: wherever either command completes, each source byte
consumed was read and each byte counted was written by an access that the platform completed; where the first access that does not
complete, a read or a write, is refused, the command ends there with BUS_ERROR, as on a platform that refuses that address alone;
and a source whose first byte is refused raises BUS_ERROR with nothing done. -/
def Obligations.BusErrorRecordsTheAddress : Prop :=
  (∀ (s t : State) (i : Instr), i = .encode ∨ i = .decode → exec i s = .next t → t.engine = none →
    ReadsComplete s s.srcAddr t.inCount.toNat ∧ WritesComplete s s.dstAddr t.outLen.toNat ∧
    (t.errcode ≠ 0x0D#8 → t.errAddr = 0#32) ∧
    (t.errcode = 0x0D#8 →
      (i = .encode ∧ t.errAddr = s.srcAddr + t.inCount ∧ t.inCount.toNat < s.srcLen.toNat ∧
        readAnswer s t.errAddr = .refuses) ∨
      (i = .decode ∧ t.errAddr = s.srcAddr + BitVec.ofNat 32 (t.bits.toNat / 8) ∧ t.bits.toNat < s.tbits.toNat ∧
        readAnswer s t.errAddr = .refuses) ∨
      (t.errAddr = s.dstAddr + t.outLen ∧ t.outLen.toNat < s.dstCap.toNat ∧ writeAnswer s t.errAddr = .refuses))) ∧
  (∀ (i : Instr) (s u : State) (a : Word), FirstStop i s u a .refuses →
    u.errAddr = a ∧ u.engine = none ∧ u.done = true ∧ exec i s = .next { u with platform := s.platform }) ∧
  (∀ s : State, s.codesValid = true → inRange s.srcAddr s.srcLen = true → inRange s.dstAddr s.dstCap = true →
    overlaps s.srcAddr s.srcLen s.dstAddr s.dstCap = false → readAnswer s s.srcAddr = .refuses →
    let refused : State :=
      { s with
        outLen := 0#32
        inCount := 0#32
        bits := 0#64
        errAddr := s.srcAddr
        errcode := 0x0D#8
        engine := none
        done := true }
    (0 < s.srcLen.toNat → exec .encode s = .next refused) ∧
    (0 < s.tbits.toNat → ceilDiv s.tbits.toNat 8 ≤ s.srcLen.toNat → exec .decode s = .next refused))

/-! ### All commands -/

/-- From R206, R207: which error codes each command can leave. -/
def Obligations.ErrorCodesOfEachCommand : Prop :=
  ∀ (s t : State) (i : Instr), exec i s = .next t → t.engine = none →
    (i = .nop ∨ i = .clrfreq → t.errcode = 0#8) ∧
    (i = .build → t.errcode ∈ [0x00#8, 0x01#8]) ∧
    (i = .gencode → t.errcode ∈ [0x00#8, 0x04#8]) ∧
    (i = .encode → t.errcode ∈ [0x00#8, 0x05#8, 0x06#8, 0x07#8, 0x0B#8, 0x0C#8, 0x0D#8]) ∧
    (i = .decode → t.errcode ∈ [0x00#8, 0x02#8, 0x05#8, 0x07#8, 0x08#8, 0x09#8, 0x0A#8, 0x0B#8, 0x0C#8, 0x0D#8])

/-- 00_scope.md R10, 60_exceptions.md R205: with a platform that answers every access to the two buffers (completing or refusing
it), every command completes: BUSY = 0, DONE = 1. -/
def Obligations.EveryCommandCompletes : Prop :=
  ∀ (s : State) (i : Instr), BuffersAnswered s → ∃ t, exec i s = .next t ∧ t.engine = none ∧ t.done = true

/-- R248 (93 row 16): a command that does not complete waits for an access to its buffers that is never answered, and only a reset
or the loss of power ends it; where the first access that does not complete, a read or a write, is never answered, the command waits
there with what it wrote before; and a source whose first byte is never answered leaves it waiting, with nothing changed. -/
def Obligations.OnlyResetEndsAnUnansweredCommand : Prop :=
  (∀ (s t : State) (i : Instr), exec i s = .next t → t.engine ≠ none →
    t.engine = some { word := encode i, phase := .hung, raced := s.raced } ∧ (i = .encode ∨ i = .decode) ∧
    ((∃ k, k < s.srcLen.toNat ∧ readAnswer s (s.srcAddr + BitVec.ofNat 32 k) = .silent) ∨
     (∃ k, k < s.dstCap.toNat ∧ writeAnswer s (s.dstAddr + BitVec.ofNat 32 k) = .silent))) ∧
  (∀ (s t : State) (r : Running), s.engine = some r → r.phase = .hung → step s = .next t → t.engine = none →
    ∃ a rest, s.script = a :: rest ∧ (a = .resetInput ∨ a = .powerCycle ∨ ∃ v, a = .write 4 0x004#32 v ∧ v.getLsbD 1 = true)) ∧
  (∀ (i : Instr) (s u : State) (a : Word), FirstStop i s u a .silent →
    exec i s = .next { s with mem := u.mem, engine := some { word := encode i, phase := .hung, raced := s.raced } }) ∧
  (∀ s : State, s.codesValid = true → inRange s.srcAddr s.srcLen = true → inRange s.dstAddr s.dstCap = true →
    overlaps s.srcAddr s.srcLen s.dstAddr s.dstCap = false → readAnswer s s.srcAddr = .silent →
    (0 < s.srcLen.toNat → exec .encode s = .next
      { s with engine := some { word := 0x00000004#32, phase := .hung, raced := s.raced } }) ∧
    (0 < s.tbits.toNat → ceilDiv s.tbits.toNat 8 ≤ s.srcLen.toNat → exec .decode s = .next
      { s with engine := some { word := 0x00000005#32, phase := .hung, raced := s.raced } }))

/-- From R245 (93 row 15): no command faults, and a command is given no meaning only where ENCODE or DECODE would touch an address
of its buffers that is not ordinary memory; where the first access that does not complete, a read or a write, goes to such an
address, it is given none; a source whose first byte is one is such a case. That a command goes on which touches no such address of
its ranges is the model's reading (log 14): R245 asks it of the ranges whole. -/
def Obligations.CommandsStopOnlyAtDevices : Prop :=
  (∀ (s : State) (i : Instr),
    (∀ f, exec i s ≠ .fault f) ∧
    (∀ r, exec i s = .refused r → r = .notOrdinaryMemory ∧ (i = .encode ∨ i = .decode) ∧
      ((∃ k, k < s.srcLen.toNat ∧ readAnswer s (s.srcAddr + BitVec.ofNat 32 k) = .device) ∨
       (∃ k, k < s.dstCap.toNat ∧ writeAnswer s (s.dstAddr + BitVec.ofNat 32 k) = .device)))) ∧
  (∀ (i : Instr) (s u : State) (a : Word), FirstStop i s u a .device → exec i s = .refused .notOrdinaryMemory) ∧
  (∀ s : State, s.codesValid = true → inRange s.srcAddr s.srcLen = true → inRange s.dstAddr s.dstCap = true →
    overlaps s.srcAddr s.srcLen s.dstAddr s.dstCap = false → readAnswer s s.srcAddr = .device →
    (0 < s.srcLen.toNat → exec .encode s = .refused .notOrdinaryMemory) ∧
    (0 < s.tbits.toNat → ceilDiv s.tbits.toNat 8 ≤ s.srcLen.toNat → exec .decode s = .refused .notOrdinaryMemory))

/-- 20_memory.md R82, 10_state.md R33 to R35, R42: NOP, CLRFREQ, BUILD and GENCODE complete always; they leave data memory, the
operand registers, OUT_LEN, IN_COUNT, BITS, ERRADDR, CTRL and OVR alone, and only CLRFREQ writes FREQ. -/
def Obligations.OtherCommandsFrame : Prop :=
  ∀ (s : State) (i : Instr), i ≠ .encode → i ≠ .decode →
    ∃ t, exec i s = .next t ∧ t.engine = none ∧ t.done = true ∧
      t.mem = s.mem ∧ t.srcAddr = s.srcAddr ∧ t.srcLen = s.srcLen ∧ t.dstAddr = s.dstAddr ∧ t.dstCap = s.dstCap ∧
      t.outLen = s.outLen ∧ t.inCount = s.inCount ∧ t.bits = s.bits ∧ t.errAddr = s.errAddr ∧ t.ctrlIE = s.ctrlIE ∧
      t.ovr = s.ovr ∧ (i ≠ .clrfreq → t.freq = s.freq) ∧
      (i ≠ .build → t.node = s.node ∧ t.root = s.root ∧ t.nodeCount = s.nodeCount ∧ t.alpha = s.alpha ∧ t.total = s.total) ∧
      (i ≠ .gencode → t.code = s.code)

/-- R45, R48 (93 row 10): with both valid flags clear, the contents of the arena and the table are not observable: no register
read shows them, no command's other effects depend on them, and after a BUILD no read does either. -/
def Obligations.InvalidContentsAreNotObservable : Prop :=
  ∀ (s : State) (n : Vector Node 511) (c : Vector CodeEntry 256), s.treeValid = false → s.codesValid = false →
    (∀ r, readReg { s with node := n, code := c } r = readReg s r) ∧
    (∀ i t, i ≠ .build → exec i s = .next t →
      exec i { s with node := n, code := c } = .next { t with node := n, code := c }) ∧
    (∀ t, exec .build s = .next t → ∃ t', exec .build { s with node := n, code := c } = .next t' ∧
      ∀ r, readReg t' r = readReg t r)

/-! ### The host's memory actions and files -/

/-- From 30_encoding.md R95 `MEM`, 20_memory.md R69, R80: a host store writes its bytes at ascending addresses and leaves every other
byte; a load returns the byte there. While BUSY the same holds of every byte outside the destination range, whichever command runs;
the engine only notes the addresses stored to, and a store outside both buffers is no race. That a host access passes no `MEM_OK`
(a refusing or silent region answers it as ordinary memory), and what a store past the end of the address space does, is the model's
choice, for every clause (log 20); the refusal at a device is log 14's, and what a race leaves open log 12's. -/
def Obligations.HostStoresAndLoads : Prop :=
  (∀ (s : State) (a : Word) (bs : List Byte), MemoryOk s → a.toNat + bs.length ≤ 2 ^ 32 →
    (∀ k, k < bs.length → writeAnswer s (a + BitVec.ofNat 32 k) ≠ .device) →
    ∃ m e, hostAct (.store a bs) s = .next { s with mem := m, engine := e } ∧
      (∀ k, k < bs.length → s.busy = false ∨ inBuffer s.dstAddr s.dstCap (a + BitVec.ofNat 32 k) = false →
        m.read (a.toNat + k) = bs.getD k 0#8) ∧
      (∀ x, ¬ inSpan a bs.length x → m.read x = s.mem.read x) ∧
      (s.engine = none → e = none) ∧
      (∀ r, s.engine = some r →
        e = some { r with raced := ((List.range bs.length).map (fun k => a + BitVec.ofNat 32 k)).reverse ++ r.raced }) ∧
      (NoRace s → (∀ k, k < bs.length → inBuffer s.srcAddr s.srcLen (a + BitVec.ofNat 32 k) = false ∧
        inBuffer s.dstAddr s.dstCap (a + BitVec.ofNat 32 k) = false) → NoRace { s with mem := m, engine := e })) ∧
  (∀ (s : State) (a : Word), readAnswer s a ≠ .device → s.busy = false ∨ inBuffer s.dstAddr s.dstCap a = false →
    hostAct (.load a) s = .next { s with responses := .byte (s.mem.read a.toNat) :: s.responses }) ∧
  (∀ (s : State) (a : Word), readAnswer s a ≠ .device →
    ∃ v, hostAct (.load a) s = .next { s with responses := .byte v :: s.responses }) ∧
  (∀ (s : State) (a : Word) (bs : List Byte), 2 ^ 32 < a.toNat + bs.length →
    hostAct (.store a bs) s = .fault .storeOutsideMemory) ∧
  (∀ (s : State) (a : Word) (bs : List Byte), a.toNat + bs.length ≤ 2 ^ 32 →
    (∃ k, k < bs.length ∧ writeAnswer s (a + BitVec.ofNat 32 k) = .device) →
    hostAct (.store a bs) s = .refused .notOrdinaryMemory) ∧
  (∀ (s : State) (a : Word), readAnswer s a = .device → hostAct (.load a) s = .refused .notOrdinaryMemory)

/-- 46_host_procedures.md R187, R188, R190: reading back a file whose header meets the conditions of R194 gives its counts, entries
and payload. -/
def Obligations.FileFormatReadsBack : Prop :=
  ∀ (magic payload : List Byte) (alphabet total : Word) (entries : List (Byte × Word)),
    1 ≤ entries.length → entries.length ≤ 256 → alphabet.toNat = entries.length → (entries.map Prod.fst).Nodup →
    (∀ e ∈ entries, e.2 ≠ 0#32) → (entries.map (fun e => e.2.toNat)).sum = total.toNat →
    parseFile magic (fileHeader magic alphabet total entries ++ payload) =
      .ok { alphabet := alphabet, total := total, entries := entries, payload := payload }

/-- From R192, R193, R194, R195 and R186: a file whose tag differs fails with BadMagicTag; with the tag, one that ends inside the
counts or inside the entries fails with Truncated; with all of them, it is read exactly when the four conditions of R194 hold, and
else fails with Inconsistent. Decompress fails with that error before the block is used; a DECODE error is mapped as R195 says, and
without one the output is what was written. Compress of nothing reports EmptyInput. -/
def Obligations.HeaderErrorsInOrder : Prop :=
  (∀ magic f : List Byte,
    let r := f.drop magic.length
    let a := ofLe32 (r.take 4)
    let t := ofLe32 ((r.drop 4).take 4)
    let es := readEntries a.toNat (r.drop 8)
    let consistent := 1 ≤ a.toNat ∧ a.toNat ≤ 256 ∧ (es.map Prod.fst).Nodup ∧ (∀ e ∈ es, e.2 ≠ 0#32) ∧
      (es.map (fun e => e.2.toNat)).sum = t.toNat
    (f.take magic.length ≠ magic → parseFile magic f = .error .badMagicTag) ∧
    (f.take magic.length = magic → r.length < 8 → parseFile magic f = .error .truncated) ∧
    (f.take magic.length = magic → 8 ≤ r.length → r.length < 8 + 5 * a.toNat → parseFile magic f = .error .truncated) ∧
    (f.take magic.length = magic → 8 ≤ r.length → 8 + 5 * a.toNat ≤ r.length →
      (¬ consistent → parseFile magic f = .error .inconsistent) ∧
      (consistent → parseFile magic f =
        .ok { alphabet := a, total := t, entries := es, payload := r.drop (8 + 5 * a.toNat) }))) ∧
  (∀ (magic f : List Byte) (src dst : Word) (s : State) (e : FormatError), parseFile magic f = .error e →
    decompress magic f src dst s = .error (.format e)) ∧
  (∀ (magic f : List Byte) (src dst : Word) (s s' : State) (p : ParsedFile), parseFile magic f = .ok p →
    runScript (decompressScript p src dst) s = .ok s' →
    (s'.errcode = 0x00#8 →
      decompress magic f src dst s = .ok (s'.mem.readList s'.dstAddr.toNat s'.outLen.toNat, s')) ∧
    (s'.errcode = 0x02#8 → decompress magic f src dst s = .error (.format .truncated)) ∧
    (s'.errcode ∈ [0x08#8, 0x09#8, 0x0A#8] → decompress magic f src dst s = .error (.format .inconsistent)) ∧
    (s'.errcode ∈ [0x07#8, 0x0B#8, 0x0C#8, 0x0D#8] →
      decompress magic f src dst s = .error (.block s'.errcode))) ∧
  (∀ (magic : List Byte) (src dst : Word) (s : State), compress magic [] src dst s = .error .emptyInput)

/-! ### Invariants and the round trip -/

/-- Every invariant holds at reset. -/
def Obligations.ResetMeetsTheInvariants : Prop := Inv State.reset

/-- The data memory keeps its canonical form. -/
def Obligations.StepKeepsMemoryCanonical : Prop :=
  ∀ s t : State, MemoryOk s → step s = .next t → MemoryOk t

/-- R51, R52, R54, R206: the flags keep their relations, and ERRCODE stays one of the codes. -/
def Obligations.StepKeepsTheFlags : Prop :=
  ∀ s t : State, FlagsOk s → step s = .next t → FlagsOk t

/-- R36, R37, R39, R40: the result registers of BUILD stay in their ranges. -/
def Obligations.StepKeepsTheCounts : Prop :=
  ∀ s t : State, CountsOk s → step s = .next t → CountsOk t

/-- R49, R51: while TREE_VALID = 1 the arena holds the tree of FREQ, through every step. -/
def Obligations.StepKeepsTheTree : Prop :=
  ∀ s t : State, TreeOk s → step s = .next t → TreeOk t

/-- R50, R52: while CODES_VALID = 1 the code table and TBITS describe the tree, through every step. -/
def Obligations.StepKeepsTheCodes : Prop :=
  ∀ s t : State, TreeOk s → CodesOk s → step s = .next t → CodesOk t

/-- R176: the round trip. For a non-empty `x` at the source whose symbol counts are FREQ: BUILD and GENCODE complete; ENCODE of
`x` into any disjoint room of `ceil_div(TBITS, 8)` bytes completes; and DECODE of that output into any disjoint room of `|x|`
bytes completes and writes exactly `x`. The platform completes the accesses to those bytes. -/
def Obligations.DecodeOfEncodeIsTheInput : Prop :=
  ∀ (s : State) (x : List Byte) (src dst : Word), MemoryOk s → x ≠ [] → x.length < 2 ^ 32 →
    s.mem.readList src.toNat x.length = x → (∀ b, (freqAt s.freq b).toNat = x.count b) →
    ∃ s1 s2, exec .build s = .next s1 ∧ exec .gencode s1 = .next s2 ∧ s1.errcode = 0#8 ∧ s2.errcode = 0#8 ∧
      ∀ cap : Word, ceilDiv s2.tbits.toNat 8 ≤ cap.toNat →
        inRange src (BitVec.ofNat 32 x.length) = true → inRange dst cap = true →
        overlaps src (BitVec.ofNat 32 x.length) dst cap = false →
        ReadsComplete s src x.length → WritesComplete s dst (ceilDiv s2.tbits.toNat 8) →
        ∃ s3, exec .encode
            { s2 with srcAddr := src, srcLen := BitVec.ofNat 32 x.length, dstAddr := dst, dstCap := cap } = .next s3 ∧
          s3.errcode = 0#8 ∧ s3.bits = s2.tbits ∧ s3.outLen.toNat = ceilDiv s2.tbits.toNat 8 ∧
          ∀ len out cap2 : Word, s3.outLen.toNat ≤ len.toNat → x.length ≤ cap2.toNat →
            inRange dst len = true → inRange out cap2 = true → overlaps dst len out cap2 = false →
            ReadsComplete s dst (ceilDiv s2.tbits.toNat 8) → WritesComplete s out x.length →
            ∃ s4, exec .decode { s3 with srcAddr := dst, srcLen := len, dstAddr := out, dstCap := cap2 } = .next s4 ∧
              s4.errcode = 0#8 ∧ s4.outLen.toNat = x.length ∧ s4.mem.readList out.toNat x.length = x
end

