-- ==== Sys2Proof/Laws/Memory.lean ====
section
/-! SUPPORT. The laws of data memory (20_memory.md R69): every write keeps the canonical form, a read after a write to the same
address gives the byte written, and a write leaves every other address alone. -/

namespace Sys2Proof.Machine

theorem Memory.wfFrom_mono {lo hi : Nat} {m : Memory} (h : m.wfFrom hi = true) (hle : lo ≤ hi) :
    m.wfFrom lo = true := by
  cases m with
  | nil => rfl
  | cons c rest =>
    simp only [Memory.wfFrom, Bool.and_eq_true, decide_eq_true_eq] at h ⊢
    exact ⟨⟨⟨by omega, h.1.1.2⟩, h.1.2⟩, h.2⟩

/-- Below the first listed address every byte reads as the fill byte. -/
theorem Memory.read_of_lt {lo a : Nat} {m : Memory} (h : m.wfFrom lo = true) (hlt : a < lo) :
    m.read a = Memory.fill := by
  induction m generalizing lo with
  | nil => rfl
  | cons c rest ih =>
    obtain ⟨k, v⟩ := c
    simp only [Memory.wfFrom, Bool.and_eq_true, decide_eq_true_eq] at h
    have hk : k ≠ a := by omega
    simp only [Memory.read, hk, if_false]
    exact ih h.2 (by omega)

theorem Memory.cell_append_wfFrom {lo a : Nat} {v : Byte} {m : Memory} (hlo : lo ≤ a) (ha : a < Config.memSize)
    (h : m.wfFrom (a + 1) = true) : (Memory.cell a v ++ m).wfFrom lo = true := by
  by_cases hv : v = Memory.fill
  · simpa [Memory.cell, hv] using Memory.wfFrom_mono h (by omega)
  · simp [Memory.cell, hv, Memory.wfFrom, hlo, ha, h]

theorem Memory.write_wfFrom {lo a : Nat} {v : Byte} {m : Memory} (h : m.wfFrom lo = true) (hlo : lo ≤ a)
    (ha : a < Config.memSize) : (m.write a v).wfFrom lo = true := by
  induction m generalizing lo with
  | nil => simpa [Memory.write] using Memory.cell_append_wfFrom (m := []) (v := v) hlo ha rfl
  | cons c rest ih =>
    obtain ⟨k, w⟩ := c
    simp only [Memory.wfFrom, Bool.and_eq_true, decide_eq_true_eq] at h
    simp only [Memory.write]
    split
    · next hk => subst hk; exact Memory.cell_append_wfFrom hlo ha h.2
    · split
      · next hlt =>
        refine Memory.cell_append_wfFrom hlo ha ?_
        simp [Memory.wfFrom, hlt, h.1.1.2, h.2]
        simpa using h.1.2
      · next hne hnlt =>
        simp only [Memory.wfFrom, Bool.and_eq_true, decide_eq_true_eq]
        exact ⟨h.1, ih h.2 (by omega)⟩

/-- Every write inside the data memory keeps the canonical form. -/
theorem Memory.write_wf {a : Nat} {v : Byte} {m : Memory} (h : m.wf = true) (ha : a < Config.memSize) :
    (m.write a v).wf = true :=
  Memory.write_wfFrom h (Nat.zero_le _) ha

/-- A word address always lies inside the data memory. -/
theorem Memory.write_word_wf {a : Word} {v : Byte} {m : Memory} (h : m.wf = true) :
    (m.write a.toNat v).wf = true :=
  Memory.write_wf h a.isLt

theorem Memory.read_cell_append_same {a : Nat} {v : Byte} {m : Memory} (h : m.wfFrom (a + 1) = true) :
    (Memory.cell a v ++ m).read a = v := by
  by_cases hv : v = Memory.fill
  · simpa [Memory.cell, hv] using Memory.read_of_lt h (Nat.lt_succ_self a)
  · simp [Memory.cell, hv, Memory.read]

theorem Memory.read_cell_append_other {a b : Nat} {v : Byte} {m : Memory} (h : b ≠ a) :
    (Memory.cell a v ++ m).read b = m.read b := by
  by_cases hv : v = Memory.fill
  · simp [Memory.cell, hv]
  · simp [Memory.cell, hv, Memory.read, h.symm]

/-- A read after a write to the same address gives the byte written. -/
theorem Memory.read_write_same {lo a : Nat} {v : Byte} {m : Memory} (h : m.wfFrom lo = true) :
    (m.write a v).read a = v := by
  induction m generalizing lo with
  | nil => simpa [Memory.write] using Memory.read_cell_append_same (m := []) (v := v) (a := a) rfl
  | cons c rest ih =>
    obtain ⟨k, w⟩ := c
    simp only [Memory.wfFrom, Bool.and_eq_true, decide_eq_true_eq] at h
    simp only [Memory.write]
    split
    · next hk => subst hk; exact Memory.read_cell_append_same h.2
    · split
      · next hlt =>
        refine Memory.read_cell_append_same ?_
        simp only [Memory.wfFrom, Bool.and_eq_true, decide_eq_true_eq]
        exact ⟨⟨⟨hlt, h.1.1.2⟩, h.1.2⟩, h.2⟩
      · next hne hnlt => simpa [Memory.read, hne] using ih h.2

/-- A write leaves every other address alone, in whatever form the memory is. -/
theorem Memory.read_write_other {a b : Nat} {v : Byte} {m : Memory} (h : b ≠ a) :
    (m.write a v).read b = m.read b := by
  induction m with
  | nil => simpa [Memory.write] using Memory.read_cell_append_other (m := []) (v := v) h
  | cons c rest ih =>
    obtain ⟨k, w⟩ := c
    simp only [Memory.write]
    split
    · next hk => subst hk; rw [Memory.read_cell_append_other h]; simp [Memory.read, h.symm]
    · split
      · exact Memory.read_cell_append_other h
      · simp only [Memory.read, ih]

/-- Two canonical memories that read alike everywhere are the same list. -/
theorem Memory.ext_of_read {lo : Nat} {m n : Memory} (hm : m.wfFrom lo = true) (hn : n.wfFrom lo = true)
    (h : ∀ a, m.read a = n.read a) : m = n := by
  induction m generalizing n lo with
  | nil =>
    cases n with
    | nil => rfl
    | cons c rest =>
      obtain ⟨k, v⟩ := c
      have hk := h k
      simp only [Memory.wfFrom, Bool.and_eq_true] at hn
      simp [Memory.read] at hk
      simp [hk] at hn
  | cons c rest ih =>
    obtain ⟨k, v⟩ := c
    cases n with
    | nil =>
      have hk := h k
      simp only [Memory.wfFrom, Bool.and_eq_true] at hm
      simp [Memory.read] at hk
      simp [hk] at hm
    | cons c' rest' =>
      obtain ⟨k', v'⟩ := c'
      simp only [Memory.wfFrom, Bool.and_eq_true, decide_eq_true_eq, Bool.not_eq_true', beq_eq_false_iff_ne] at hm hn
      have hkk : k = k' := by
        rcases lt_trichotomy k k' with hlt | heq | hgt
        · have h1 := h k
          have hne : k' ≠ k := by omega
          simp only [Memory.read, if_true, hne, if_false] at h1
          exact absurd (h1.trans (Memory.read_of_lt hn.2 (by omega))) hm.1.2
        · exact heq
        · have h1 := h k'
          have hne : k ≠ k' := by omega
          simp only [Memory.read, if_true, hne, if_false] at h1
          exact absurd (h1.symm.trans (Memory.read_of_lt hm.2 (by omega))) hn.1.2
      subst hkk
      have hv : v = v' := by simpa [Memory.read] using h k
      subst hv
      have hrest : rest = rest' := by
        refine ih hm.2 hn.2 (fun a => ?_)
        by_cases hak : k = a
        · subst hak
          rw [Memory.read_of_lt hm.2 (Nat.lt_succ_self k), Memory.read_of_lt hn.2 (Nat.lt_succ_self k)]
        · simpa [Memory.read, hak] using h a
      rw [hrest]

/-! ### Runs of bytes -/

@[simp] theorem Memory.length_readList (m : Memory) (a n : Nat) : (m.readList a n).length = n := by simp [Memory.readList]

theorem Memory.readList_succ (m : Memory) (a n : Nat) : m.readList a (n + 1) = m.readList a n ++ [m.read (a + n)] := by
  simp [Memory.readList, List.range_succ]

theorem Memory.dropLast_readList (m : Memory) (a n : Nat) : (m.readList a n).dropLast = m.readList a (n - 1) := by
  cases n with
  | zero => rfl
  | succ n => rw [Memory.readList_succ, List.dropLast_concat, Nat.add_sub_cancel]

theorem Memory.getD_readList (m : Memory) (a : Nat) {n k : Nat} (d : Byte) (h : k < n) :
    (m.readList a n).getD k d = m.read (a + k) := by
  simp [Memory.readList, h]

theorem Memory.mem_readList {m : Memory} {a n : Nat} {b : Byte} : b ∈ m.readList a n ↔ ∃ k, k < n ∧ m.read (a + k) = b := by
  simp [Memory.readList]

theorem Memory.readList_congr {m m' : Memory} {a n : Nat} (h : ∀ k, k < n → m.read (a + k) = m'.read (a + k)) :
    m.readList a n = m'.readList a n := by
  apply List.map_congr_left
  intro k hk
  exact h k (List.mem_range.1 hk)

theorem Memory.readList_prefix (m : Memory) (a : Nat) {n k : Nat} (h : n ≤ k) : m.readList a n <+: m.readList a k := by
  obtain ⟨d, rfl⟩ := Nat.exists_eq_add_of_le h
  refine ⟨(List.range d).map (fun i => m.read (a + (n + i))), ?_⟩
  simp [Memory.readList, List.range_add]

/-- A write just behind a run of bytes makes the run one longer. -/
theorem Memory.readList_write_next {m : Memory} (a n : Nat) (v : Byte) (h : m.wf = true) :
    (m.write (a + n) v).readList a (n + 1) = m.readList a n ++ [v] := by
  rw [Memory.readList_succ, Memory.read_write_same h]
  congr 1
  exact Memory.readList_congr (fun k hk => Memory.read_write_other (by omega))

end Sys2Proof.Machine
end

