-- ==== Sys2Proof/Laws/Flow.lean ====
section
/-! SUPPORT. Streams: what holds of a stream where it goes on and where it halts (`Flow.Post`), how that composes, and what the
engine's two port operations can answer and what both streams keep. -/

namespace Sys2Proof.Machine

/-- `P` holds of the state a stream goes on with, `Q` of the state and reason it halts with. -/
def Flow.Post {σ : Type} (P : σ → Prop) (Q : σ → Halt → Prop) : Flow σ → Prop
  | .go st => P st
  | .halt st why => Q st why

theorem Flow.Post.andThen {σ : Type} {P P' : σ → Prop} {Q : σ → Halt → Prop} {f : Flow σ} {k : σ → Flow σ}
    (hf : f.Post P Q) (hk : ∀ st, P st → (k st).Post P' Q) : (f.andThen k).Post P' Q := by
  cases f with
  | go st => exact hk st hf
  | halt st why => exact hf

theorem Flow.Post.mono {σ : Type} {P P' : σ → Prop} {Q Q' : σ → Halt → Prop} {f : Flow σ}
    (hf : f.Post P Q) (hP : ∀ st, P st → P' st) (hQ : ∀ st why, Q st why → Q' st why) : f.Post P' Q' := by
  cases f with
  | go st => exact hP st hf
  | halt st why => exact hQ st why hf

/-- A stream that holds nowhere on halting goes on. -/
theorem Flow.Post.goes {σ : Type} {P : σ → Prop} {f : Flow σ} (hf : f.Post P (fun _ _ => False)) :
    ∃ st, f = .go st ∧ P st := by
  cases f with
  | go st => exact ⟨st, rfl, hf⟩
  | halt st why => exact hf.elim

/-! ### Races and the two ports -/

/-- An address of a buffer, as an address and as a number. -/
theorem toNat_add_ofNat {a n : Word} {k : Nat} (hr : inRange a n = true) (hk : k < n.toNat) :
    (a + BitVec.ofNat 32 k).toNat = a.toNat + k := by
  have ha := a.isLt
  have hn := n.isLt
  simp only [inRange, decide_eq_true_eq] at hr
  rw [BitVec.toNat_add, BitVec.toNat_ofNat, Nat.mod_eq_of_lt (show k < 2 ^ 32 by omega), Nat.mod_eq_of_lt (by omega)]

theorem inBuffer_add {a n : Word} {k : Nat} (hr : inRange a n = true) (hk : k < n.toNat) :
    inBuffer a n (a + BitVec.ofNat 32 k) = true := by
  simp [inBuffer, toNat_add_ofNat hr hk, hk]

/-- While idle there is no race. -/
theorem NoRace.of_idle {s : State} (h : s.engine = none) : NoRace s := by simp [NoRace, State.raced, h]

theorem NoRace.source {s : State} (h : NoRace s) : s.sourceRaced = false := by
  simp only [State.sourceRaced, List.any_eq_false]
  intro a ha
  simp [(h a ha).1]

theorem NoRace.destination {s : State} (h : NoRace s) {a : Word} (ha : inBuffer s.dstAddr s.dstCap a = true) :
    a ∉ s.raced := fun hm => by simp [(h a hm).2] at ha

/-- How an access that does not complete halts a stream. -/
def Answer.Halts (a : Word) (why : Halt) : Answer → Prop
  | .completes => False
  | .refuses => why = .busError a
  | .silent => why = .noAnswer
  | .device => why = .device

theorem portRead_ok {s : State} {m : Memory} {a : Word} {b : Byte} (h : portRead s m a = .ok b) :
    readAnswer s a = .completes ∧ (NoRace s → b = m.read a.toNat) := by
  unfold portRead at h
  split at h
  · next hr =>
    refine ⟨hr, fun hn => ?_⟩
    simpa [hn.source] using h.symm
  all_goals cases h

theorem portRead_error {s : State} {m : Memory} {a : Word} {why : Halt} (h : portRead s m a = .error why) :
    (readAnswer s a).Halts a why := by
  unfold portRead at h
  split at h <;> cases h <;> simp [*, Answer.Halts]

theorem portWrite_ok {s : State} {m m' : Memory} {a : Word} {v : Byte} (h : portWrite s m a v = .ok m') :
    writeAnswer s a = .completes ∧
      ∃ w, m' = m.write a.toNat w ∧ (NoRace s → inBuffer s.dstAddr s.dstCap a = true → w = v) := by
  unfold portWrite at h
  split at h
  · next hr =>
    refine ⟨hr, _, (Except.ok.inj h).symm, fun hn ha => by simp [hn.destination ha]⟩
  all_goals cases h

theorem portWrite_error {s : State} {m : Memory} {a : Word} {v : Byte} {why : Halt}
    (h : portWrite s m a v = .error why) : (writeAnswer s a).Halts a why := by
  unfold portWrite at h
  split at h <;> cases h <;> simp [*, Answer.Halts]

/-! ### What both streams keep -/

/-- The platform completes one more read, or write. -/
theorem ReadsComplete.succ {s : State} {a : Word} {n : Nat} (h : ReadsComplete s a n)
    (hn : readAnswer s (a + BitVec.ofNat 32 n) = .completes) : ReadsComplete s a (n + 1) := by
  intro k hk
  rcases Nat.lt_succ_iff_lt_or_eq.1 hk with hk | rfl
  · exact h k hk
  · exact hn

theorem WritesComplete.succ {s : State} {a : Word} {n : Nat} (h : WritesComplete s a n)
    (hn : writeAnswer s (a + BitVec.ofNat 32 n) = .completes) : WritesComplete s a (n + 1) := by
  intro k hk
  rcases Nat.lt_succ_iff_lt_or_eq.1 hk with hk | rfl
  · exact h k hk
  · exact hn

/-- A stream has written `out` bytes: no more than `DST_CAP`, each completed, and memory changed inside them only. -/
structure Streamed (s : State) (mem : Memory) (out : Nat) : Prop where
  out_le : out ≤ s.dstCap.toNat
  outside : ∀ a, ¬ (s.dstAddr.toNat ≤ a ∧ a < s.dstAddr.toNat + out) → mem.read a = s.mem.read a
  wf : s.mem.wf = true → mem.wf = true
  writes : WritesComplete s s.dstAddr out

theorem Streamed.start (s : State) : Streamed s s.mem 0 :=
  ⟨Nat.zero_le _, fun _ _ => rfl, id, fun _ hk => absurd hk (Nat.not_lt_zero _)⟩

/-- One more byte written; without a race it is the byte the command meant. -/
theorem Streamed.write {s : State} {mem m : Memory} {out : Nat} {v : Byte} (h : Streamed s mem out)
    (hr : inRange s.dstAddr s.dstCap = true) (hlt : out < s.dstCap.toNat)
    (hw : portWrite s mem (s.dstAddr + BitVec.ofNat 32 out) v = .ok m) :
    Streamed s m (out + 1) ∧
      (NoRace s → s.mem.wf = true → m.readList s.dstAddr.toNat (out + 1) = mem.readList s.dstAddr.toNat out ++ [v]) := by
  obtain ⟨hc, w, rfl, hv⟩ := portWrite_ok hw
  rw [toNat_add_ofNat hr hlt]
  refine ⟨⟨hlt, fun a ha => ?_, fun hwf => ?_, h.writes.succ hc⟩, fun hn hwf => ?_⟩
  · rw [Memory.read_write_other (by omega), h.outside a (by omega)]
  · rw [← toNat_add_ofNat hr hlt]; exact Memory.write_word_wf (h.wf hwf)
  · rw [hv hn (inBuffer_add hr hlt), Memory.readList_write_next _ _ _ (h.wf hwf)]

/-- A source address is outside the destination range, once the overlap check has passed (20_memory.md R72). -/
theorem source_outside_destination {s : State} {k : Nat} (ho : overlaps s.srcAddr s.srcLen s.dstAddr s.dstCap = false)
    (hk : k < s.srcLen.toNat) :
    ¬ (s.dstAddr.toNat ≤ s.srcAddr.toNat + k ∧ s.srcAddr.toNat + k < s.dstAddr.toNat + s.dstCap.toNat) := by
  simp only [overlaps, Bool.and_eq_false_iff, decide_eq_false_iff_not] at ho
  omega

/-- A source byte is read as it was before the command, unless the host raced. -/
theorem Streamed.read {s : State} {mem : Memory} {out k : Nat} {b : Byte} (h : Streamed s mem out)
    (hs : inRange s.srcAddr s.srcLen = true) (ho : overlaps s.srcAddr s.srcLen s.dstAddr s.dstCap = false)
    (hk : k < s.srcLen.toNat) (hb : portRead s mem (s.srcAddr + BitVec.ofNat 32 k) = .ok b) :
    readAnswer s (s.srcAddr + BitVec.ofNat 32 k) = .completes ∧ (NoRace s → b = s.mem.read (s.srcAddr.toNat + k)) := by
  obtain ⟨hc, hv⟩ := portRead_ok hb
  refine ⟨hc, fun hn => ?_⟩
  have hout := source_outside_destination ho hk
  have hle := h.out_le
  rw [hv hn, toNat_add_ofNat hs hk, h.outside _ (by omega)]

end Sys2Proof.Machine
end

