-- ==== Sys2Proof/Laws/Tables.lean ====
section
/-! SUPPORT. The state arrays: reads of FREQ, NODE and CODE by index after a write, the arena BUILD fills, the observed entries of
the frequency table, and all symbols. -/

namespace Sys2Proof.Machine

theorem getD_replicate {α : Type} (n i : Nat) (x d : α) : (Vector.replicate n x).getD i d = if i < n then x else d := by
  simp [Vector.getD, Array.getD]

theorem freqAt_replicate (n : Byte) : freqAt (Vector.replicate 256 0#32) n = 0#32 := by
  have := n.isLt
  simp [freqAt, getD_replicate]

theorem freqAt_set_same (f : Vector Word 256) (i : Byte) (v : Word) : freqAt (f.setIfInBounds i.toNat v) i = v := by
  have := i.isLt
  simp [freqAt, Vector.getD, this]

theorem freqAt_set_other (f : Vector Word 256) {i j : Byte} (v : Word) (h : j ≠ i) :
    freqAt (f.setIfInBounds i.toNat v) j = freqAt f j := by
  have hne : i.toNat ≠ j.toNat := fun he => h (BitVec.eq_of_toNat_eq he.symm)
  simp [freqAt, Vector.getD, hne]

theorem codeAt_blank (x : Byte) : codeAt emptyTable x = CodeEntry.blank := by
  simp [codeAt, emptyTable, getD_replicate]

theorem codeAt_setCode_same (t : Vector CodeEntry 256) (x : Byte) (e : CodeEntry) : codeAt (setCode t x e) x = e := by
  have := x.isLt
  simp [codeAt, setCode, Vector.getD, this]

theorem codeAt_setCode_other (t : Vector CodeEntry 256) {x y : Byte} (e : CodeEntry) (h : y ≠ x) :
    codeAt (setCode t x e) y = codeAt t y := by
  have hne : x.toNat ≠ y.toNat := fun he => h (BitVec.eq_of_toNat_eq he.symm)
  simp [codeAt, setCode, Vector.getD, hne]

theorem nodeAt_NIL (arena : Vector Node 511) : nodeAt arena NIL = Node.blank := by
  simp [nodeAt, NIL, Vector.getD]

/-- What the arena holds after BUILD wrote its nodes from index `i` on. -/
theorem getD_writeArena (ns : List Node) (i j : Nat) (arena : Vector Node 511) (d : Node) :
    (writeArena i ns arena).getD j d =
      if i ≤ j ∧ j < i + ns.length ∧ j < 511 then ns.getD (j - i) d else arena.getD j d := by
  induction ns generalizing i arena with
  | nil => simp [writeArena]; omega
  | cons n ns ih =>
    rw [writeArena, ih]
    by_cases hij : i = j
    · subst hij
      simp only [show ¬ (i + 1 ≤ i) by omega, false_and, if_false, le_refl, true_and, List.length_cons, Nat.sub_self,
        List.getD_cons_zero]
      by_cases hlt : i < 511
      · simp [hlt, Vector.getD]
      · simp [hlt, Vector.getD]
    · have hset : (arena.setIfInBounds i n).getD j d = arena.getD j d := by
        simp [Vector.getD, hij]
      rw [hset]
      by_cases hle : i + 1 ≤ j
      · obtain ⟨k, rfl⟩ : ∃ k, j = i + 1 + k := ⟨j - (i + 1), by omega⟩
        simp only [List.length_cons, show i + 1 + k - (i + 1) = k by omega, show i + 1 + k - i = k + 1 by omega,
          List.getD_cons_succ]
        congr 1
        simp only [eq_iff_iff]; omega
      · simp only [List.length_cons, hle, false_and, if_false, show ¬ (i ≤ j) by omega]

/-- Below the number of nodes written, the arena holds them. -/
theorem nodeAt_writeArena {ns : List Node} {arena : Vector Node 511} {i : NodeIdx} (h : i.toNat < ns.length)
    (h' : ns.length ≤ 511) : nodeAt (writeArena 0 ns arena) i = ns.getD i.toNat Node.blank := by
  rw [nodeAt, getD_writeArena]
  simp [h]
  omega

/-- Two frequency tables that agree on every symbol are the same. -/
theorem freq_ext {f g : Vector Word 256} (h : ∀ i, freqAt f i = freqAt g i) : f = g := by
  apply Vector.ext
  intro i hi
  have h1 := h (BitVec.ofNat 8 i)
  simpa [freqAt, Vector.getD, Nat.mod_eq_of_lt hi, hi] using h1

/-! ### All symbols -/

theorem mem_allSymbols (x : Byte) : x ∈ allSymbols := by
  simp only [allSymbols, List.mem_map, List.mem_range]
  exact ⟨x.toNat, x.isLt, by simp⟩

theorem nodup_allSymbols : allSymbols.Nodup := by
  rw [allSymbols, List.nodup_map_iff_inj_on List.nodup_range]
  intro a ha b hb hab
  simp only [List.mem_range] at ha hb
  have h := congrArg BitVec.toNat hab
  simpa [Nat.mod_eq_of_lt ha, Nat.mod_eq_of_lt hb] using h

theorem length_allSymbols : allSymbols.length = 256 := by simp [allSymbols]

/-! ### The observed entries -/

theorem observed_eq (f : Vector Word 256) :
    observed f = (allSymbols.map (fun x => (x, freqAt f x))).filter (fun e => !(e.2 == 0#32)) := by
  simp [observed, allSymbols, Function.comp_def]

theorem mem_observed {f : Vector Word 256} {e : Byte × Word} :
    e ∈ observed f ↔ e.2 = freqAt f e.1 ∧ freqAt f e.1 ≠ 0#32 := by
  obtain ⟨x, w⟩ := e
  rw [observed_eq]
  simp only [List.mem_filter, List.mem_map, Prod.mk.injEq, Bool.not_eq_true', beq_eq_false_iff_ne]
  constructor
  · rintro ⟨⟨a, -, rfl, rfl⟩, h⟩; exact ⟨rfl, h⟩
  · rintro ⟨rfl, h⟩; exact ⟨⟨x, mem_allSymbols x, rfl, rfl⟩, h⟩

theorem map_fst_observed (f : Vector Word 256) :
    (observed f).map Prod.fst = allSymbols.filter (fun x => !(freqAt f x == 0#32)) := by
  rw [observed_eq, List.filter_map, List.map_map]
  simp [Function.comp_def]

/-- Each symbol is observed at most once. -/
theorem nodup_map_fst_observed (f : Vector Word 256) : ((observed f).map Prod.fst).Nodup := by
  rw [map_fst_observed]
  exact nodup_allSymbols.filter _

theorem length_observed (f : Vector Word 256) :
    (observed f).length = (allSymbols.filter (fun x => !(freqAt f x == 0#32))).length := by
  rw [← map_fst_observed, List.length_map]

theorem length_observed_le (f : Vector Word 256) : (observed f).length ≤ 256 := by
  rw [length_observed, ← length_allSymbols]
  exact List.length_filter_le _ _

/-- A sum over the observed entries is the sum over all symbols, where an absent symbol adds nothing. -/
theorem sum_observed (f : Vector Word 256) (g : Byte → Word → Nat) (hg : ∀ x, g x 0#32 = 0) :
    ((observed f).map (fun e => g e.1 e.2)).sum = (allSymbols.map (fun x => g x (freqAt f x))).sum := by
  rw [observed_eq, List.filter_map, List.map_map]
  generalize allSymbols = l
  induction l with
  | nil => rfl
  | cons x xs ih =>
    by_cases h : freqAt f x = 0#32
    · simp [h, hg] at ih ⊢
      simpa [Function.comp_def] using ih
    · simp [h] at ih ⊢
      simpa [Function.comp_def] using ih

theorem freqTotal_eq (f : Vector Word 256) : freqTotal f = (allSymbols.map (fun x => (freqAt f x).toNat)).sum :=
  sum_observed f (fun _ w => w.toNat) (fun _ => rfl)

theorem sum_map_le {α : Type} (l : List α) (g : α → Nat) (b : Nat) (h : ∀ x ∈ l, g x ≤ b) :
    (l.map g).sum ≤ l.length * b := by
  induction l with
  | nil => simp
  | cons x xs ih =>
    have h1 := h x (by simp)
    have h2 := ih (fun y hy => h y (by simp [hy]))
    simp only [List.map_cons, List.sum_cons, List.length_cons, Nat.add_mul, Nat.one_mul]
    omega

/-- `TOTAL` is at most 256 times the greatest weight (10_state.md R37). -/
theorem freqTotal_le (f : Vector Word 256) : freqTotal f ≤ 0xFFFFFFFF00 := by
  have h := sum_map_le (observed f) (fun e => e.2.toNat) (2 ^ 32 - 1) (fun e _ => by have := e.2.isLt; omega)
  have h2 := length_observed_le f
  unfold freqTotal
  have : (observed f).length * (2 ^ 32 - 1) ≤ 256 * (2 ^ 32 - 1) := Nat.mul_le_mul_right _ h2
  omega

theorem observed_eq_nil {f : Vector Word 256} : observed f = [] ↔ ∀ x, freqAt f x = 0#32 := by
  constructor
  · intro h x
    by_contra hx
    have : (x, freqAt f x) ∈ observed f := mem_observed.2 ⟨rfl, hx⟩
    rw [h] at this
    cases this
  · intro h
    rw [List.eq_nil_iff_forall_not_mem]
    intro e he
    exact (mem_observed.1 he).2 (h _)

/-- A table with one non-zero entry. -/
theorem observed_single {f : Vector Word 256} {x : Byte} (h1 : freqAt f x ≠ 0#32) (h2 : ∀ y, y ≠ x → freqAt f y = 0#32) :
    observed f = [(x, freqAt f x)] := by
  have hm : ∀ e, e ∈ observed f ↔ e = (x, freqAt f x) := by
    intro ⟨y, w⟩
    rw [mem_observed]
    constructor
    · rintro ⟨hw, hy⟩
      by_cases hyx : y = x
      · subst hyx; simp at hw; rw [hw]
      · exact absurd (h2 y hyx) hy
    · intro he; cases he; exact ⟨rfl, h1⟩
  have hn : (observed f).Nodup := (nodup_map_fst_observed f).of_map
  exact List.perm_singleton.1 ((List.perm_ext_iff_of_nodup hn (by simp)).2 (by simpa using hm))

end Sys2Proof.Machine
end

