-- ==== Sys2Proof/Laws/Codes.lean ====
section
/-! SUPPORT. Bit strings and their storage in code entries (42_code_generator.md R142), and the code generator's walk over a tree
(R135 to R138). -/

namespace Sys2Proof.Machine

/-! ### Bit strings -/

theorem foldl_bits (p : List Bool) (a : Nat) :
    p.foldl (fun acc b => 2 * acc + b.toNat) a = a * 2 ^ p.length + bitsToNat p := by
  induction p generalizing a with
  | nil => simp [bitsToNat]
  | cons b p ih =>
    simp only [bitsToNat, List.foldl_cons, List.length_cons]
    rw [ih, ih (2 * 0 + b.toNat)]
    ring

@[simp] theorem bitsToNat_nil : bitsToNat [] = 0 := rfl

theorem bitsToNat_cons (b : Bool) (p : List Bool) : bitsToNat (b :: p) = b.toNat * 2 ^ p.length + bitsToNat p := by
  rw [bitsToNat, List.foldl_cons, foldl_bits]
  simp

theorem bitsToNat_lt (p : List Bool) : bitsToNat p < 2 ^ p.length := by
  induction p with
  | nil => simp
  | cons b p ih =>
    rw [bitsToNat_cons, List.length_cons, Nat.pow_succ]
    cases b <;> simp <;> omega

/-- Bit `i` of the number is the bit `i` from the end of the string. -/
theorem testBit_bitsToNat (p : List Bool) (i : Nat) :
    (bitsToNat p).testBit i = (decide (i < p.length) && p.getD (p.length - 1 - i) false) := by
  induction p generalizing i with
  | nil => simp
  | cons b p ih =>
    rw [bitsToNat_cons]
    have hlt := bitsToNat_lt p
    rw [Nat.mul_comm, Nat.testBit_two_pow_mul_add _ hlt]
    by_cases hi : i < p.length
    · rw [if_pos hi, ih]
      have h1 : (b :: p).length - 1 - i = (p.length - 1 - i) + 1 := by simp; omega
      rw [h1]
      simp [hi]
      omega
    · rw [if_neg hi]
      by_cases he : i = p.length
      · subst he
        cases b <;> simp
      · have h1 : 1 ≤ i - p.length := by omega
        have : b.toNat.testBit (i - p.length) = false := by
          apply Nat.testBit_lt_two_pow
          have : 2 ^ 1 ≤ 2 ^ (i - p.length) := Nat.pow_le_pow_right (by decide) h1
          cases b <;> simp
          omega
        rw [this]
        simp [show ¬ i < p.length + 1 by omega]

/-- Eight bits packed are those bits, first bit at 7 (20_memory.md R64). -/
theorem streamBit_packByte {q : List Bool} (h : q.length = 8) (j : Nat) : streamBit (packByte q) j = q.getD (j % 8) false := by
  have hj : j % 8 < 8 := Nat.mod_lt _ (by decide)
  simp only [streamBit, packByte, BitVec.getLsbD_ofNat, testBit_bitsToNat, h]
  rw [show 8 - 1 - (7 - j % 8) = j % 8 by omega]
  simp
  omega

@[simp] theorem length_codeString (e : CodeEntry) : (codeString e).length = e.len.toNat := by simp [codeString]

theorem length_codeEntry {p : List Bool} (h : p.length ≤ 255) : (codeEntry p).len.toNat = p.length := by
  simp [codeEntry]; omega

/-- A position of a stored code is the code's bit, and 0 behind it. -/
theorem getMsbD_codeEntry {p : List Bool} (h : p.length ≤ 255) (k : Nat) :
    (codeEntry p).bits.getMsbD k = p.getD k false := by
  simp only [codeEntry, BitVec.getMsbD, BitVec.getLsbD_ofNat]
  by_cases hk : k < 256
  · rw [Nat.testBit_mul_two_pow, testBit_bitsToNat]
    by_cases hkp : k < p.length
    · rw [show p.length - 1 - (256 - 1 - k - (256 - p.length)) = k by omega]
      simp [hk, show 256 - p.length ≤ 256 - 1 - k by omega, show 255 - k < 256 by omega]
      omega
    · have : ¬ 256 - p.length ≤ 256 - 1 - k := by omega
      simp [this, List.getElem?_eq_none (show p.length ≤ k by omega)]
  · simp [hk, List.getElem?_eq_none (show p.length ≤ k by omega)]

/-- What is stored reads back. -/
theorem codeString_codeEntry {p : List Bool} (h : p.length ≤ 255) : codeString (codeEntry p) = p := by
  apply List.ext_getElem
  · simp [length_codeEntry h]
  · intro k h1 h2
    simp only [codeString, List.getElem_map, List.getElem_range, getMsbD_codeEntry h]
    simp [h2]

/-! ### The shape of a tree -/

theorem Shape.idx_leaf (i : Nat) (x : Byte) (w : Word) : (Shape.leaf i x w).idx = i := rfl
theorem Shape.idx_wrap (i : Nat) (t : Shape) : (Shape.wrap i t).idx = i := rfl
theorem Shape.idx_fork (i : Nat) (l r : Shape) : (Shape.fork i l r).idx = i := rfl

/-- The greatest number of steps from the root to a leaf. -/
def Shape.depth : Shape → Nat
  | .leaf _ _ _ => 0
  | .wrap _ t => t.depth + 1
  | .fork _ l r => max l.depth r.depth + 1

theorem Shape.length_paths_le (t : Shape) : ∀ e ∈ t.paths, e.2.length ≤ t.depth := by
  induction t with
  | leaf i x w => simp [Shape.paths]
  | wrap i t ih =>
    intro e he
    simp only [Shape.paths, List.mem_map] at he
    obtain ⟨e', he', rfl⟩ := he
    simpa [Shape.depth] using ih e' he'
  | fork i l r ihl ihr =>
    intro e he
    simp only [Shape.paths, List.mem_append, List.mem_map] at he
    rcases he with ⟨e', he', rfl⟩ | ⟨e', he', rfl⟩
    · have := ihl e' he'; simp [Shape.depth]; omega
    · have := ihr e' he'; simp [Shape.depth]; omega

theorem Shape.map_fst_paths (t : Shape) : t.paths.map Prod.fst = t.leaves.map Prod.fst := by
  induction t with
  | leaf i x w => rfl
  | wrap i t ih => simpa [Shape.paths, Shape.leaves, Function.comp_def] using ih
  | fork i l r ihl ihr => simp [Shape.paths, Shape.leaves, Function.comp_def, ihl, ihr]

/-- A full tree is less deep than it has leaves (42_code_generator.md R137). -/
theorem Shape.depth_lt_of_full {t : Shape} (h : t.full) : t.depth < t.leaves.length := by
  induction t with
  | leaf i x w => simp [Shape.depth, Shape.leaves]
  | wrap i t ih => exact h.elim
  | fork i l r ihl ihr =>
    have h1 := ihl h.1
    have h2 := ihr h.2
    simp [Shape.depth, Shape.leaves]
    omega

theorem Shape.depth_le_of_proper {t : Shape} (h : t.proper) (hl : t.leaves.length ≤ 256) : t.depth ≤ 255 := by
  cases t with
  | leaf i x w => exact h.elim
  | wrap i t =>
    obtain ⟨j, x, w, rfl⟩ := h
    simp [Shape.depth]
  | fork i l r =>
    have h1 := Shape.depth_lt_of_full (t := .fork i l r) h
    omega

/-- In a proper tree every path has at least one step (R137). -/
theorem Shape.one_le_length_paths {t : Shape} (h : t.proper) : ∀ e ∈ t.paths, 1 ≤ e.2.length := by
  intro e he
  cases t with
  | leaf i x w => exact h.elim
  | wrap i t =>
    simp only [Shape.paths, List.mem_map] at he
    obtain ⟨e', -, rfl⟩ := he
    simp
  | fork i l r =>
    simp only [Shape.paths, List.mem_append, List.mem_map] at he
    rcases he with ⟨e', -, rfl⟩ | ⟨e', -, rfl⟩ <;> simp

theorem Shape.idx_lt {arena : Vector Node 511} {t : Shape} (h : t.heldBy arena) : t.idx < 511 := by
  cases t <;> exact h.1

theorem Shape.idx_ne_NIL {arena : Vector Node 511} {t : Shape} (h : t.heldBy arena) : BitVec.ofNat 9 t.idx ≠ NIL := by
  have := Shape.idx_lt h
  intro he
  have := congrArg BitVec.toNat he
  simp [NIL] at this
  omega

/-- No path is a beginning of another symbol's path: only leaves have paths (R141). -/
theorem Shape.paths_prefix_free (t : Shape) (hn : (t.leaves.map Prod.fst).Nodup) {e e' : Byte × List Bool}
    (he : e ∈ t.paths) (he' : e' ∈ t.paths) (hp : e.2 <+: e'.2) : e.1 = e'.1 := by
  induction t generalizing e e' with
  | leaf i x w =>
    simp only [Shape.paths, List.mem_singleton] at he he'
    rw [he, he']
  | wrap i t ih =>
    simp only [Shape.paths, List.mem_map] at he he'
    obtain ⟨f, hf, rfl⟩ := he
    obtain ⟨f', hf', rfl⟩ := he'
    exact ih (e := f) (e' := f') hn hf hf' (List.cons_prefix_cons.1 hp).2
  | fork i l r ihl ihr =>
    simp only [Shape.leaves, List.map_append] at hn
    simp only [Shape.paths, List.mem_append, List.mem_map] at he he'
    rcases he with ⟨f, hf, rfl⟩ | ⟨f, hf, rfl⟩ <;> rcases he' with ⟨f', hf', rfl⟩ | ⟨f', hf', rfl⟩
    · exact ihl (e := f) (e' := f') hn.of_append_left hf hf' (List.cons_prefix_cons.1 hp).2
    · exact absurd (List.cons_prefix_cons.1 hp).1 (by simp)
    · exact absurd (List.cons_prefix_cons.1 hp).1 (by simp)
    · exact ihr (e := f) (e' := f') hn.of_append_right hf hf' (List.cons_prefix_cons.1 hp).2

/-! ### The walk -/

/-- The table with the entries of a list of paths written, each behind the path `p`. -/
def writePaths (p : List Bool) (es : List (Byte × List Bool)) (table : Vector CodeEntry 256) : Vector CodeEntry 256 :=
  es.foldl (fun tb e => setCode tb e.1 (codeEntry (p ++ e.2))) table

theorem writePaths_append (p : List Bool) (es es' : List (Byte × List Bool)) (table : Vector CodeEntry 256) :
    writePaths p (es ++ es') table = writePaths p es' (writePaths p es table) := List.foldl_append

theorem writePaths_cons_step (p : List Bool) (b : Bool) (es : List (Byte × List Bool)) (table : Vector CodeEntry 256) :
    writePaths p (es.map (fun e => (e.1, b :: e.2))) table = writePaths (p ++ [b]) es table := by
  simp only [writePaths, List.foldl_map, List.append_assoc, List.singleton_append]

theorem codeAt_writePaths_of_not_mem (p : List Bool) (es : List (Byte × List Bool)) (table : Vector CodeEntry 256) {x : Byte}
    (h : x ∉ es.map Prod.fst) : codeAt (writePaths p es table) x = codeAt table x := by
  induction es generalizing table with
  | nil => rfl
  | cons e es ih =>
    simp only [List.map_cons, List.mem_cons, not_or] at h
    exact (ih _ h.2).trans (codeAt_setCode_other _ _ h.1)

theorem codeAt_writePaths_of_mem (p : List Bool) {es : List (Byte × List Bool)} (table : Vector CodeEntry 256)
    (hn : (es.map Prod.fst).Nodup) {e : Byte × List Bool} (he : e ∈ es) :
    codeAt (writePaths p es table) e.1 = codeEntry (p ++ e.2) := by
  induction es generalizing table with
  | nil => cases he
  | cons f es ih =>
    rw [List.map_cons, List.nodup_cons] at hn
    rcases List.mem_cons.1 he with rfl | he
    · exact (codeAt_writePaths_of_not_mem p es _ hn.1).trans (codeAt_setCode_same _ _ _)
    · exact ih _ hn.2 he

/-- The walk over a held tree writes each leaf's path (R135, R136), given enough levels. -/
theorem walkTree_eq (arena : Vector Node 511) {t : Shape} (h : t.heldBy arena) (fuel : Nat) (hf : t.depth < fuel)
    (p : List Bool) (table : Vector CodeEntry 256) :
    walkTree arena fuel (BitVec.ofNat 9 t.idx) p table = writePaths p t.paths table := by
  induction t generalizing fuel p table with
  | leaf i x w =>
    match fuel, hf with
    | fuel + 1, _ => simp [walkTree, Shape.idx, h.2, Shape.paths, writePaths]
  | wrap i t ih =>
    match fuel, hf with
    | fuel + 1, hf =>
      have hne := Shape.idx_ne_NIL h.2.2
      simp only [Shape.depth, Nat.add_lt_add_iff_right] at hf
      simp only [walkTree, Shape.idx_wrap, h.2.1, hne, if_true, if_false, Bool.false_eq_true]
      rw [ih h.2.2 fuel hf, Shape.paths, writePaths_cons_step]
  | fork i l r ihl ihr =>
    match fuel, hf with
    | fuel + 1, hf =>
      have hl := Shape.idx_ne_NIL h.2.2.1
      have hr := Shape.idx_ne_NIL h.2.2.2
      simp only [Shape.depth] at hf
      simp only [walkTree, Shape.idx_fork, h.2.1, hl, hr, if_false, Bool.false_eq_true]
      rw [ihl h.2.2.1 fuel (by omega), ihr h.2.2.2 fuel (by omega), Shape.paths, writePaths_append, writePaths_cons_step,
        writePaths_cons_step]

/-- `Σ` over the leaves of weight times code length, counted node by node (R138). -/
theorem sum_leafBits (arena : Vector Node 511) (table : Vector CodeEntry 256) {t : Shape} (h : t.heldBy arena) :
    (t.indices.map (leafBits arena table)).sum =
      (t.leaves.map (fun e => e.2.toNat * (codeAt table e.1).len.toNat)).sum := by
  induction t with
  | leaf i x w => simp [Shape.indices, Shape.leaves, leafBits, h.2]; left; have := w.isLt; omega
  | wrap i t ih =>
    have h0 : leafBits arena table i = 0 := by simp [leafBits, h.2.1]
    simp only [Shape.indices, Shape.leaves, List.map_cons, List.sum_cons, h0, ih h.2.2, Nat.zero_add]
  | fork i l r ihl ihr =>
    have h0 : leafBits arena table i = 0 := by simp [leafBits, h.2.1]
    simp only [Shape.indices, Shape.leaves, List.map_cons, List.map_append, List.sum_cons, List.sum_append, h0,
      ihl h.2.2.1, ihr h.2.2.2, Nat.zero_add]

end Sys2Proof.Machine
end

