-- ==== Sys2Proof/Laws/Packing.lean ====
section
/-! SUPPORT. Bit strings as the codec sees them: the code bits of a byte sequence, their packing into bytes (43_encoder.md R152,
R153), the bits of a source (44_decoder.md R168), and that a sequence of codes can be read back in one way only (R169, R176). -/

namespace Sys2Proof.Machine

/-! ### Packing -/

/-- The whole bytes of a bit string. -/
def packAll (n : Nat) (bits : List Bool) : List Byte := (List.range n).map (fun i => packByte ((bits.drop (8 * i)).take 8))

@[simp] theorem length_packAll (n : Nat) (bits : List Bool) : (packAll n bits).length = n := by simp [packAll]

theorem packAll_succ (n : Nat) (bits : List Bool) :
    packAll (n + 1) bits = packAll n bits ++ [packByte ((bits.drop (8 * n)).take 8)] := by
  simp [packAll, List.range_succ]

theorem packAll_append (n : Nat) {bits : List Bool} (more : List Bool) (h : 8 * n ≤ bits.length) :
    packAll n (bits ++ more) = packAll n bits := by
  apply List.map_congr_left
  intro i hi
  rw [List.mem_range] at hi
  rw [List.drop_append_of_le_length (by omega), List.take_append_of_le_length (by simp; omega)]

/-- A bit of packed bytes is a bit of the string (20_memory.md R64). -/
theorem bitOf_packAll {n : Nat} {bits : List Bool} {j : Nat} (hj : j < 8 * n) (hl : 8 * n ≤ bits.length) :
    bitOf (packAll n bits) j = bits.getD j false := by
  have hi : j / 8 < n := by omega
  have hlen : ((bits.drop (8 * (j / 8))).take 8).length = 8 := by simp; omega
  have hget : (packAll n bits).getD (j / 8) 0#8 = packByte ((bits.drop (8 * (j / 8))).take 8) := by
    simp [packAll, hi]
  rw [bitOf, hget, streamBit_packByte hlen]
  have h8 : j % 8 < 8 := Nat.mod_lt _ (by decide)
  simp only [List.getD, List.getElem?_take, h8, if_true, List.getElem?_drop]
  rw [show 8 * (j / 8) + j % 8 = j by omega]

/-- A bit of the bytes that hold a string, its last byte filled up with zeros (43_encoder.md R153). -/
theorem bitOf_packAll_padded {bits : List Bool} {j : Nat} (hj : j < 8 * ceilDiv bits.length 8) :
    bitOf (packAll (ceilDiv bits.length 8) (bits ++ List.replicate 8 false)) j = bits.getD j false := by
  rw [bitOf_packAll hj (by unfold ceilDiv; simp; omega)]
  by_cases h : j < bits.length
  · simp [List.getElem?_append_left h]
  · simp only [List.getD]
    rw [List.getElem?_append_right (by omega), List.getElem?_replicate, List.getElem?_eq_none (by omega : bits.length ≤ j)]
    split <;> rfl

/-! ### Code streams -/

theorem codeStream_append (s : State) (x y : List Byte) : codeStream s (x ++ y) = codeStream s x ++ codeStream s y := by
  simp [codeStream]

theorem codeStream_singleton (s : State) (b : Byte) : codeStream s [b] = codeString (codeAt s.code b) := by
  simp [codeStream]

/-- The code bits of one more byte. -/
theorem codeStream_readList_succ (s : State) (m : Memory) (a n : Nat) :
    codeStream s (m.readList a (n + 1)) = codeStream s (m.readList a n) ++ codeString (codeAt s.code (m.read (a + n))) := by
  rw [Memory.readList_succ, codeStream_append, codeStream_singleton]

/-! ### Lengths of code streams -/

theorem length_codeStream (s : State) (x : List Byte) :
    (codeStream s x).length = (x.map (fun b => (codeAt s.code b).len.toNat)).sum := by
  induction x with
  | nil => rfl
  | cons b x ih =>
    simp only [codeStream, List.flatMap_cons, List.length_append, length_codeString, List.map_cons, List.sum_cons] at ih ⊢
    rw [ih]

/-- The codes of `n` bytes take at most `255 n` bits (30_encoding.md R98). -/
theorem length_codeStream_le (s : State) (x : List Byte) : (codeStream s x).length ≤ 255 * x.length := by
  rw [length_codeStream, Nat.mul_comm]
  exact sum_map_le x _ 255 (fun b _ => by have := (codeAt s.code b).len.isLt; omega)

/-- A sum over a byte sequence, symbol by symbol: count times value (42_code_generator.md R138). -/
theorem sum_by_count (x : List Byte) (g : Byte → Nat) : (x.map g).sum = (allSymbols.map (fun b => x.count b * g b)).sum := by
  induction x with
  | nil => simp
  | cons a x ih =>
    have key : ∀ l : List Byte, l.Nodup → (l.map (fun b => (a :: x).count b * g b)).sum =
        (if a ∈ l then g a else 0) + (l.map (fun b => x.count b * g b)).sum := by
      intro l hl
      induction l with
      | nil => simp
      | cons c l ihl =>
        rw [List.nodup_cons] at hl
        simp only [List.map_cons, List.sum_cons, ihl hl.2]
        by_cases hac : a = c
        · subst hac
          rw [if_neg hl.1, if_pos (by simp), List.count_cons_self, Nat.add_mul]
          omega
        · have hmem : (a ∈ c :: l) = (a ∈ l) := by simp [hac]
          rw [List.count_cons_of_ne (by exact hac)]
          simp only [hmem]
          omega
    rw [List.map_cons, List.sum_cons, ih, key _ nodup_allSymbols, if_pos (mem_allSymbols a)]

/-! ### Reading codes back -/

/-- Bit `j` of the source as it was before the command (44_decoder.md R168). -/
def sourceBit (s : State) (j : Nat) : Bool := streamBit (s.mem.read (s.srcAddr.toNat + j / 8)) j

/-- The first `n` bits of the source. -/
def sourceBits (s : State) (n : Nat) : List Bool := (List.range n).map (sourceBit s)

@[simp] theorem length_sourceBits (s : State) (n : Nat) : (sourceBits s n).length = n := by simp [sourceBits]

theorem sourceBits_succ (s : State) (n : Nat) : sourceBits s (n + 1) = sourceBits s n ++ [sourceBit s n] := by
  simp [sourceBits, List.range_succ]

theorem sourceBits_prefix (s : State) {n k : Nat} (h : n ≤ k) : sourceBits s n <+: sourceBits s k := by
  obtain ⟨d, rfl⟩ := Nat.exists_eq_add_of_le h
  refine ⟨(List.range d).map (fun i => sourceBit s (n + i)), ?_⟩
  simp [sourceBits, List.range_add, Function.comp_def]

/-- Inside the source range the bits are those of the source bytes. -/
theorem bitOf_sourceBytes {s : State} {j : Nat} (h : j / 8 < s.srcLen.toNat) : bitOf (sourceBytes s) j = sourceBit s j := by
  rw [bitOf, sourceBytes, Memory.getD_readList _ _ _ h, sourceBit]

/-- The first bits of the source are a given string exactly when they are it bit by bit. -/
theorem sourceBits_eq {s : State} {l : List Bool} :
    sourceBits s l.length = l ↔ ∀ j, j < l.length → sourceBit s j = l.getD j false := by
  constructor
  · intro h j hj
    rw [← h]
    simp [sourceBits, hj]
  · intro h
    apply List.ext_getElem (by simp)
    intro j h1 h2
    simp [sourceBits, h j h2, h2]

/-- The bits of a sequence of paths. -/
def pathBits (es : List (Byte × List Bool)) : List Bool := es.flatMap Prod.snd

@[simp] theorem pathBits_nil : pathBits [] = [] := rfl

@[simp] theorem pathBits_cons (e : Byte × List Bool) (es : List (Byte × List Bool)) :
    pathBits (e :: es) = e.2 ++ pathBits es := rfl

theorem pathBits_append (es fs : List (Byte × List Bool)) : pathBits (es ++ fs) = pathBits es ++ pathBits fs := by
  simp [pathBits]

/-- Of two paths, one is not a beginning of the other unless they are one (42_code_generator.md R141). -/
theorem Shape.eq_of_prefix {t : Shape} (hn : (t.leaves.map Prod.fst).Nodup) {e e' : Byte × List Bool} (he : e ∈ t.paths)
    (he' : e' ∈ t.paths) (hp : e.2 <+: e'.2) : e = e' := by
  have h := Shape.paths_prefix_free t hn he he' hp
  rw [← Shape.map_fst_paths] at hn
  exact List.inj_on_of_nodup_map hn he he' h

/-- A sequence of paths whose bits begin another's is the beginning of that sequence (44_decoder.md R176). -/
theorem pathBits_prefix {t : Shape} (hp : t.proper) (hn : (t.leaves.map Prod.fst).Nodup) {es fs : List (Byte × List Bool)}
    (he : ∀ e ∈ es, e ∈ t.paths) (hf : ∀ e ∈ fs, e ∈ t.paths) (h : pathBits es <+: pathBits fs) : es <+: fs := by
  induction es generalizing fs with
  | nil => exact List.nil_prefix
  | cons e es ih =>
    have hpos := Shape.one_le_length_paths hp e (he e (by simp))
    cases fs with
    | nil =>
      have := List.IsPrefix.length_le h
      rw [pathBits_cons, List.length_append, pathBits_nil, List.length_nil] at this
      omega
    | cons f fs =>
      rw [pathBits_cons, pathBits_cons] at h
      have hef : e = f := by
        have h1 : e.2 <+: f.2 ++ pathBits fs := (List.prefix_append _ _).trans h
        rcases List.prefix_or_prefix_of_prefix h1 (List.prefix_append f.2 (pathBits fs)) with h2 | h2
        · exact Shape.eq_of_prefix hn (he e (by simp)) (hf f (by simp)) h2
        · exact (Shape.eq_of_prefix hn (hf f (by simp)) (he e (by simp)) h2).symm
      subst hef
      rw [List.prefix_append_right_inj] at h
      exact List.cons_prefix_cons.2 ⟨rfl, ih (fun e h => he e (by simp [h])) (fun e h => hf e (by simp [h])) h⟩

/-- The code bits of symbols are the bits of their paths, where the table holds the paths. -/
theorem codeStream_map_fst {s : State} {t : Shape} (hc : IsCodeTable s t) {es : List (Byte × List Bool)}
    (he : ∀ e ∈ es, e ∈ t.paths) : codeStream s (es.map Prod.fst) = pathBits es := by
  induction es with
  | nil => rfl
  | cons e es ih =>
    rw [List.map_cons, pathBits_cons, ← ih (fun e h => he e (by simp [h]))]
    simp [codeStream, (hc.1 e (he e (by simp))).1]

/-- The symbols with a frequency are those with a path. -/
theorem IsTree.exists_path {s : State} {t : Shape} (ht : IsTree s t) {b : Byte} (hb : freqAt s.freq b ≠ 0#32) :
    ∃ p, (b, p) ∈ t.paths := by
  have h : b ∈ t.paths.map Prod.fst := by
    rw [Shape.map_fst_paths]
    refine ((ht.2.2.2.2.map Prod.fst).mem_iff).2 ?_
    exact List.mem_map.2 ⟨(b, freqAt s.freq b), mem_observed.2 ⟨rfl, hb⟩, rfl⟩
  simpa using h

/-- A sequence of symbols with frequencies is a sequence of paths. -/
theorem IsTree.exists_paths {s : State} {t : Shape} (ht : IsTree s t) {x : List Byte} (hx : ∀ b ∈ x, freqAt s.freq b ≠ 0#32) :
    ∃ es : List (Byte × List Bool), (∀ e ∈ es, e ∈ t.paths) ∧ es.map Prod.fst = x := by
  induction x with
  | nil => exact ⟨[], by simp, rfl⟩
  | cons b x ih =>
    obtain ⟨es, h1, h2⟩ := ih (fun b h => hx b (by simp [h]))
    obtain ⟨p, hp⟩ := ht.exists_path (hx b (by simp))
    exact ⟨(b, p) :: es, by simpa using ⟨hp, fun a b h => h1 _ h⟩, by simp [h2]⟩

theorem IsTree.nodup_leaves {s : State} {t : Shape} (ht : IsTree s t) : (t.leaves.map Prod.fst).Nodup :=
  ((ht.2.2.2.2.map Prod.fst).nodup_iff).2 (nodup_map_fst_observed s.freq)

theorem IsTree.nodup_indices {s : State} {t : Shape} (ht : IsTree s t) : t.indices.Nodup :=
  (ht.2.2.2.1.nodup_iff).2 List.nodup_range

end Sys2Proof.Machine
end

