-- ==== Sys2Proof/Laws/Encoder.lean ====
section
/-! SUPPORT. ENCODE's stream: everything it can do, on every path (43_encoder.md R150; 60_exceptions.md R208 to R210). -/

namespace Sys2Proof.Machine

/-- Where a precheck passes, the three conditions it tests hold. -/
theorem codecPrecheck_none {s : State} (h : codecPrecheck s = none) :
    s.codesValid = true ∧ inRange s.srcAddr s.srcLen = true ∧ inRange s.dstAddr s.dstCap = true ∧
      overlaps s.srcAddr s.srcLen s.dstAddr s.dstCap = false := by
  unfold codecPrecheck at h
  split at h
  · cases h
  · next h1 =>
    split at h
    · cases h
    · next h2 =>
      split at h
      · cases h
      · next h3 =>
        simp only [Bool.or_eq_true, Bool.not_eq_true', not_or, Bool.not_eq_false] at h1 h2 h3
        exact ⟨h1, h2.1, h2.2, by simpa using h3⟩

theorem codecPrecheck_some {s : State} {e : ErrCode} (h : codecPrecheck s = some e) :
    e = .noCodes ∨ e = .addrRange ∨ e = .overlap := by
  unfold codecPrecheck at h
  split at h
  · cases h; simp
  · split at h
    · cases h; simp
    · split at h
      · cases h; simp
      · cases h

/-- The code bits of the source bytes consumed so far. -/
def EncodeRun.stream (s : State) (st : EncodeRun) : List Bool := codeStream s (s.mem.readList s.srcAddr.toNat st.inc)

/-- What every state of an ENCODE stream keeps. Where the host did not race, the bytes consumed all have codes, and their code
bits are, in order, the bytes written and then the pending bits (R152, R156); the whole bytes of all but the last source byte are
written, for they were due before that byte was read (R208). -/
structure EncodeKeeps (s : State) (st : EncodeRun) : Prop where
  streamed : Streamed s st.mem st.out
  inc_le : st.inc ≤ s.srcLen.toNat
  reads : ReadsComplete s s.srcAddr st.inc
  count : st.bits = 8 * st.out + st.buf.length
  codes : NoRace s → ∀ b ∈ s.mem.readList s.srcAddr.toNat st.inc, (codeAt s.code b).len ≠ 0#8
  length : NoRace s → st.bits = (st.stream s).length
  pending : NoRace s → st.buf = (st.stream s).drop (8 * st.out)
  prior : NoRace s → (codeStream s (s.mem.readList s.srcAddr.toNat (st.inc - 1))).length / 8 ≤ st.out
  bytes : NoRace s → s.mem.wf = true → st.mem.readList s.dstAddr.toNat st.out = packAll st.out (st.stream s)

/-- An output byte is due: eight bits are pending, or fewer at the end of the source (R152, R153). -/
def ByteDue (s : State) (st : EncodeRun) : Prop := st.buf ≠ [] ∧ (st.buf.length < 8 → st.inc = s.srcLen.toNat)

/-- What holds where an ENCODE stream halts after its prechecks: which reason stands where. -/
def EncodeStops (s : State) (st : EncodeRun) (why : Halt) : Prop :=
  EncodeKeeps s st ∧
  ((why = .error .noCodeForSymbol ∧ st.inc < s.srcLen.toNat ∧ st.buf.length < 8 ∧
      readAnswer s (s.srcAddr + BitVec.ofNat 32 st.inc) = .completes ∧
      (NoRace s → (codeAt s.code (s.mem.read (s.srcAddr.toNat + st.inc))).len = 0#8)) ∨
    (why = .error .dstFull ∧ st.out = s.dstCap.toNat ∧ ByteDue s st) ∨
    (st.inc < s.srcLen.toNat ∧ st.buf.length < 8 ∧
      (readAnswer s (s.srcAddr + BitVec.ofNat 32 st.inc)).Halts (s.srcAddr + BitVec.ofNat 32 st.inc) why) ∨
    (st.out < s.dstCap.toNat ∧ ByteDue s st ∧
      (writeAnswer s (s.dstAddr + BitVec.ofNat 32 st.out)).Halts (s.dstAddr + BitVec.ofNat 32 st.out) why))

/-- What holds where an ENCODE stream reaches its end (R153, R156). -/
structure EncodeDone (s : State) (st : EncodeRun) : Prop where
  streamed : Streamed s st.mem st.out
  inc : st.inc = s.srcLen.toNat
  reads : ReadsComplete s s.srcAddr s.srcLen.toNat
  out : st.out = ceilDiv st.bits 8
  codes : NoRace s → ∀ b ∈ sourceBytes s, (codeAt s.code b).len ≠ 0#8
  length : NoRace s → st.bits = (codeStream s (sourceBytes s)).length
  bytes : NoRace s → s.mem.wf = true →
    st.mem.readList s.dstAddr.toNat st.out = packAll st.out (codeStream s (sourceBytes s) ++ List.replicate 8 false)

/-- What one emission does: it stops at the capacity or at the access, or appends one byte. -/
theorem emitByte_post {s : State} {st : EncodeRun} (q : List Bool) (hr : inRange s.dstAddr s.dstCap = true)
    (h : Streamed s st.mem st.out) :
    (emitByte s q st).Post
      (fun st' => ∃ m, st' = { st with mem := m, out := st.out + 1 } ∧ Streamed s m (st.out + 1) ∧
        (NoRace s → s.mem.wf = true →
          m.readList s.dstAddr.toNat (st.out + 1) = st.mem.readList s.dstAddr.toNat st.out ++ [packByte q]))
      (fun st' why => st' = st ∧ ((why = .error .dstFull ∧ st.out = s.dstCap.toNat) ∨
        (st.out < s.dstCap.toNat ∧
          (writeAnswer s (s.dstAddr + BitVec.ofNat 32 st.out)).Halts (s.dstAddr + BitVec.ofNat 32 st.out) why))) := by
  unfold emitByte
  split
  · next hc => exact ⟨rfl, Or.inl ⟨rfl, hc⟩⟩
  · next hc =>
    have hlt : st.out < s.dstCap.toNat := lt_of_le_of_ne h.out_le hc
    split
    · next why hw => exact ⟨rfl, Or.inr ⟨hlt, portWrite_error hw⟩⟩
    · next m hw => exact ⟨m, rfl, h.write hr hlt hw⟩

/-- Where an emission stops with a byte due, the stream stops. -/
theorem EncodeKeeps.stops {s : State} {st st' : EncodeRun} {why : Halt} (h : EncodeKeeps s st) (hb : ByteDue s st)
    (hs : st' = st ∧ ((why = .error .dstFull ∧ st.out = s.dstCap.toNat) ∨
      (st.out < s.dstCap.toNat ∧
        (writeAnswer s (s.dstAddr + BitVec.ofNat 32 st.out)).Halts (s.dstAddr + BitVec.ofNat 32 st.out) why))) :
    EncodeStops s st' why := by
  obtain ⟨rfl, ⟨rfl, ho⟩ | ⟨ho, ha⟩⟩ := hs
  · exact ⟨h, Or.inr (Or.inl ⟨rfl, ho, hb⟩)⟩
  · exact ⟨h, Or.inr (Or.inr (Or.inr ⟨ho, hb, ha⟩))⟩

theorem drainBuffer_post {s : State} (hr : inRange s.dstAddr s.dstCap = true) (fuel : Nat) {st : EncodeRun}
    (h : EncodeKeeps s st) (hf : st.buf.length ≤ fuel) :
    (drainBuffer s fuel st).Post (fun st' => EncodeKeeps s st' ∧ st'.inc = st.inc ∧ st'.buf.length < 8) (EncodeStops s) := by
  induction fuel generalizing st with
  | zero => exact ⟨h, rfl, by omega⟩
  | succ fuel ih =>
    unfold drainBuffer
    split
    · next h8 =>
      have hne : ByteDue s st := ⟨by rintro he; simp [he] at h8, fun h => by omega⟩
      refine ((emitByte_post (st.buf.take 8) hr h.streamed).mono (fun _ h' => h') (fun _ _ => h.stops hne)).andThen ?_
      rintro _ ⟨m, rfl, hm, hbytes⟩
      have hk : EncodeKeeps s { st with mem := m, out := st.out + 1, buf := st.buf.drop 8 } := by
        refine ⟨hm, h.inc_le, h.reads, ?_, h.codes, h.length, fun hn => ?_, fun hn => Nat.le_succ_of_le (h.prior hn),
          fun hn hw => ?_⟩
        · simp only [h.count, List.length_drop]; omega
        · show st.buf.drop 8 = (st.stream s).drop (8 * (st.out + 1))
          rw [h.pending hn, List.drop_drop]
          congr 1
        · show m.readList _ _ = packAll (st.out + 1) (st.stream s)
          rw [hbytes hn hw, h.bytes hn hw, packAll_succ, h.pending hn]
      exact (ih hk (by simp only [List.length_drop]; omega)).mono (fun _ h3 => h3) (fun _ _ h3 => h3)
    · exact ⟨h, rfl, by omega⟩

theorem encodeByte_post {s : State} {st : EncodeRun} (hp : codecPrecheck s = none) (h : EncodeKeeps s st)
    (hi : st.inc < s.srcLen.toNat) (hb : st.buf.length < 8) :
    (encodeByte s st.inc st).Post (fun st' => EncodeKeeps s st' ∧ st'.inc = st.inc + 1 ∧ st'.buf.length < 8)
      (EncodeStops s) := by
  obtain ⟨-, hs, hd, ho⟩ := codecPrecheck_none hp
  unfold encodeByte
  split
  · next why hw => exact ⟨h, Or.inr (Or.inr (Or.inl ⟨hi, hb, portRead_error hw⟩))⟩
  · next b hread =>
    obtain ⟨hc, hv⟩ := h.streamed.read hs ho hi hread
    simp only
    split
    · next hl => exact ⟨h, Or.inl ⟨rfl, hi, hb, hc, fun hn => hv hn ▸ hl⟩⟩
    · next hl =>
      have hstream : NoRace s → codeStream s (s.mem.readList s.srcAddr.toNat (st.inc + 1)) =
          st.stream s ++ codeString (codeAt s.code b) := fun hn => by
        rw [codeStream_readList_succ, ← hv hn]; rfl
      have hlen : NoRace s → 8 * st.out ≤ (st.stream s).length := fun hn => by
        have h1 := h.length hn; have h2 := h.count; omega
      refine drainBuffer_post hd _ (st := { st with buf := _, inc := _, bits := _ })
        ⟨h.streamed, hi, h.reads.succ hc, ?_, fun hn => ?_, fun hn => ?_, fun hn => ?_, fun hn => ?_, fun hn hw => ?_⟩ (Nat.le_refl _)
      · simp only [h.count, List.length_append, length_codeString]; omega
      · intro x hx
        rw [Memory.readList_succ, List.mem_append, List.mem_singleton] at hx
        rcases hx with hx | rfl
        · exact h.codes hn x hx
        · rw [← hv hn]; exact hl
      · simp only [EncodeRun.stream, hstream hn, h.length hn, List.length_append, length_codeString]
      · rw [EncodeRun.stream, hstream hn, List.drop_append_of_le_length (hlen hn), ← h.pending hn]
      · have h1 := h.length hn
        have h2 := h.count
        show (codeStream s (s.mem.readList s.srcAddr.toNat (st.inc + 1 - 1))).length / 8 ≤ st.out
        rw [Nat.add_sub_cancel]
        unfold EncodeRun.stream at h1
        omega
      · rw [EncodeRun.stream, hstream hn, packAll_append _ _ (hlen hn)]
        exact h.bytes hn hw

theorem encodeBytes_post {s : State} (hp : codecPrecheck s = none) (n : Nat) {st : EncodeRun} (h : EncodeKeeps s st)
    (hi : st.inc + n = s.srcLen.toNat) (hb : st.buf.length < 8) :
    (encodeBytes s n st.inc st).Post (fun st' => EncodeKeeps s st' ∧ st'.inc = s.srcLen.toNat ∧ st'.buf.length < 8)
      (EncodeStops s) := by
  induction n generalizing st with
  | zero => exact ⟨h, by simpa using hi, hb⟩
  | succ n ih =>
    refine (encodeByte_post hp h (by omega) hb).andThen (fun st' h' => ?_)
    have h2 := ih h'.1 (by omega) h'.2.2
    rwa [h'.2.1] at h2

theorem encodePad_post {s : State} {st : EncodeRun} (hr : inRange s.dstAddr s.dstCap = true) (h : EncodeKeeps s st)
    (hi : st.inc = s.srcLen.toNat) (hb : st.buf.length < 8) :
    (encodePad s st).Post (EncodeDone s) (EncodeStops s) := by
  have hstream : st.stream s = codeStream s (sourceBytes s) := by simp only [EncodeRun.stream, hi, sourceBytes]
  have hlen : NoRace s → 8 * st.out ≤ (st.stream s).length := fun hn => by
    have h1 := h.length hn; have h2 := h.count; omega
  unfold encodePad
  split
  · next he =>
    have hc := h.count
    rw [he, List.length_nil] at hc
    refine ⟨h.streamed, hi, hi ▸ h.reads, by unfold ceilDiv; omega, fun hn => ?_, fun hn => hstream ▸ h.length hn,
      fun hn hw => ?_⟩
    · rw [sourceBytes, ← hi]; exact h.codes hn
    · rw [h.bytes hn hw, ← hstream, packAll_append _ _ (hlen hn)]
  · next he =>
    have h0 : 0 < st.buf.length := List.length_pos_iff.2 he
    have hc := h.count
    refine ((emitByte_post (padByte st.buf) hr h.streamed).mono (fun _ h' => h') (fun _ _ => h.stops ⟨he, fun _ => hi⟩)).andThen ?_
    rintro _ ⟨m, rfl, hm, hbytes⟩
    refine ⟨hm, hi, hi ▸ h.reads, ?_, fun hn => ?_, fun hn => hstream ▸ h.length hn, fun hn hw => ?_⟩
    · show st.out + 1 = ceilDiv st.bits 8
      unfold ceilDiv; omega
    · rw [sourceBytes, ← hi]; exact h.codes hn
    · have hpad : ((st.stream s ++ List.replicate 8 false).drop (8 * st.out)).take 8 = padByte st.buf := by
        rw [List.drop_append_of_le_length (hlen hn), ← h.pending hn, padByte, List.take_append,
          List.take_of_length_le (by omega), List.take_replicate]
        congr 2
        omega
      show m.readList _ (st.out + 1) = packAll (st.out + 1) _
      rw [hbytes hn hw, h.bytes hn hw, ← hstream, packAll_succ, packAll_append _ _ (hlen hn), hpad]

theorem encodeStart_keeps (s : State) : EncodeKeeps s (encodeStart s) := by
  refine ⟨Streamed.start s, Nat.zero_le _, fun _ hk => absurd hk (Nat.not_lt_zero _), rfl, ?_, ?_, ?_, ?_, ?_⟩ <;>
    simp [encodeStart, EncodeRun.stream, codeStream, Memory.readList, packAll]

/-- The whole stream: it fails a precheck at its start, or it runs and, where it stops, stops as `EncodeStops` says. -/
theorem encodeStream_cases (s : State) :
    (∃ e, codecPrecheck s = some e ∧ encodeStream s = .halt (encodeStart s) (.error e)) ∨
    (codecPrecheck s = none ∧ (encodeStream s).Post (EncodeDone s) (EncodeStops s)) := by
  cases hp : codecPrecheck s with
  | some e => exact Or.inl ⟨e, rfl, by simp [encodeStream, hp]⟩
  | none =>
    refine Or.inr ⟨rfl, ?_⟩
    simp only [encodeStream, hp]
    refine (encodeBytes_post (st := encodeStart s) hp s.srcLen.toNat (encodeStart_keeps s) (by simp [encodeStart])
      (by simp [encodeStart])).andThen (fun st h => ?_)
    exact encodePad_post (codecPrecheck_none hp).2.2.1 h.1 h.2.1 h.2.2

/-- The stream reaches its end where every access it makes completes, every source byte has a code and the output fits. -/
theorem encodeStream_completes {s : State} (hp : codecPrecheck s = none) (hn : NoRace s)
    (hr : ReadsComplete s s.srcAddr s.srcLen.toNat)
    (hw : WritesComplete s s.dstAddr (ceilDiv (codeStream s (sourceBytes s)).length 8))
    (hcode : ∀ b ∈ sourceBytes s, (codeAt s.code b).len ≠ 0#8)
    (hcap : ceilDiv (codeStream s (sourceBytes s)).length 8 ≤ s.dstCap.toNat) :
    ∃ st, encodeStream s = .go st ∧ EncodeDone s st := by
  rcases encodeStream_cases s with ⟨e, he, -⟩ | ⟨-, hpost⟩
  · rw [hp] at he; cases he
  · refine (hpost.mono (fun _ h => h) (fun st why hs => ?_)).goes
    obtain ⟨hk, hs⟩ := hs
    have hle : (st.stream s).length ≤ (codeStream s (sourceBytes s)).length := by
      obtain ⟨r, hr⟩ := Memory.readList_prefix s.mem s.srcAddr.toNat hk.inc_le
      rw [sourceBytes, ← hr, codeStream_append, List.length_append, EncodeRun.stream]
      omega
    have hbits := hk.length hn
    have hcount := hk.count
    have hroom : st.buf ≠ [] → st.out < ceilDiv (codeStream s (sourceBytes s)).length 8 := fun hb => by
      have := List.length_pos_iff.2 hb
      unfold ceilDiv; omega
    rcases hs with ⟨-, hi, -, -, hl⟩ | ⟨-, ho, hb⟩ | ⟨hi, -, ha⟩ | ⟨-, hb, ha⟩
    · exact hcode _ (Memory.mem_readList.2 ⟨st.inc, hi, rfl⟩) (hl hn)
    · have := hroom hb.1; omega
    · rw [hr _ hi] at ha; exact ha
    · rw [hw _ (hroom hb.1)] at ha; exact ha

end Sys2Proof.Machine
end

