-- ==== Sys2Proof/Laws/Decoder.lean ====
section
/-! SUPPORT. DECODE's stream: everything it can do, on every path (44_decoder.md R165; 60_exceptions.md R208 to R210). -/

namespace Sys2Proof.Machine

/-! ### One level of a tree -/

/-- The child a bit selects at an internal node (44_decoder.md R169, R170): none at the right of a wrapper, else the root of a
subtree, whose paths are behind that bit. -/
theorem Shape.child {arena : Vector Node 511} {c : Shape} (hc : c.heldBy arena)
    (hl : (nodeAt arena (BitVec.ofNat 9 c.idx)).leaf = false) (b : Bool) :
    ((∃ i d, c = .wrap i d) ∧ b = true ∧ childOf (nodeAt arena (BitVec.ofNat 9 c.idx)) b = NIL) ∨
    ∃ d : Shape, childOf (nodeAt arena (BitVec.ofNat 9 c.idx)) b = BitVec.ofNat 9 d.idx ∧ d.heldBy arena ∧
      (∀ e ∈ d.paths, (e.1, b :: e.2) ∈ c.paths) ∧ (c.full ∨ c.proper → d.full) ∧ (∀ i ∈ d.indices, i ∈ c.indices) ∧
      (c.indices.Nodup → c.idx ∉ d.indices) := by
  cases c with
  | leaf i x w => rw [Shape.idx_leaf, hc.2] at hl; cases hl
  | wrap i d =>
    rw [Shape.idx_wrap, hc.2.1]
    cases b with
    | true => exact Or.inl ⟨⟨i, d, rfl⟩, rfl, rfl⟩
    | false =>
      refine Or.inr ⟨d, rfl, hc.2.2, fun e he => List.mem_map.2 ⟨e, he, rfl⟩, ?_, fun j hj => List.mem_cons_of_mem _ hj,
        fun hn => (List.nodup_cons.1 hn).1⟩
      rintro (h | ⟨j, x, w, rfl⟩)
      · exact h.elim
      · trivial
  | fork i l r =>
    have hfull : (Shape.fork i l r).full ∨ (Shape.fork i l r).proper → l.full ∧ r.full := fun h => h.elim id id
    rw [Shape.idx_fork, hc.2.1]
    refine Or.inr ?_
    cases b with
    | true =>
      exact ⟨r, rfl, hc.2.2.2, fun e he => List.mem_append_right _ (List.mem_map.2 ⟨e, he, rfl⟩), fun h => (hfull h).2,
        fun j hj => List.mem_cons_of_mem _ (List.mem_append_right _ hj),
        fun hn hi => (List.nodup_cons.1 hn).1 (List.mem_append_right _ hi)⟩
    | false =>
      exact ⟨l, rfl, hc.2.2.1, fun e he => List.mem_append_left _ (List.mem_map.2 ⟨e, he, rfl⟩), fun h => (hfull h).1,
        fun j hj => List.mem_cons_of_mem _ (List.mem_append_left _ hj),
        fun hn hi => (List.nodup_cons.1 hn).1 (List.mem_append_left _ hi)⟩

/-- A held tree whose root is a leaf is that leaf. -/
theorem Shape.eq_leaf {arena : Vector Node 511} {c : Shape} (hc : c.heldBy arena)
    (hl : (nodeAt arena (BitVec.ofNat 9 c.idx)).leaf = true) :
    ∃ w, c = .leaf c.idx (nodeAt arena (BitVec.ofNat 9 c.idx)).sym w := by
  cases c with
  | leaf i x w => exact ⟨w, by rw [Shape.idx_leaf, hc.2]⟩
  | wrap i d => rw [Shape.idx_wrap, hc.2.1] at hl; cases hl
  | fork i l r => rw [Shape.idx_fork, hc.2.1] at hl; cases hl

theorem Shape.idx_mem_indices (t : Shape) : t.idx ∈ t.indices := by cases t <;> simp [Shape.idx, Shape.indices]

theorem Shape.paths_ne_nil (t : Shape) : t.paths ≠ [] := by
  induction t with
  | leaf i x w => simp [Shape.paths]
  | wrap i t ih => simpa [Shape.paths] using ih
  | fork i l r ihl ihr => simp [Shape.paths, ihl]

/-! ### The walk -/

/-- Where a stream stands in the tree `t`: it has followed the paths `es` to their leaves and then the path `p` to the subtree `c`
(44_decoder.md R169). -/
structure Walked (s : State) (t : Shape) (st : DecodeRun) (es : List (Byte × List Bool)) (p : List Bool) (c : Shape) : Prop where
  cur : st.cur = BitVec.ofNat 9 c.idx
  held : c.heldBy s.node
  inner : (nodeAt s.node (BitVec.ofNat 9 c.idx)).leaf = false
  sub : ∀ e ∈ c.paths, (e.1, p ++ e.2) ∈ t.paths
  place : (c = t ∧ p = []) ∨ (c.full ∧ p ≠ [] ∧ t.idx ∉ c.indices)
  done : ∀ e ∈ es, e ∈ t.paths
  out : st.out = es.length
  bits : st.bits = (pathBits es ++ p).length
  stream : NoRace s → sourceBits s st.bits = pathBits es ++ p
  bytes : NoRace s → s.mem.wf = true → st.mem.readList s.dstAddr.toNat st.out = es.map Prod.fst

/-- Back at the root, with no path under way. -/
theorem IsTree.walked {s : State} {t : Shape} (ht : IsTree s t) {st : DecodeRun} {es : List (Byte × List Bool)}
    (cur : st.cur = s.root) (done : ∀ e ∈ es, e ∈ t.paths) (out : st.out = es.length)
    (bits : st.bits = (pathBits es).length) (stream : NoRace s → sourceBits s st.bits = pathBits es)
    (bytes : NoRace s → s.mem.wf = true → st.mem.readList s.dstAddr.toNat st.out = es.map Prod.fst) :
    Walked s t st es [] t := by
  have hroot : (nodeAt s.node (BitVec.ofNat 9 t.idx)).leaf = false := by
    have hp := ht.2.1
    have hh := ht.1
    cases t with
    | leaf i x w => exact hp.elim
    | wrap i d => rw [Shape.idx_wrap, hh.2.1]
    | fork i l r => rw [Shape.idx_fork, hh.2.1]
  exact ⟨cur.trans ht.2.2.1, ht.1, hroot, fun e he => by simpa using he, Or.inl ⟨rfl, rfl⟩, done, out, by simpa using bits,
    fun hn => by simpa using stream hn, bytes⟩

/-- What every state of a DECODE stream keeps. -/
structure DecodeKeeps (s : State) (st : DecodeRun) : Prop where
  streamed : Streamed s st.mem st.out
  bits_le : st.bits ≤ s.tbits.toNat
  reads : ReadsComplete s s.srcAddr (ceilDiv st.bits 8)
  byte : NoRace s → st.bits % 8 ≠ 0 → st.byte = s.mem.read (s.srcAddr.toNat + st.bits / 8)
  walk : ∀ t, IsTree s t → ∃ es p c, Walked s t st es p c

/-- What the next stream bit does at the cursor: it selects a child, `d`, and without a race it is the source's bit. -/
def AtBit (s : State) (st : DecodeRun) (b : Bool) (d : NodeIdx) : Prop :=
  st.bits < s.tbits.toNat ∧ d = childOf (nodeAt s.node st.cur) b ∧ (NoRace s → b = sourceBit s st.bits)

/-- What holds where a DECODE stream halts after its prechecks: which reason stands where. -/
def DecodeStops (s : State) (st : DecodeRun) (why : Halt) : Prop :=
  DecodeKeeps s st ∧
  ((why = .error .absentChild ∧ ∃ b, AtBit s st b NIL) ∨
    (why = .error .dstFull ∧ st.out = s.dstCap.toNat ∧
      ∃ b d, AtBit s st b d ∧ d ≠ NIL ∧ (nodeAt s.node d).leaf = true) ∨
    (st.bits < s.tbits.toNat ∧ st.bits % 8 = 0 ∧
      (readAnswer s (s.srcAddr + BitVec.ofNat 32 (st.bits / 8))).Halts (s.srcAddr + BitVec.ofNat 32 (st.bits / 8)) why) ∨
    (st.out < s.dstCap.toNat ∧ (∃ b d, AtBit s st b d ∧ d ≠ NIL ∧ (nodeAt s.node d).leaf = true) ∧
      (writeAnswer s (s.dstAddr + BitVec.ofNat 32 st.out)).Halts (s.dstAddr + BitVec.ofNat 32 st.out) why) ∨
    (why = .error .partialCode ∧ st.bits = s.tbits.toNat ∧ st.cur ≠ s.root) ∨
    (why = .error .countMismatch ∧ st.bits = s.tbits.toNat ∧ st.cur = s.root ∧ st.out ≠ s.total.toNat))

/-- What holds where a DECODE stream reaches its end. -/
def DecodeDone (s : State) (st : DecodeRun) : Prop :=
  DecodeKeeps s st ∧ st.bits = s.tbits.toNat ∧ st.cur = s.root ∧ st.out = s.total.toNat

/-- A subtree below the root is not the root: where the cursor is at `ROOT`, no path is under way. -/
theorem Walked.at_root {s : State} {t : Shape} {st : DecodeRun} {es : List (Byte × List Bool)} {p : List Bool} {c : Shape}
    (ht : IsTree s t) (h : Walked s t st es p c) : st.cur = s.root ↔ p = [] := by
  have h1 := Shape.idx_lt h.held
  have h2 := Shape.idx_lt ht.1
  rw [h.cur, ht.2.2.1]
  constructor
  · intro he
    have hi : c.idx = t.idx := by
      have := congrArg BitVec.toNat he
      simp at this; omega
    rcases h.place with ⟨-, hp⟩ | ⟨-, -, hn⟩
    · exact hp
    · exact absurd (hi ▸ Shape.idx_mem_indices c) hn
  · intro hp
    rcases h.place with ⟨rfl, -⟩ | ⟨-, hn, -⟩
    · rfl
    · exact absurd hp hn

/-- A child that is there, one bit further: a leaf's path is whole, or the path goes on below an inner node. -/
theorem Walked.child {s : State} {t : Shape} {st : DecodeRun} {es : List (Byte × List Bool)} {p : List Bool} {c : Shape}
    (ht : IsTree s t) (h : Walked s t st es p c) {b : Bool} {d : NodeIdx} (hd : d = childOf (nodeAt s.node st.cur) b)
    (hne : d ≠ NIL) :
    ((nodeAt s.node d).leaf = true → ((nodeAt s.node d).sym, p ++ [b]) ∈ t.paths) ∧
    ((nodeAt s.node d).leaf = false → ∃ c' : Shape, d = BitVec.ofNat 9 c'.idx ∧ c'.heldBy s.node ∧
      (∀ e ∈ c'.paths, (e.1, (p ++ [b]) ++ e.2) ∈ t.paths) ∧ c'.full ∧ t.idx ∉ c'.indices) := by
  rw [h.cur] at hd
  rcases Shape.child h.held h.inner b with ⟨-, -, hnil⟩ | ⟨c', hc', hheld, hsub, hfull, hmem, hidx⟩
  · exact absurd (hd.trans hnil) hne
  · rw [hc'] at hd
    subst hd
    have hsub' : ∀ e ∈ c'.paths, (e.1, (p ++ [b]) ++ e.2) ∈ t.paths := fun e he => by
      have := h.sub _ (hsub e he)
      simpa using this
    constructor
    · intro hl
      obtain ⟨w, hw⟩ := Shape.eq_leaf hheld hl
      have := hsub' ((nodeAt s.node (BitVec.ofNat 9 c'.idx)).sym, []) (by rw [hw]; simp [Shape.paths, Shape.idx_leaf])
      simpa using this
    · intro _
      refine ⟨c', rfl, hheld, hsub', hfull ?_, ?_⟩
      · rcases h.place with ⟨rfl, -⟩ | ⟨hf, -, -⟩
        · exact Or.inr ht.2.1
        · exact Or.inl hf
      · rcases h.place with ⟨rfl, -⟩ | ⟨-, -, hn⟩
        · exact hidx ht.nodup_indices
        · exact fun hm => hn (hmem _ hm)

/-- The state after the source byte of bit `st.bits` has been fetched. -/
structure Fetched (s : State) (j : Nat) (st : DecodeRun) : Prop where
  keeps : DecodeKeeps s st
  at_bit : st.bits = j
  read : ReadsComplete s s.srcAddr (j / 8 + 1)
  byte : NoRace s → st.byte = s.mem.read (s.srcAddr.toNat + j / 8)

theorem fetchByte_post {s : State} {j : Nat} {st : DecodeRun} (hp : codecPrecheck s = none)
    (hlen : ceilDiv s.tbits.toNat 8 ≤ s.srcLen.toNat) (h : DecodeKeeps s st) (hb : st.bits = j) (hj : j < s.tbits.toNat) :
    (fetchByte s j st).Post (Fetched s j) (DecodeStops s) := by
  obtain ⟨-, hs, -, ho⟩ := codecPrecheck_none hp
  have hk : j / 8 < s.srcLen.toNat := by unfold ceilDiv at hlen; omega
  have hreads := h.reads
  rw [hb] at hreads
  unfold fetchByte
  split
  · next h8 =>
    have hc : ceilDiv j 8 = j / 8 := by unfold ceilDiv; omega
    rw [hc] at hreads
    split
    · next why hw => exact ⟨h, Or.inr (Or.inr (Or.inl ⟨hb ▸ hj, hb ▸ h8, hb ▸ portRead_error hw⟩))⟩
    · next b hread =>
      obtain ⟨hcomp, hv⟩ := h.streamed.read hs ho hk hread
      refine ⟨⟨h.streamed, h.bits_le, h.reads, fun hn _ => by simp only [hv hn, hb], fun t ht => ?_⟩, hb, hreads.succ hcomp, hv⟩
      obtain ⟨es, p, c, hw⟩ := h.walk t ht
      exact ⟨es, p, c, ⟨hw.cur, hw.held, hw.inner, hw.sub, hw.place, hw.done, hw.out, hw.bits, hw.stream, hw.bytes⟩⟩
  · next h8 =>
    have hc : ceilDiv j 8 = j / 8 + 1 := by unfold ceilDiv; omega
    exact ⟨h, hb, hc ▸ hreads, fun hn => by rw [h.byte hn (hb ▸ h8), hb]⟩

theorem walkBit_post {s : State} {j : Nat} {st : DecodeRun} (hr : inRange s.dstAddr s.dstCap = true) (h : Fetched s j st)
    (hj : j < s.tbits.toNat) :
    (walkBit s j st).Post (fun st' => DecodeKeeps s st' ∧ st'.bits = j + 1) (DecodeStops s) := by
  obtain ⟨hk, hb, hread, hbyte⟩ := h
  have hat : AtBit s st (streamBit st.byte j) (childOf (nodeAt s.node st.cur) (streamBit st.byte j)) :=
    ⟨hb ▸ hj, rfl, fun hn => by rw [hbyte hn, hb]; rfl⟩
  have hreads : ReadsComplete s s.srcAddr (ceilDiv (j + 1) 8) := by
    rw [show ceilDiv (j + 1) 8 = j / 8 + 1 by unfold ceilDiv; omega]; exact hread
  have hbyte' : NoRace s → (j + 1) % 8 ≠ 0 → st.byte = s.mem.read (s.srcAddr.toNat + (j + 1) / 8) := fun hn h8 => by
    rw [hbyte hn, show (j + 1) / 8 = j / 8 by omega]
  have hnext : ∀ {es : List (Byte × List Bool)} {p : List Bool}, NoRace s → sourceBits s st.bits = pathBits es ++ p →
      sourceBits s (j + 1) = pathBits es ++ (p ++ [streamBit st.byte j]) := fun {es p} hn hst => by
    rw [sourceBits_succ, ← hb, hst, hb, List.append_assoc, hbyte hn]; rfl
  unfold walkBit
  simp only
  split
  · next hn => exact ⟨hk, Or.inl ⟨rfl, _, hn ▸ hat⟩⟩
  · next hne =>
    split
    · next hl =>
      split
      · next hc => exact ⟨hk, Or.inr (Or.inl ⟨rfl, hc, _, _, hat, hne, hl⟩)⟩
      · next hc =>
        have hlt : st.out < s.dstCap.toNat := lt_of_le_of_ne hk.streamed.out_le hc
        split
        · next why hw => exact ⟨hk, Or.inr (Or.inr (Or.inr (Or.inl ⟨hlt, ⟨_, _, hat, hne, hl⟩, portWrite_error hw⟩)))⟩
        · next m hw =>
          obtain ⟨hstr, hbytes⟩ := hk.streamed.write hr hlt hw
          refine ⟨⟨hstr, hj, hreads, hbyte', fun t ht => ?_⟩, rfl⟩
          obtain ⟨es, p, c, hwk⟩ := hk.walk t ht
          have hmem := (hwk.child ht hat.2.1 hne).1 hl
          refine ⟨es ++ [((nodeAt s.node (childOf (nodeAt s.node st.cur) (streamBit st.byte j))).sym,
            p ++ [streamBit st.byte j])], [], t, ht.walked rfl ?_ ?_ ?_ (fun hn => ?_) (fun hn hwf => ?_)⟩
          · intro e he
            rcases List.mem_append.1 he with he | he
            · exact hwk.done e he
            · rw [List.mem_singleton.1 he]; exact hmem
          · simp [hwk.out]
          · have hb' := hwk.bits
            simp only [pathBits_append, pathBits_cons, pathBits_nil, List.append_nil, List.length_append,
              List.length_singleton] at hb' ⊢
            omega
          · rw [pathBits_append, pathBits_cons, pathBits_nil, List.append_nil]
            exact hnext hn (hwk.stream hn)
          · rw [hbytes hn hwf, hwk.bytes hn hwf]; simp
    · next hl =>
      refine ⟨⟨hk.streamed, hj, hreads, hbyte', fun t ht => ?_⟩, rfl⟩
      obtain ⟨es, p, c, hwk⟩ := hk.walk t ht
      obtain ⟨c', hc', hheld, hsub, hfull, hidx⟩ := (hwk.child ht hat.2.1 hne).2 (by simpa using hl)
      refine ⟨es, p ++ [streamBit st.byte j], c', hc', hheld, by rw [← hc']; simpa using hl, hsub,
        Or.inr ⟨hfull, by simp, hidx⟩, hwk.done, hwk.out, ?_, fun hn => hnext hn (hwk.stream hn), hwk.bytes⟩
      have hb' := hwk.bits
      simp only [List.length_append, List.length_singleton] at hb' ⊢
      omega

theorem decodeBits_post {s : State} (hp : codecPrecheck s = none) (hlen : ceilDiv s.tbits.toNat 8 ≤ s.srcLen.toNat) (n : Nat)
    {st : DecodeRun} (h : DecodeKeeps s st) (hn : st.bits + n = s.tbits.toNat) :
    (decodeBits s n st.bits st).Post (fun st' => DecodeKeeps s st' ∧ st'.bits = s.tbits.toNat) (DecodeStops s) := by
  induction n generalizing st with
  | zero => exact ⟨h, by simpa using hn⟩
  | succ n ih =>
    unfold decodeBits
    refine Flow.Post.andThen (Flow.Post.andThen (fetchByte_post hp hlen h rfl (by omega))
      (fun st1 h1 => walkBit_post (codecPrecheck_none hp).2.2.1 h1 (by omega))) (fun st2 h2 => ?_)
    have h3 := ih h2.1 (by omega)
    rwa [h2.2] at h3

theorem decodeEnd_post {s : State} {st : DecodeRun} (h : DecodeKeeps s st) (hb : st.bits = s.tbits.toNat) :
    (decodeEnd s st).Post (DecodeDone s) (DecodeStops s) := by
  unfold decodeEnd
  split
  · next hc => exact ⟨h, Or.inr (Or.inr (Or.inr (Or.inr (Or.inl ⟨rfl, hb, hc⟩))))⟩
  · next hc =>
    split
    · next ho => exact ⟨h, Or.inr (Or.inr (Or.inr (Or.inr (Or.inr ⟨rfl, hb, by simpa using hc, ho⟩))))⟩
    · next ho => exact ⟨h, hb, by simpa using hc, by simpa using ho⟩

theorem decodeStart_keeps (s : State) : DecodeKeeps s (decodeStart s) := by
  refine ⟨Streamed.start s, Nat.zero_le _, fun _ hk => absurd hk (by simp [decodeStart, ceilDiv]),
    fun _ h => absurd rfl h, fun t ht => ?_⟩
  exact ⟨[], [], t, ht.walked rfl (by simp) rfl rfl (fun _ => rfl) (fun _ _ => rfl)⟩

/-- The whole stream: it fails a precheck at its start, or it runs and, where it stops, stops as `DecodeStops` says. -/
theorem decodeStream_cases (s : State) :
    (∃ e, codecPrecheck s = some e ∧ decodeStream s = .halt (decodeStart s) (.error e)) ∨
    (codecPrecheck s = none ∧ s.srcLen.toNat < ceilDiv s.tbits.toNat 8 ∧
      decodeStream s = .halt (decodeStart s) (.error .truncated)) ∨
    (codecPrecheck s = none ∧ ceilDiv s.tbits.toNat 8 ≤ s.srcLen.toNat ∧
      (decodeStream s).Post (DecodeDone s) (DecodeStops s)) := by
  cases hp : codecPrecheck s with
  | some e => exact Or.inl ⟨e, rfl, by simp [decodeStream, hp]⟩
  | none =>
    refine Or.inr ?_
    by_cases ht : s.srcLen.toNat < ceilDiv s.tbits.toNat 8
    · exact Or.inl ⟨rfl, ht, by simp [decodeStream, hp, ht]⟩
    · refine Or.inr ⟨rfl, by omega, ?_⟩
      simp only [decodeStream, hp, ht, if_false]
      exact Flow.Post.andThen (decodeBits_post (st := decodeStart s) hp (by omega) s.tbits.toNat (decodeStart_keeps s)
        (by simp [decodeStart])) (fun st h => decodeEnd_post h.1 h.2)

/-! ### What the walk says of the source -/

/-- A missing child is the right child of a wrapper: the tree has one leaf, and the bit is 1 (44_decoder.md R170). -/
theorem Walked.absent {s : State} {t : Shape} {st : DecodeRun} {es : List (Byte × List Bool)} {p : List Bool} {c : Shape}
    (ht : IsTree s t) (h : Walked s t st es p c) {b : Bool} (hb : AtBit s st b NIL) :
    b = true ∧ ∃ i j x w, t = .wrap i (.leaf j x w) := by
  have hnil : NIL = childOf (nodeAt s.node (BitVec.ofNat 9 c.idx)) b := h.cur ▸ hb.2.1
  rcases Shape.child h.held h.inner b with ⟨⟨i, d, rfl⟩, hbt, -⟩ | ⟨d, hd, hheld, -⟩
  · refine ⟨hbt, ?_⟩
    rcases h.place with ⟨rfl, -⟩ | ⟨hf, -⟩
    · obtain ⟨j, x, w, rfl⟩ := ht.2.1
      exact ⟨i, j, x, w, rfl⟩
    · exact hf.elim
  · exact absurd (hd.symm.trans hnil.symm) (Shape.idx_ne_NIL hheld)

/-- A wrapped leaf is the tree of a table with one entry. -/
theorem IsTree.observed_of_wrap {s : State} {i j : Nat} {x : Byte} {w : Word} (ht : IsTree s (.wrap i (.leaf j x w))) :
    observed s.freq = [(x, w)] := (List.singleton_perm.1 ht.2.2.2.2).symm

/-- One bit further, where the child the bit selects is a leaf: a whole path has been read. -/
theorem Walked.leaf_child {s : State} {t : Shape} {st : DecodeRun} {es : List (Byte × List Bool)} {p : List Bool} {c : Shape}
    (ht : IsTree s t) (h : Walked s t st es p c) {b : Bool} {d : NodeIdx} (hb : AtBit s st b d) (hne : d ≠ NIL)
    (hl : (nodeAt s.node d).leaf = true) :
    ∃ e ∈ t.paths, (NoRace s → sourceBits s (st.bits + 1) = pathBits (es ++ [e])) := by
  refine ⟨_, (h.child ht hb.2.1 hne).1 hl, fun hn => ?_⟩
  rw [sourceBits_succ, h.stream hn, pathBits_append, pathBits_cons, pathBits_nil, List.append_nil, List.append_assoc,
    hb.2.2 hn]

/-- Inner nodes have only paths of one step and more. -/
theorem Shape.paths_of_inner {arena : Vector Node 511} {c : Shape} (hc : c.heldBy arena)
    (hl : (nodeAt arena (BitVec.ofNat 9 c.idx)).leaf = false) : ∀ e ∈ c.paths, e.2 ≠ [] := by
  intro e he
  cases c with
  | leaf i x w => rw [Shape.idx_leaf, hc.2] at hl; cases hl
  | wrap i d =>
    obtain ⟨f, -, rfl⟩ := List.mem_map.1 he
    simp
  | fork i l r =>
    rcases List.mem_append.1 he with he | he <;>
    · obtain ⟨f, -, rfl⟩ := List.mem_map.1 he
      simp

/-- Where the bits read are the bits of whole paths, those are the paths followed, and none is under way. -/
theorem Walked.whole {s : State} {t : Shape} {st : DecodeRun} {es fs : List (Byte × List Bool)} {p : List Bool} {c : Shape}
    (ht : IsTree s t) (h : Walked s t st es p c) (hf : ∀ e ∈ fs, e ∈ t.paths) (he : pathBits es ++ p = pathBits fs) :
    es = fs ∧ p = [] := by
  obtain ⟨gs, rfl⟩ := pathBits_prefix ht.2.1 ht.nodup_leaves h.done hf (he ▸ List.prefix_append _ _)
  rw [pathBits_append, List.append_cancel_left_eq] at he
  cases gs with
  | nil => exact ⟨by simp, he⟩
  | cons g gs =>
    obtain ⟨e, hec⟩ := List.exists_mem_of_ne_nil _ (Shape.paths_ne_nil c)
    have hpre : g.2 <+: p ++ e.2 := (he ▸ List.prefix_append g.2 (pathBits gs) : g.2 <+: p).trans (List.prefix_append _ _)
    have hg := Shape.eq_of_prefix ht.nodup_leaves (hf g (by simp)) (h.sub e hec) hpre
    have hlen := congrArg List.length he
    have hpos := List.length_pos_iff.2 (Shape.paths_of_inner h.held h.inner e hec)
    rw [pathBits_cons, List.length_append, hg] at hlen
    simp only [List.length_append] at hlen
    omega

/-- The stream reaches its end on every source that is whole paths of the tree, as many as `TOTAL` says, where the accesses it
makes complete and the output fits (44_decoder.md R176). -/
theorem decodeStream_completes {s : State} {t : Shape} (hp : codecPrecheck s = none)
    (hlen : ceilDiv s.tbits.toNat 8 ≤ s.srcLen.toNat) (hn : NoRace s) (ht : IsTree s t) {fs : List (Byte × List Bool)}
    (hf : ∀ e ∈ fs, e ∈ t.paths) (hbits : sourceBits s s.tbits.toNat = pathBits fs) (htot : fs.length = s.total.toNat)
    (hcap : fs.length ≤ s.dstCap.toNat) (hr : ReadsComplete s s.srcAddr (ceilDiv s.tbits.toNat 8))
    (hw : WritesComplete s s.dstAddr fs.length) : ∃ st, decodeStream s = .go st ∧ DecodeDone s st := by
  rcases decodeStream_cases s with ⟨e, he, -⟩ | ⟨-, h, -⟩ | ⟨-, -, hpost⟩
  · rw [hp] at he; cases he
  · omega
  · refine (hpost.mono (fun _ h => h) (fun st why hs => ?_)).goes
    obtain ⟨hk, hs⟩ := hs
    obtain ⟨es, p, c, hwk⟩ := hk.walk t ht
    have hroom : ∀ {b d}, AtBit s st b d → d ≠ NIL → (nodeAt s.node d).leaf = true → st.out < fs.length := by
      intro b d hb hne hl
      obtain ⟨e, he, hse⟩ := hwk.leaf_child ht hb hne hl
      have hpre : pathBits (es ++ [e]) <+: pathBits fs := hse hn ▸ hbits ▸ sourceBits_prefix s hb.1
      have := (pathBits_prefix ht.2.1 ht.nodup_leaves (fun e' h => by
        rcases List.mem_append.1 h with h | h
        · exact hwk.done e' h
        · rw [List.mem_singleton.1 h]; exact he) hf hpre).length_le
      rw [hwk.out]
      simpa using this
    have hend : st.bits = s.tbits.toNat → es = fs ∧ p = [] := fun hb =>
      hwk.whole ht hf (by rw [← hwk.stream hn, hb, hbits])
    rcases hs with ⟨-, b, hb⟩ | ⟨-, ho, b, d, hb, hne, hl⟩ | ⟨hb, -, ha⟩ | ⟨-, ⟨b, d, hb, hne, hl⟩, ha⟩ | ⟨-, hb, hc⟩ |
      ⟨-, hb, -, ho⟩
    · obtain ⟨rfl, i, j, x, w, rfl⟩ := hwk.absent ht hb
      have hmem : true ∈ pathBits fs := by
        rw [← hbits, hb.2.2 hn]
        exact List.mem_map.2 ⟨st.bits, List.mem_range.2 hb.1, rfl⟩
      obtain ⟨e, he, het⟩ := List.mem_flatMap.1 hmem
      have := hf e he
      simp only [Shape.paths, List.map_cons, List.map_nil, List.mem_singleton] at this
      rw [this] at het
      simp at het
    · have := hroom hb hne hl; omega
    · rw [hr _ (by unfold ceilDiv; omega)] at ha; exact ha
    · rw [hw _ (hroom hb hne hl)] at ha; exact ha
    · exact hc ((hwk.at_root ht).2 (hend hb).2)
    · rw [hwk.out, (hend hb).1] at ho; exact ho htot

end Sys2Proof.Machine
end

