-- ==== Sys2Proof/Laws/Codec.lean ====
section
/-! SUPPORT. How ENCODE and DECODE end: every outcome of `endCodec`, and of the two commands, said once. -/

namespace Sys2Proof.Machine

@[simp] theorem ceilDiv_zero : ceilDiv 0 8 = 0 := by decide

/-- The state in which a codec command completes, with its result registers written. -/
def codecDone (s : State) (mem : Memory) (out inc bits : Nat) (errAddr : Word) (errcode : BitVec 8) : State :=
  { s with
    mem := mem
    outLen := BitVec.ofNat 32 out
    inCount := BitVec.ofNat 32 inc
    bits := BitVec.ofNat 64 bits
    errAddr := errAddr
    engine := none
    done := true
    errcode := errcode }

/-- The state in which a codec command waits for an access that is never answered. -/
def codecHung (i : Instr) (s : State) (mem : Memory) : State :=
  { s with mem := mem, engine := some { word := encode i, phase := .hung, raced := s.raced } }

@[simp] theorem endCodec_none (i : Instr) (s : State) (mem : Memory) (out inc bits : Nat) :
    endCodec i s mem out inc bits none = .next (codecDone s mem out inc bits 0#32 0#8) := rfl

@[simp] theorem endCodec_error (i : Instr) (s : State) (mem : Memory) (out inc bits : Nat) (e : ErrCode) :
    endCodec i s mem out inc bits (some (.error e)) = .next (codecDone s mem out inc bits 0#32 (errValue e)) := rfl

@[simp] theorem endCodec_busError (i : Instr) (s : State) (mem : Memory) (out inc bits : Nat) (a : Word) :
    endCodec i s mem out inc bits (some (.busError a)) = .next (codecDone s mem out inc bits a 0x0D#8) := rfl

@[simp] theorem endCodec_noAnswer (i : Instr) (s : State) (mem : Memory) (out inc bits : Nat) :
    endCodec i s mem out inc bits (some .noAnswer) = .next (codecHung i s mem) := rfl

@[simp] theorem endCodec_device (i : Instr) (s : State) (mem : Memory) (out inc bits : Nat) :
    endCodec i s mem out inc bits (some .device) = .refused .notOrdinaryMemory := rfl

theorem errValue_ne_busError {e : ErrCode} (h : e ≠ .busError) : errValue e ≠ 0x0D#8 := by
  cases e <;> first | decide | exact absurd rfl h

/-- ENCODE in terms of its stream. -/
theorem execEncode_eq (s : State) :
    exec .encode s = endCodec .encode s (encodeStream s).reached.mem (encodeStream s).reached.out
      (encodeStream s).reached.inc (encodeStream s).reached.bits (encodeStream s).stop := rfl

/-- DECODE in terms of its stream. -/
theorem execDecode_eq (s : State) :
    exec .decode s = endCodec .decode s (decodeStream s).reached.mem (decodeStream s).reached.out
      (ceilDiv (decodeStream s).reached.bits 8) (decodeStream s).reached.bits (decodeStream s).stop := rfl

theorem execEncode_go {s : State} {st : EncodeRun} (h : encodeStream s = .go st) :
    exec .encode s = .next (codecDone s st.mem st.out st.inc st.bits 0#32 0#8) := by
  rw [execEncode_eq, h]; rfl

theorem execEncode_halt {s : State} {st : EncodeRun} {why : Halt} (h : encodeStream s = .halt st why) :
    exec .encode s = endCodec .encode s st.mem st.out st.inc st.bits (some why) := by
  rw [execEncode_eq, h]; rfl

theorem execDecode_go {s : State} {st : DecodeRun} (h : decodeStream s = .go st) :
    exec .decode s = .next (codecDone s st.mem st.out (ceilDiv st.bits 8) st.bits 0#32 0#8) := by
  rw [execDecode_eq, h]; rfl

theorem execDecode_halt {s : State} {st : DecodeRun} {why : Halt} (h : decodeStream s = .halt st why) :
    exec .decode s = endCodec .decode s st.mem st.out (ceilDiv st.bits 8) st.bits (some why) := by
  rw [execDecode_eq, h]; rfl

/-- Everything ENCODE can end in: a precheck error, success, an error or a refused access of its stream, or waiting for ever. -/
theorem encode_next {s t : State} (h : exec .encode s = .next t) :
    (∃ e, codecPrecheck s = some e ∧ t = codecDone s s.mem 0 0 0 0#32 (errValue e)) ∨
    (codecPrecheck s = none ∧
      ((∃ st, EncodeDone s st ∧ t = codecDone s st.mem st.out st.inc st.bits 0#32 0#8) ∨
       (∃ st e, EncodeStops s st (.error e) ∧ t = codecDone s st.mem st.out st.inc st.bits 0#32 (errValue e)) ∨
       (∃ st a, EncodeStops s st (.busError a) ∧ t = codecDone s st.mem st.out st.inc st.bits a 0x0D#8) ∨
       (∃ st, EncodeStops s st .noAnswer ∧ t = codecHung .encode s st.mem))) := by
  rcases encodeStream_cases s with ⟨e, hp, hf⟩ | ⟨hp, hpost⟩
  · rw [execEncode_halt hf, endCodec_error] at h
    exact Or.inl ⟨e, hp, (Host.Outcome.next.inj h).symm⟩
  · refine Or.inr ⟨hp, ?_⟩
    cases hf : encodeStream s with
    | go st =>
      rw [hf] at hpost
      rw [execEncode_go hf] at h
      exact Or.inl ⟨st, hpost, (Host.Outcome.next.inj h).symm⟩
    | halt st why =>
      rw [hf] at hpost
      rw [execEncode_halt hf] at h
      refine Or.inr ?_
      cases why with
      | error e => exact Or.inl ⟨st, e, hpost, (Host.Outcome.next.inj h).symm⟩
      | busError a => exact Or.inr (Or.inl ⟨st, a, hpost, (Host.Outcome.next.inj h).symm⟩)
      | noAnswer => exact Or.inr (Or.inr ⟨st, hpost, (Host.Outcome.next.inj h).symm⟩)
      | device => cases h

theorem codecDone_decodeStart (s : State) (e : BitVec 8) :
    codecDone s (decodeStart s).mem (decodeStart s).out (ceilDiv (decodeStart s).bits 8) (decodeStart s).bits 0#32 e =
      codecDone s s.mem 0 0 0 0#32 e := by
  simp [decodeStart]

/-- Everything DECODE can end in. -/
theorem decode_next {s t : State} (h : exec .decode s = .next t) :
    (∃ e, codecPrecheck s = some e ∧ t = codecDone s s.mem 0 0 0 0#32 (errValue e)) ∨
    (codecPrecheck s = none ∧ s.srcLen.toNat < ceilDiv s.tbits.toNat 8 ∧ t = codecDone s s.mem 0 0 0 0#32 0x02#8) ∨
    (codecPrecheck s = none ∧ ceilDiv s.tbits.toNat 8 ≤ s.srcLen.toNat ∧
      ((∃ st, DecodeDone s st ∧ t = codecDone s st.mem st.out (ceilDiv st.bits 8) st.bits 0#32 0#8) ∨
       (∃ st e, DecodeStops s st (.error e) ∧ t = codecDone s st.mem st.out (ceilDiv st.bits 8) st.bits 0#32 (errValue e)) ∨
       (∃ st a, DecodeStops s st (.busError a) ∧ t = codecDone s st.mem st.out (ceilDiv st.bits 8) st.bits a 0x0D#8) ∨
       (∃ st, DecodeStops s st .noAnswer ∧ t = codecHung .decode s st.mem))) := by
  rcases decodeStream_cases s with ⟨e, hp, hf⟩ | ⟨hp, ht, hf⟩ | ⟨hp, ht, hpost⟩
  · rw [execDecode_halt hf, endCodec_error, codecDone_decodeStart] at h
    exact Or.inl ⟨e, hp, (Host.Outcome.next.inj h).symm⟩
  · rw [execDecode_halt hf, endCodec_error, codecDone_decodeStart] at h
    exact Or.inr (Or.inl ⟨hp, ht, (Host.Outcome.next.inj h).symm⟩)
  · refine Or.inr (Or.inr ⟨hp, ht, ?_⟩)
    cases hf : decodeStream s with
    | go st =>
      rw [hf] at hpost
      rw [execDecode_go hf] at h
      exact Or.inl ⟨st, hpost, (Host.Outcome.next.inj h).symm⟩
    | halt st why =>
      rw [hf] at hpost
      rw [execDecode_halt hf] at h
      refine Or.inr ?_
      cases why with
      | error e => exact Or.inl ⟨st, e, hpost, (Host.Outcome.next.inj h).symm⟩
      | busError a => exact Or.inr (Or.inl ⟨st, a, hpost, (Host.Outcome.next.inj h).symm⟩)
      | noAnswer => exact Or.inr (Or.inr ⟨st, hpost, (Host.Outcome.next.inj h).symm⟩)
      | device => cases h

/-- Neither codec command faults. -/
theorem endCodec_ne_fault (i : Instr) (s : State) (mem : Memory) (out inc bits : Nat) (why : Option Halt) (f : Fault) :
    endCodec i s mem out inc bits why ≠ .fault f := by
  cases why with
  | none => simp
  | some why => cases why <;> simp

/-- A codec command is refused only at a device. -/
theorem endCodec_refused {i : Instr} {s : State} {mem : Memory} {out inc bits : Nat} {why : Option Halt} {r : Refusal}
    (h : endCodec i s mem out inc bits why = .refused r) : why = some .device ∧ r = .notOrdinaryMemory := by
  cases why with
  | none => simp at h
  | some why => cases why <;> simp at h; exact ⟨rfl, h.symm⟩

end Sys2Proof.Machine
end

