-- ==== Sys2Proof/Laws/Step.lean ====
section
/-! SUPPORT. A step, said once: whose turn it is, what a host action can leave, and what each kind of register write can leave. The
proofs about steps cite these instead of unfolding `step`. -/

namespace Sys2Proof.Machine

/-- A step either runs the command in the engine, or is a host step from a state whose engine differs in its delay at most. -/
theorem step_next {s t : State} (h : step s = .next t) :
    (∃ r, s.engine = some r ∧ runCommand r.word s.nextTick = .next t) ∨
    (∃ e, e.isSome = s.engine.isSome ∧ hostStep { s.nextTick with engine := e } = .next t) := by
  have hnone : ∀ {e}, s.engine = e → hostStep s.nextTick = .next t →
      ∃ e, e.isSome = s.engine.isSome ∧ hostStep { s.nextTick with engine := e } = .next t :=
    fun {_} _ h => ⟨s.engine, rfl, h⟩
  simp only [step, turn] at h
  split at h
  · next he => exact Or.inr (hnone he h)
  · next r he =>
    split at h
    · exact Or.inr (hnone he h)
    · exact Or.inl ⟨r, he, h⟩
    · next d hd =>
      split at h
      · exact Or.inl ⟨r, he, h⟩
      · exact Or.inr ⟨_, by rw [show s.engine = some r from he]; rfl, h⟩

/-- A command word runs its command, or is illegal and raises `ILLEGAL_CMD` (40_control_and_frequency.md R110). -/
theorem runCommand_next {w : Word} {s t : State} (h : runCommand w s = .next t) :
    (∃ i, decode w = .ok i ∧ exec i s = .next t) ∨ t = raiseError .illegalCmd s := by
  unfold runCommand at h
  split at h
  · next i hd => exact Or.inl ⟨i, hd, h⟩
  · exact Or.inr (Host.Outcome.next.inj h).symm

/-- With nothing to do, the host leaves the state as it is. -/
theorem hostStep_next {s t : State} (h : hostStep s = .next t) :
    t = s ∨ ∃ a rest, s.script = a :: rest ∧ hostAct a { s with script := rest } = .next t := by
  unfold hostStep at h
  split at h
  · exact Or.inl (Host.Outcome.next.inj h).symm
  · next a rest hs => exact Or.inr ⟨a, rest, hs, h⟩

/-- What a host action can leave: a recorded answer (and a repeated `WAIT`), a register write, stored bytes, a reset, or
a power cycle. -/
theorem hostAct_next {a : HostAction} {s t : State} (h : hostAct a s = .next t) :
    (∃ r, t = respond r s) ∨ (∃ r sc, t = { respond r s with script := sc }) ∨ (∃ r v, t = writeReg s r v) ∨
      (∃ addr bs, t = storeBytes s addr bs) ∨ t = softReset s ∨ t = powerCycle s := by
  cases a with
  | write size off data =>
    simp only [hostAct, Host.Outcome.next.injEq] at h
    subst h
    unfold busWrite
    split
    · exact Or.inl ⟨_, rfl⟩
    · split
      · exact Or.inl ⟨_, rfl⟩
      · exact Or.inr (Or.inr (Or.inl ⟨_, _, rfl⟩))
  | read size off =>
    simp only [hostAct, Host.Outcome.next.injEq] at h
    subst h
    unfold busRead
    split
    · exact Or.inl ⟨_, rfl⟩
    · split <;> exact Or.inl ⟨_, rfl⟩
  | wait =>
    simp only [hostAct, Host.Outcome.next.injEq] at h
    subst h
    unfold hostWait
    split
    · exact Or.inr (Or.inl ⟨_, _, rfl⟩)
    · exact Or.inl ⟨_, rfl⟩
  | store addr bs =>
    simp only [hostAct, hostStore] at h
    split at h
    · cases h
    · split at h
      · cases h
      · exact Or.inr (Or.inr (Or.inr (Or.inl ⟨addr, bs, (Host.Outcome.next.inj h).symm⟩)))
  | load addr =>
    simp only [hostAct, hostLoad] at h
    split at h
    · cases h
    · exact Or.inl ⟨_, (Host.Outcome.next.inj h).symm⟩
  | resetInput => exact Or.inr (Or.inr (Or.inr (Or.inr (Or.inl (Host.Outcome.next.inj h).symm))))
  | powerCycle => exact Or.inr (Or.inr (Or.inr (Or.inr (Or.inr (Host.Outcome.next.inj h).symm))))

/-- Host stores change data memory and the record of raced addresses, and keep the memory's form. -/
theorem storeBytes_eq (s : State) (a : Word) (bs : List Byte) :
    ∃ m e, storeBytes s a bs = { s with mem := m, engine := e } ∧ e.isSome = s.engine.isSome ∧
      (s.mem.wf = true → m.wf = true) := by
  induction bs generalizing s a with
  | nil => exact ⟨s.mem, s.engine, rfl, rfl, id⟩
  | cons b bs ih =>
    obtain ⟨m, e, h1, h2, h3⟩ := ih (storeByte s a b) (a + 1#32)
    refine ⟨m, e, h1, h2.trans (by simp [storeByte]), fun hw => h3 ?_⟩
    exact Memory.write_word_wf hw

/-- What a register write can leave (40_control_and_frequency.md R103 to R109). -/
theorem writeReg_cases (s : State) (r : Reg) (v : Word) :
    writeReg s r v = s ∨ (s.busy = true ∧ writeReg s r v = setOvr s) ∨ writeReg s r v = softReset s ∨
      (∃ b, writeReg s r v = { s with ctrlIE := b }) ∨ writeReg s r v = writeStatus v s ∨
      (s.busy = false ∧ (writeReg s r v = acceptCommand v s ∨ (∃ i, writeReg s r v = setFreq i v s) ∨
        ∃ sa sl da dc, writeReg s r v = { s with srcAddr := sa, srcLen := sl, dstAddr := da, dstCap := dc })) := by
  have guarded : ∀ stored, (stored = acceptCommand v s ∨ (∃ i, stored = setFreq i v s) ∨
      ∃ sa sl da dc, stored = { s with srcAddr := sa, srcLen := sl, dstAddr := da, dstCap := dc }) →
      (s.busy = true ∧ guardedWrite s stored = setOvr s) ∨
        (s.busy = false ∧ guardedWrite s stored = stored) := by
    intro stored _
    cases hb : s.busy <;> simp [guardedWrite, hb]
  have lift : ∀ {u stored : State}, u = guardedWrite s stored → (stored = acceptCommand v s ∨
      (∃ i, stored = setFreq i v s) ∨
      ∃ sa sl da dc, stored = { s with srcAddr := sa, srcLen := sl, dstAddr := da, dstCap := dc }) →
      u = s ∨ (s.busy = true ∧ u = setOvr s) ∨ u = softReset s ∨ (∃ b, u = { s with ctrlIE := b }) ∨
      u = writeStatus v s ∨ (s.busy = false ∧ (u = acceptCommand v s ∨ (∃ i, u = setFreq i v s) ∨
        ∃ sa sl da dc, u = { s with srcAddr := sa, srcLen := sl, dstAddr := da, dstCap := dc })) := by
    intro u stored hu hst
    subst hu
    rcases guarded stored hst with h | ⟨hb, h⟩
    · exact Or.inr (Or.inl h)
    · rw [h]; exact Or.inr (Or.inr (Or.inr (Or.inr (Or.inr ⟨hb, hst⟩))))
  cases r with
  | ctrl =>
    cases hv : v.getLsbD 1
    · exact Or.inr (Or.inr (Or.inr (Or.inl ⟨v.getLsbD 0, by simp only [writeReg, writeCtrl, hv]; rfl⟩)))
    · exact Or.inr (Or.inr (Or.inl (by simp only [writeReg, writeCtrl, hv]; rfl)))
  | status => exact Or.inr (Or.inr (Or.inr (Or.inr (Or.inl rfl))))
  | cmd => exact lift rfl (Or.inl rfl)
  | srcAddr => exact lift rfl (Or.inr (Or.inr ⟨v, s.srcLen, s.dstAddr, s.dstCap, rfl⟩))
  | srcLen => exact lift rfl (Or.inr (Or.inr ⟨s.srcAddr, v, s.dstAddr, s.dstCap, rfl⟩))
  | dstAddr => exact lift rfl (Or.inr (Or.inr ⟨s.srcAddr, s.srcLen, v, s.dstCap, rfl⟩))
  | dstCap => exact lift rfl (Or.inr (Or.inr ⟨s.srcAddr, s.srcLen, s.dstAddr, v, rfl⟩))
  | freq i => exact lift rfl (Or.inr (Or.inl ⟨i, rfl⟩))
  | _ => exact Or.inl rfl

/-! ### Reset -/

/-- An abort writes bytes of the destination only, and keeps the memory's form (70_reset_and_hazards.md R237). -/
theorem scrambleDestination_spec (s : State) (n : Nat) (hn : n ≤ s.dstCap.toNat)
    (hr : 0 < n → inRange s.dstAddr s.dstCap = true) :
    (s.mem.wf = true → (scrambleDestination s n).wf = true) ∧
      ∀ a, ¬ (s.dstAddr.toNat ≤ a ∧ a < s.dstAddr.toNat + n) → (scrambleDestination s n).read a = s.mem.read a := by
  unfold scrambleDestination
  induction n with
  | zero => exact ⟨id, fun _ _ => rfl⟩
  | succ n ih =>
    obtain ⟨h1, h2⟩ := ih (by omega) (fun _ => hr (by omega))
    rw [List.range_succ, List.foldl_append, List.foldl_cons, List.foldl_nil]
    refine ⟨fun hw => Memory.write_word_wf (h1 hw), fun a ha => ?_⟩
    have := toNat_add_ofNat (hr (by omega)) (show n < s.dstCap.toNat by omega)
    rw [Memory.read_write_other (by omega), h2 a (by omega)]

theorem streamExtent_cases (out : Nat) (stop : Option Halt) (answered : Nat) :
    streamExtent out stop answered = out ∨ streamExtent out stop answered = answered := by
  unfold streamExtent
  split <;> simp

/-- A stream writes inside the destination, and only where it is in range. -/
theorem encodeStream_out (s : State) : (encodeStream s).reached.out ≤ s.dstCap.toNat ∧
    (0 < (encodeStream s).reached.out → inRange s.dstAddr s.dstCap = true) := by
  rcases encodeStream_cases s with ⟨e, -, h⟩ | ⟨hp, h⟩
  · simp [h, Flow.reached, encodeStart]
  · refine ⟨?_, fun _ => (codecPrecheck_none hp).2.2.1⟩
    cases hf : encodeStream s <;> rw [hf] at h
    · exact h.streamed.out_le
    · exact h.1.streamed.out_le

theorem decodeStream_out (s : State) : (decodeStream s).reached.out ≤ s.dstCap.toNat ∧
    (0 < (decodeStream s).reached.out → inRange s.dstAddr s.dstCap = true) := by
  rcases decodeStream_cases s with ⟨e, -, h⟩ | ⟨-, -, h⟩ | ⟨hp, -, h⟩
  · simp [h, Flow.reached, decodeStart]
  · simp [h, Flow.reached, decodeStart]
  · refine ⟨?_, fun _ => (codecPrecheck_none hp).2.2.1⟩
    cases hf : decodeStream s <;> rw [hf] at h
    · exact h.1.streamed.out_le
    · exact h.1.streamed.out_le

/-- What an abort would have written never exceeds the destination, and is nothing where a precheck fails. -/
theorem abortCount_spec (s : State) :
    abortCount s ≤ s.dstCap.toNat ∧ (0 < abortCount s → inRange s.dstAddr s.dstCap = true) := by
  unfold abortCount
  split
  · rcases streamExtent_cases (encodeStream s).reached.out (encodeStream s).stop
      (encodeStream (answeredState s)).reached.out with h | h <;> rw [h]
    · exact encodeStream_out s
    · exact encodeStream_out (answeredState s)
  · rcases streamExtent_cases (decodeStream s).reached.out (decodeStream s).stop
      (decodeStream (answeredState s)).reached.out with h | h <;> rw [h]
    · exact decodeStream_out s
    · exact decodeStream_out (answeredState s)
  · simp

theorem softReset_mem_wf {s : State} (h : s.mem.wf = true) : (softReset s).mem.wf = true :=
  (scrambleDestination_spec s _ (abortCount_spec s).1 (abortCount_spec s).2).1 h

/-- What a power-on leaves in data memory is in canonical form (60_exceptions.md R223). -/
theorem powerUpMemory_wf (tick : Nat) : (powerUpMemory tick).wf = true := by
  unfold powerUpMemory
  generalize Config.powerUpCells tick = cells
  suffices ∀ m : Memory, m.wf = true → (cells.foldl (fun m c => m.write c.1.toNat c.2) m).wf = true from this [] rfl
  induction cells with
  | nil => exact fun m hm => hm
  | cons c cs ih => exact fun m hm => ih _ (Memory.write_word_wf hm)

/-! ### An invariant of every step -/

/-- To hold through every step, a property has to survive what is done around the block (the record, the script, the counter, the
engine's delay), each kind of host action, an illegal command, and each command. -/
theorem step_keeps (P : State → Prop)
    (record : ∀ s rs sc tk, P s → P { s with responses := rs, script := sc, tick := tk })
    (engine : ∀ s e, e.isSome = s.engine.isSome → P s → P { s with engine := e })
    (store : ∀ s a bs, P s → P (storeBytes s a bs))
    (ovr : ∀ s, P s → P (setOvr s))
    (reset : ∀ s, P s → P (softReset s))
    (power : ∀ s, P s → P (powerCycle s))
    (enable : ∀ s b, P s → P { s with ctrlIE := b })
    (status : ∀ s v, P s → P (writeStatus v s))
    (accept : ∀ s v, P s → P (acceptCommand v s))
    (freq : ∀ s i v, P s → P (setFreq i v s))
    (operands : ∀ s sa sl da dc, P s → P { s with srcAddr := sa, srcLen := sl, dstAddr := da, dstCap := dc })
    (illegal : ∀ s, P s → P (raiseError .illegalCmd s))
    (command : ∀ s t i, s.engine.isSome = true → P s → exec i s = .next t → P t)
    {s t : State} (h : P s) (hs : step s = .next t) : P t := by
  have h0 : P s.nextTick := record s s.responses s.script (s.tick + 1) h
  rcases step_next hs with ⟨r, he, hr⟩ | ⟨e, he, hh⟩
  · rcases runCommand_next hr with ⟨i, -, hx⟩ | rfl
    · exact command _ _ i (by simp [State.nextTick, he]) h0 hx
    · exact illegal _ h0
  · have h1 : P { s.nextTick with engine := e } := engine _ e he h0
    generalize ({ s.nextTick with engine := e } : State) = u at hh h1
    rcases hostStep_next hh with rfl | ⟨a, rest, -, ha⟩
    · exact h1
    · have h2 : P { u with script := rest } := record u u.responses rest u.tick h1
      rcases hostAct_next ha with ⟨r, rfl⟩ | ⟨r, sc, rfl⟩ | ⟨r, v, rfl⟩ | ⟨ad, bs, rfl⟩ | rfl | rfl
      · exact record u (r :: u.responses) rest u.tick h1
      · exact record u (r :: u.responses) sc u.tick h1
      · rcases writeReg_cases { u with script := rest } r v with
          hw | ⟨-, hw⟩ | hw | ⟨b, hw⟩ | hw | ⟨-, hw | ⟨i, hw⟩ | ⟨sa, sl, da, dc, hw⟩⟩
        · rw [hw]; exact h2
        · rw [hw]; exact ovr _ h2
        · rw [hw]; exact reset _ h2
        · rw [hw]; exact enable _ _ h2
        · rw [hw]; exact status _ _ h2
        · rw [hw]; exact accept _ _ h2
        · rw [hw]; exact freq _ _ _ h2
        · rw [hw]; exact operands _ _ _ _ _ h2
      · exact store _ _ _ h2
      · exact reset _ h2
      · exact power _ h2

end Sys2Proof.Machine
end

