-- ==== Sys2Proof/Laws/Answers.lean ====
section
/-! SUPPORT. Two runs of one codec command that differ in the platform and in data memory only: the second follows the first up to
the first access that the first platform does not complete (00_scope.md R14; 70_reset_and_hazards.md R245, R248). -/

namespace Sys2Proof.Machine

/-! ### Following a stream -/

/-- `g` follows `f`: it goes on where `f` goes on; where `f` halts it halts for the same reason, or `P` holds. `E` relates the
states. -/
def Flow.Follows {σ : Type} (E : σ → σ → Prop) (P : σ → Halt → Flow σ → Prop) (f g : Flow σ) : Prop :=
  match f with
  | .go st => ∃ st', g = .go st' ∧ E st st'
  | .halt st why => (∃ st', g = .halt st' why ∧ E st st') ∨ P st why g

theorem Flow.Follows.andThen {σ : Type} {E E' : σ → σ → Prop} {P : σ → Halt → Flow σ → Prop} {f g : Flow σ} {k k' : σ → Flow σ}
    (h : f.Follows E P g) (hk : ∀ st st', f = .go st → E st st' → (k st).Follows E' P (k' st'))
    (hE : ∀ st st', E st st' → E' st st') (hP : ∀ st why, P st why g → P st why (g.andThen k')) :
    (f.andThen k).Follows E' P (g.andThen k') := by
  cases f with
  | go st =>
    obtain ⟨st', rfl, he⟩ := h
    exact hk st st' rfl he
  | halt st why =>
    rcases h with ⟨st', rfl, he⟩ | h
    · exact Or.inl ⟨st', rfl, hE _ _ he⟩
    · exact Or.inr (hP _ _ h)

/-- Two machines that differ in the platform and in data memory only. -/
structure Twins (s u : State) (R : Memory → Memory → Prop) : Prop where
  same : ∃ p m, u = { s with platform := p, mem := m }
  read : ∀ k, k < s.srcLen.toNat → readAnswer s (s.srcAddr + BitVec.ofNat 32 k) = .completes →
    readAnswer u (s.srcAddr + BitVec.ofNat 32 k) = .completes
  write : ∀ k, k < s.dstCap.toNat → writeAnswer s (s.dstAddr + BitVec.ofNat 32 k) = .completes →
    writeAnswer u (s.dstAddr + BitVec.ofNat 32 k) = .completes
  start : R s.mem u.mem
  byte : ∀ m m' k, k < s.srcLen.toNat → R m m' → readAnswer s (s.srcAddr + BitVec.ofNat 32 k) = .completes →
    m'.read (s.srcAddr + BitVec.ofNat 32 k).toNat = m.read (s.srcAddr + BitVec.ofNat 32 k).toNat
  wrote : ∀ m m' k v, k < s.dstCap.toNat → R m m' →
    R (m.write (s.dstAddr + BitVec.ofNat 32 k).toNat v) (m'.write (s.dstAddr + BitVec.ofNat 32 k).toNat v)

/-- The first machine halts with `why` at its answer `ans` to the access at `a`; the second halts there too, at its own answer
`ans'`, or that one completes and the second has gone past the access. -/
def Met {σ : Type} (E : σ → σ → Prop) (st : σ) (why : Halt) (g : Flow σ) (a : Word) (ans ans' : Answer) (past : Prop) : Prop :=
  ans.Halts a why ∧ ((∃ st' why', g = .halt st' why' ∧ E st st' ∧ ans'.Halts a why') ∨ (ans' = .completes ∧ past))

theorem Met.andThen {σ : Type} {E E' : σ → σ → Prop} {st : σ} {why : Halt} {g : Flow σ} {k : σ → Flow σ} {a : Word}
    {ans ans' : Answer} {past past' : Prop} (h : Met E st why g a ans ans' past) (hE : ∀ st st', E st st' → E' st st')
    (hp : past → past') : Met E' st why (g.andThen k) a ans ans' past' := by
  obtain ⟨h1, ⟨st', why', rfl, he, h2⟩ | ⟨h2, h3⟩⟩ := h
  · exact ⟨h1, Or.inl ⟨st', why', rfl, hE _ _ he, h2⟩⟩
  · exact ⟨h1, Or.inr ⟨h2, hp h3⟩⟩

/-- How a read answers on both machines. -/
theorem portRead_twin {s : State} {p : List Region} {m0 m m' : Memory} {a : Word}
    (hc : readAnswer s a = .completes → readAnswer { s with platform := p, mem := m0 } a = .completes)
    (hb : readAnswer s a = .completes → m'.read a.toNat = m.read a.toNat) :
    (∃ b, portRead s m a = .ok b ∧ portRead { s with platform := p, mem := m0 } m' a = .ok b) ∨
    (∃ why, portRead s m a = .error why ∧ (readAnswer s a).Halts a why ∧
      ((∃ b, portRead { s with platform := p, mem := m0 } m' a = .ok b ∧
          readAnswer { s with platform := p, mem := m0 } a = .completes) ∨
       (∃ why', portRead { s with platform := p, mem := m0 } m' a = .error why' ∧
          (readAnswer { s with platform := p, mem := m0 } a).Halts a why'))) := by
  cases h : portRead s m a with
  | ok b =>
    have hs := (portRead_ok h).1
    refine Or.inl ⟨b, rfl, ?_⟩
    rw [← h]
    unfold portRead
    rw [hs, hc hs]
    simp only [hb hs]
    rfl
  | error why =>
    refine Or.inr ⟨why, rfl, portRead_error h, ?_⟩
    cases hu : portRead { s with platform := p, mem := m0 } m' a with
    | ok b => exact Or.inl ⟨b, rfl, (portRead_ok hu).1⟩
    | error why' => exact Or.inr ⟨why', rfl, portRead_error hu⟩

/-- How a write answers on both machines. -/
theorem portWrite_twin {s : State} {p : List Region} {m0 m m' : Memory} {a : Word} {v : Byte}
    (hc : writeAnswer s a = .completes → writeAnswer { s with platform := p, mem := m0 } a = .completes) :
    (∃ w, portWrite s m a v = .ok (m.write a.toNat w) ∧
      portWrite { s with platform := p, mem := m0 } m' a v = .ok (m'.write a.toNat w)) ∨
    (∃ why, portWrite s m a v = .error why ∧ (writeAnswer s a).Halts a why ∧
      ((∃ m1, portWrite { s with platform := p, mem := m0 } m' a v = .ok m1 ∧
          writeAnswer { s with platform := p, mem := m0 } a = .completes) ∨
       (∃ why', portWrite { s with platform := p, mem := m0 } m' a v = .error why' ∧
          (writeAnswer { s with platform := p, mem := m0 } a).Halts a why'))) := by
  cases h : portWrite s m a v with
  | ok m1 =>
    have hs := (portWrite_ok h).1
    refine Or.inl ⟨if a ∈ s.raced then Config.racedByte s.tick a.toNat else v, ?_, ?_⟩
    · rw [← h]; unfold portWrite; rw [hs]
    · unfold portWrite; rw [hc hs]; rfl
  | error why =>
    refine Or.inr ⟨why, rfl, portWrite_error h, ?_⟩
    cases hu : portWrite { s with platform := p, mem := m0 } m' a v with
    | ok m1 => exact Or.inl ⟨m1, rfl, (portWrite_ok hu).1⟩
    | error why' => exact Or.inr ⟨why', rfl, portWrite_error hu⟩

/-! ### ENCODE -/

/-- A flow has come no less far than a state. -/
def EncodeRun.Grows (st : EncodeRun) (f : Flow EncodeRun) : Prop := st.inc ≤ f.reached.inc ∧ st.out ≤ f.reached.out

theorem EncodeRun.Grows.andThen {st : EncodeRun} {f : Flow EncodeRun} {k : EncodeRun → Flow EncodeRun} (h : st.Grows f)
    (hk : ∀ st' : EncodeRun, st'.Grows (k st')) : st.Grows (f.andThen k) := by
  cases f with
  | go st' => exact ⟨le_trans h.1 (hk st').1, le_trans h.2 (hk st').2⟩
  | halt st' why => exact h

theorem emitByte_grows (s : State) (q : List Bool) (st : EncodeRun) : st.Grows (emitByte s q st) := by
  unfold emitByte
  split
  · exact ⟨le_rfl, le_rfl⟩
  · split
    · exact ⟨le_rfl, le_rfl⟩
    · exact ⟨le_rfl, Nat.le_succ _⟩

theorem drainBuffer_grows (s : State) (fuel : Nat) (st : EncodeRun) : st.Grows (drainBuffer s fuel st) := by
  induction fuel generalizing st with
  | zero => exact ⟨le_rfl, le_rfl⟩
  | succ fuel ih =>
    unfold drainBuffer
    split
    · exact (emitByte_grows s _ st).andThen (fun st' => ih { st' with buf := st.buf.drop 8 })
    · exact ⟨le_rfl, le_rfl⟩

theorem encodeByte_grows (s : State) (k : Nat) (st : EncodeRun) : st.Grows (encodeByte s k st) := by
  unfold encodeByte
  split
  · exact ⟨le_rfl, le_rfl⟩
  · simp only
    split
    · exact ⟨le_rfl, le_rfl⟩
    · have h := drainBuffer_grows s (st.buf ++ codeString (codeAt s.code ‹_›)).length
        { st with buf := st.buf ++ codeString (codeAt s.code ‹_›), inc := st.inc + 1,
                  bits := st.bits + (codeAt s.code ‹_›).len.toNat }
      exact ⟨le_trans (Nat.le_succ _) h.1, h.2⟩

theorem encodeBytes_grows (s : State) (n k : Nat) (st : EncodeRun) : st.Grows (encodeBytes s n k st) := by
  induction n generalizing k st with
  | zero => exact ⟨le_rfl, le_rfl⟩
  | succ n ih =>
    unfold encodeBytes
    exact (encodeByte_grows s k st).andThen (fun st' => ih (k + 1) st')

theorem encodePad_grows (s : State) (st : EncodeRun) : st.Grows (encodePad s st) := by
  unfold encodePad
  split
  · exact ⟨le_rfl, le_rfl⟩
  · exact (emitByte_grows s _ st).andThen (fun st' => ⟨le_rfl, le_rfl⟩)

/-- What a byte that went through has consumed. -/
theorem drainBuffer_inc {s : State} {fuel : Nat} {st st' : EncodeRun} (h : drainBuffer s fuel st = .go st') :
    st'.inc = st.inc := by
  induction fuel generalizing st with
  | zero => cases h; rfl
  | succ fuel ih =>
    unfold drainBuffer at h
    split at h
    · unfold emitByte at h
      split at h
      · cases h
      · split at h
        · cases h
        · exact (ih (st := { st with mem := _, out := st.out + 1, buf := st.buf.drop 8 }) h).trans rfl
    · cases h; rfl

theorem encodeByte_inc {s : State} {k : Nat} {st st' : EncodeRun} (h : encodeByte s k st = .go st') : st'.inc = st.inc + 1 := by
  unfold encodeByte at h
  split at h
  · cases h
  · simp only at h
    split at h
    · cases h
    · exact drainBuffer_inc h

/-- Two ENCODE streams at the same point, with related memories. -/
def EncodeTwin (s : State) (R : Memory → Memory → Prop) (st st' : EncodeRun) : Prop :=
  st' = { st with mem := st'.mem } ∧ R st.mem st'.mem ∧ st.out ≤ s.dstCap.toNat

/-- The second stream has read the source byte at `k`: it went on, or halted because that byte has no code. -/
def EncodeRead (g : Flow EncodeRun) (k : Nat) : Prop :=
  k < g.reached.inc ∨ (k = g.reached.inc ∧ g.stop = some (.error .noCodeForSymbol))

/-- Where the first ENCODE halts at an access. -/
def EncodeMeets (s u : State) (R : Memory → Memory → Prop) (st : EncodeRun) (why : Halt) (g : Flow EncodeRun) : Prop :=
  (st.inc < s.srcLen.toNat ∧
    Met (EncodeTwin s R) st why g (s.srcAddr + BitVec.ofNat 32 st.inc) (readAnswer s (s.srcAddr + BitVec.ofNat 32 st.inc))
      (readAnswer u (s.srcAddr + BitVec.ofNat 32 st.inc)) (EncodeRead g st.inc)) ∨
  (st.out < s.dstCap.toNat ∧
    Met (EncodeTwin s R) st why g (s.dstAddr + BitVec.ofNat 32 st.out) (writeAnswer s (s.dstAddr + BitVec.ofNat 32 st.out))
      (writeAnswer u (s.dstAddr + BitVec.ofNat 32 st.out)) (st.out < g.reached.out))

theorem EncodeMeets.andThen {s u : State} {R : Memory → Memory → Prop} {st : EncodeRun} {why : Halt} {g : Flow EncodeRun}
    {k : EncodeRun → Flow EncodeRun} (h : EncodeMeets s u R st why g) (hk : ∀ st' : EncodeRun, st'.Grows (k st')) :
    EncodeMeets s u R st why (g.andThen k) := by
  rcases h with ⟨h1, h2⟩ | ⟨h1, h2⟩
  · refine Or.inl ⟨h1, h2.andThen (fun _ _ h => h) ?_⟩
    cases g with
    | go st' =>
      rintro (h | ⟨-, h⟩)
      · exact Or.inl (lt_of_lt_of_le h (hk st').1)
      · cases h
    | halt st' why' => exact id
  · refine Or.inr ⟨h1, h2.andThen (fun _ _ h => h) ?_⟩
    cases g with
    | go st' => exact fun h => lt_of_lt_of_le h (hk st').2
    | halt st' why' => exact id

theorem emitByte_follows {s u : State} {R : Memory → Memory → Prop} (tw : Twins s u R) (q : List Bool) {st st' : EncodeRun}
    (he : EncodeTwin s R st st') :
    (emitByte s q st).Follows (EncodeTwin s R) (EncodeMeets s u R) (emitByte u q st') := by
  obtain ⟨⟨p, m0, rfl⟩, -, hw, -, -, hwr⟩ := tw
  obtain ⟨hst, hR, hle⟩ := he
  obtain ⟨m', out, inc, bits, buf⟩ := st'
  obtain ⟨m, out', inc', bits', buf'⟩ := st
  obtain ⟨rfl, rfl, rfl, rfl⟩ := EncodeRun.mk.inj hst |>.2
  unfold emitByte
  simp only
  by_cases hc : out = s.dstCap.toNat
  · rw [if_pos hc, if_pos hc]
    exact Or.inl ⟨_, rfl, rfl, hR, hle⟩
  · rw [if_neg hc, if_neg hc]
    have hlt : out < s.dstCap.toNat := lt_of_le_of_ne hle hc
    rcases portWrite_twin (p := p) (m0 := m0) (m := m) (m' := m') (v := packByte q) (hw out hlt) with
      ⟨w, h1, h2⟩ | ⟨why, h1, hh, ⟨m1, h2, h3⟩ | ⟨why', h2, h3⟩⟩ <;> simp only [h1, h2]
    · exact ⟨_, rfl, rfl, hwr _ _ _ _ hlt hR, hlt⟩
    · exact Or.inr (Or.inr ⟨hlt, hh, Or.inr ⟨h3, Nat.lt_succ_self _⟩⟩)
    · exact Or.inr (Or.inr ⟨hlt, hh, Or.inl ⟨_, why', rfl, ⟨rfl, hR, hle⟩, h3⟩⟩)

theorem drainBuffer_follows {s u : State} {R : Memory → Memory → Prop} (tw : Twins s u R) (fuel : Nat) {st st' : EncodeRun}
    (he : EncodeTwin s R st st') :
    (drainBuffer s fuel st).Follows (EncodeTwin s R) (EncodeMeets s u R) (drainBuffer u fuel st') := by
  induction fuel generalizing st st' with
  | zero => exact ⟨_, rfl, he⟩
  | succ fuel ih =>
    have hb : st'.buf = st.buf := by rw [he.1]
    unfold drainBuffer
    rw [hb]
    split
    · refine (emitByte_follows tw _ he).andThen (fun a a' _ h => ih ⟨?_, h.2.1, h.2.2⟩) (fun _ _ h => h)
        (fun a why h => h.andThen (fun a' => drainBuffer_grows u fuel { a' with buf := st.buf.drop 8 }))
      rw [h.1]
    · exact ⟨_, rfl, he⟩

theorem encodeByte_follows {s u : State} {R : Memory → Memory → Prop} (tw : Twins s u R) {st st' : EncodeRun}
    (he : EncodeTwin s R st st') (hi : st.inc < s.srcLen.toNat) :
    (encodeByte s st.inc st).Follows (EncodeTwin s R) (EncodeMeets s u R) (encodeByte u st.inc st') := by
  have hd := fun fuel a a' => drainBuffer_follows tw fuel (st := a) (st' := a')
  have hgrow := fun fuel a => drainBuffer_grows u fuel a
  obtain ⟨⟨p, m0, rfl⟩, hr, -, -, hb, -⟩ := tw
  obtain ⟨hst, hR, hle⟩ := he
  obtain ⟨m', out, inc, bits, buf⟩ := st'
  obtain ⟨m, out', inc', bits', buf'⟩ := st
  obtain ⟨rfl, rfl, rfl, rfl⟩ := EncodeRun.mk.inj hst |>.2
  unfold encodeByte
  simp only at hi ⊢
  rcases portRead_twin (p := p) (m0 := m0) (hr inc hi) (hb m m' inc hi hR) with
    ⟨b, h1, h2⟩ | ⟨why, h1, hh, ⟨b, h2, h3⟩ | ⟨why', h2, h3⟩⟩ <;> simp only [h1, h2]
  · split
    · exact Or.inl ⟨_, rfl, rfl, hR, hle⟩
    · exact hd _ _ _ ⟨rfl, hR, hle⟩
  · refine Or.inr (Or.inl ⟨hi, hh, Or.inr ⟨h3, ?_⟩⟩)
    split
    · exact Or.inr ⟨rfl, rfl⟩
    · exact Or.inl (Nat.lt_of_succ_le (hgrow _ { mem := m', out := out, inc := inc + 1, bits := _, buf := _ }).1)
  · exact Or.inr (Or.inl ⟨hi, hh, Or.inl ⟨_, why', rfl, ⟨rfl, hR, hle⟩, h3⟩⟩)

theorem encodeBytes_follows {s u : State} {R : Memory → Memory → Prop} (tw : Twins s u R) (n : Nat) {st st' : EncodeRun}
    (he : EncodeTwin s R st st') (hn : st.inc + n = s.srcLen.toNat) :
    (encodeBytes s n st.inc st).Follows (EncodeTwin s R) (EncodeMeets s u R) (encodeBytes u n st.inc st') := by
  induction n generalizing st st' with
  | zero => exact ⟨_, rfl, he⟩
  | succ n ih =>
    unfold encodeBytes
    refine (encodeByte_follows tw he (by omega)).andThen (fun a a' ha h => ?_) (fun _ _ h => h)
      (fun a why h => h.andThen (encodeBytes_grows u n _))
    have hinc := encodeByte_inc ha
    rw [← hinc]
    exact ih h (by omega)

theorem encodePad_follows {s u : State} {R : Memory → Memory → Prop} (tw : Twins s u R) {st st' : EncodeRun}
    (he : EncodeTwin s R st st') :
    (encodePad s st).Follows (EncodeTwin s R) (EncodeMeets s u R) (encodePad u st') := by
  have hb : st'.buf = st.buf := by rw [he.1]
  unfold encodePad
  rw [hb]
  split
  · exact ⟨_, rfl, he⟩
  · refine (emitByte_follows tw _ he).andThen (fun a a' _ h => ⟨_, rfl, ?_, h.2.1, h.2.2⟩) (fun _ _ h => h)
      (fun a why h => h.andThen (fun a' => ⟨le_rfl, le_rfl⟩))
    rw [h.1]

/-- The whole of ENCODE on two machines. -/
theorem encodeStream_follows {s u : State} {R : Memory → Memory → Prop} (tw : Twins s u R) :
    (encodeStream s).Follows (EncodeTwin s R) (EncodeMeets s u R) (encodeStream u) := by
  have hp : codecPrecheck u = codecPrecheck s ∧ u.srcLen = s.srcLen := by obtain ⟨p, m0, rfl⟩ := tw.same; exact ⟨rfl, rfl⟩
  have h0 : EncodeTwin s R (encodeStart s) (encodeStart u) := ⟨rfl, tw.start, Nat.zero_le _⟩
  unfold encodeStream
  rw [hp.1, hp.2]
  split
  · exact Or.inl ⟨_, rfl, h0⟩
  · exact (encodeBytes_follows tw _ h0 (Nat.zero_add _)).andThen (fun a a' _ h => encodePad_follows tw h) (fun _ _ h => h)
      (fun a why h => h.andThen (encodePad_grows u))

/-! ### DECODE -/

/-- A flow has come no less far than a state. -/
def DecodeRun.Grows (st : DecodeRun) (f : Flow DecodeRun) : Prop := st.bits ≤ f.reached.bits ∧ st.out ≤ f.reached.out

theorem DecodeRun.Grows.andThen {st : DecodeRun} {f : Flow DecodeRun} {k : DecodeRun → Flow DecodeRun} (h : st.Grows f)
    (hk : ∀ st' : DecodeRun, f = .go st' → st'.Grows (k st')) : st.Grows (f.andThen k) := by
  cases f with
  | go st' => exact ⟨le_trans h.1 (hk st' rfl).1, le_trans h.2 (hk st' rfl).2⟩
  | halt st' why => exact h

/-- A fetch consumes no bit and writes nothing. -/
theorem fetchByte_keeps (s : State) (j : Nat) (st : DecodeRun) : ∃ b, (fetchByte s j st).reached = { st with byte := b } := by
  unfold fetchByte
  split
  · split
    · exact ⟨_, rfl⟩
    · exact ⟨_, rfl⟩
  · exact ⟨_, rfl⟩

theorem fetchByte_grows (s : State) (j : Nat) (st : DecodeRun) : st.Grows (fetchByte s j st) := by
  obtain ⟨b, h⟩ := fetchByte_keeps s j st
  unfold DecodeRun.Grows
  rw [h]
  exact ⟨le_rfl, le_rfl⟩

theorem walkBit_grows (s : State) (st : DecodeRun) : st.Grows (walkBit s st.bits st) := by
  unfold walkBit
  simp only
  split
  · exact ⟨le_rfl, le_rfl⟩
  · split
    · split
      · exact ⟨le_rfl, le_rfl⟩
      · split
        · exact ⟨le_rfl, le_rfl⟩
        · exact ⟨Nat.le_succ _, Nat.le_succ _⟩
    · exact ⟨Nat.le_succ _, le_rfl⟩

theorem walkBit_bits {s : State} {j : Nat} {st st' : DecodeRun} (h : walkBit s j st = .go st') : st'.bits = j + 1 := by
  unfold walkBit at h
  simp only at h
  split at h
  · cases h
  · split at h
    · split at h
      · cases h
      · split at h
        · cases h
        · cases h; rfl
    · cases h; rfl

/-- One bit: fetch, then walk. -/
theorem bitStep_grows (s : State) (st : DecodeRun) : st.Grows ((fetchByte s st.bits st).andThen (walkBit s st.bits)) := by
  refine (fetchByte_grows s _ st).andThen (fun st' h => ?_)
  obtain ⟨b, hb⟩ := fetchByte_keeps s st.bits st
  rw [h] at hb
  have : st'.bits = st.bits := by rw [show st' = _ from hb]
  rw [← this]
  exact walkBit_grows s st'

theorem bitStep_bits {s : State} {j : Nat} {st st' : DecodeRun} (h : (fetchByte s j st).andThen (walkBit s j) = .go st') :
    st'.bits = j + 1 := by
  cases hf : fetchByte s j st with
  | go a => rw [hf] at h; exact walkBit_bits h
  | halt a why => rw [hf] at h; cases h

theorem decodeBits_grows (s : State) (n : Nat) (st : DecodeRun) : st.Grows (decodeBits s n st.bits st) := by
  induction n generalizing st with
  | zero => exact ⟨le_rfl, le_rfl⟩
  | succ n ih =>
    unfold decodeBits
    refine (bitStep_grows s st).andThen (fun st' h => ?_)
    rw [← bitStep_bits h]
    exact ih st'

theorem decodeEnd_grows (s : State) (st : DecodeRun) : st.Grows (decodeEnd s st) := by
  unfold decodeEnd
  split
  · exact ⟨le_rfl, le_rfl⟩
  · split <;> exact ⟨le_rfl, le_rfl⟩

/-- Two DECODE streams at the same point, with related memories. -/
def DecodeTwin (s : State) (R : Memory → Memory → Prop) (st st' : DecodeRun) : Prop :=
  st' = { st with mem := st'.mem } ∧ R st.mem st'.mem ∧ st.out ≤ s.dstCap.toNat

/-- Where the first DECODE halts at an access. -/
def DecodeMeets (s u : State) (R : Memory → Memory → Prop) (st : DecodeRun) (why : Halt) (g : Flow DecodeRun) : Prop :=
  (st.bits < s.tbits.toNat ∧ st.bits % 8 = 0 ∧
    Met (DecodeTwin s R) st why g (s.srcAddr + BitVec.ofNat 32 (st.bits / 8))
      (readAnswer s (s.srcAddr + BitVec.ofNat 32 (st.bits / 8))) (readAnswer u (s.srcAddr + BitVec.ofNat 32 (st.bits / 8)))
      (st.bits ≤ g.reached.bits)) ∨
  (st.out < s.dstCap.toNat ∧
    Met (DecodeTwin s R) st why g (s.dstAddr + BitVec.ofNat 32 st.out) (writeAnswer s (s.dstAddr + BitVec.ofNat 32 st.out))
      (writeAnswer u (s.dstAddr + BitVec.ofNat 32 st.out)) (st.out < g.reached.out))

theorem DecodeMeets.andThen {s u : State} {R : Memory → Memory → Prop} {st : DecodeRun} {why : Halt} {g : Flow DecodeRun}
    {k : DecodeRun → Flow DecodeRun} (h : DecodeMeets s u R st why g) (hk : ∀ st' : DecodeRun, g = .go st' → st'.Grows (k st')) :
    DecodeMeets s u R st why (g.andThen k) := by
  rcases h with ⟨h1, h8, h2⟩ | ⟨h1, h2⟩
  · refine Or.inl ⟨h1, h8, h2.andThen (fun _ _ h => h) ?_⟩
    cases g with
    | go st' => exact fun h => le_trans h (hk st' rfl).1
    | halt st' why' => exact id
  · refine Or.inr ⟨h1, h2.andThen (fun _ _ h => h) ?_⟩
    cases g with
    | go st' => exact fun h => lt_of_lt_of_le h (hk st' rfl).2
    | halt st' why' => exact id

theorem fetchByte_follows {s u : State} {R : Memory → Memory → Prop} (tw : Twins s u R) {st st' : DecodeRun}
    (he : DecodeTwin s R st st') (hj : st.bits < s.tbits.toNat) (hk : st.bits / 8 < s.srcLen.toNat) :
    (fetchByte s st.bits st).Follows (fun a a' => DecodeTwin s R a a' ∧ a.bits = st.bits) (DecodeMeets s u R)
      (fetchByte u st.bits st') := by
  obtain ⟨⟨p, m0, rfl⟩, hr, -, -, hb, -⟩ := tw
  obtain ⟨hst, hR, hle⟩ := he
  obtain ⟨m', out, bits, byte, cur⟩ := st'
  obtain ⟨m, out', bits', byte', cur'⟩ := st
  obtain ⟨rfl, rfl, rfl, rfl⟩ := DecodeRun.mk.inj hst |>.2
  unfold fetchByte
  simp only at hj hk ⊢
  split
  · next h8 =>
    rcases portRead_twin (p := p) (m0 := m0) (hr _ hk) (hb m m' _ hk hR) with
      ⟨b, h1, h2⟩ | ⟨why, h1, hh, ⟨b, h2, h3⟩ | ⟨why', h2, h3⟩⟩ <;> simp only [h1, h2]
    · exact ⟨_, rfl, ⟨rfl, hR, hle⟩, rfl⟩
    · exact Or.inr (Or.inl ⟨hj, h8, hh, Or.inr ⟨h3, le_rfl⟩⟩)
    · exact Or.inr (Or.inl ⟨hj, h8, hh, Or.inl ⟨_, why', rfl, ⟨rfl, hR, hle⟩, h3⟩⟩)
  · exact ⟨_, rfl, ⟨rfl, hR, hle⟩, rfl⟩

theorem walkBit_follows {s u : State} {R : Memory → Memory → Prop} (tw : Twins s u R) (j : Nat) {st st' : DecodeRun}
    (he : DecodeTwin s R st st') :
    (walkBit s j st).Follows (DecodeTwin s R) (DecodeMeets s u R) (walkBit u j st') := by
  obtain ⟨⟨p, m0, rfl⟩, -, hw, -, -, hwr⟩ := tw
  obtain ⟨hst, hR, hle⟩ := he
  obtain ⟨m', out, bits, byte, cur⟩ := st'
  obtain ⟨m, out', bits', byte', cur'⟩ := st
  obtain ⟨rfl, rfl, rfl, rfl⟩ := DecodeRun.mk.inj hst |>.2
  unfold walkBit
  simp only
  split
  · exact Or.inl ⟨_, rfl, rfl, hR, hle⟩
  · split
    · split
      · exact Or.inl ⟨_, rfl, rfl, hR, hle⟩
      · next hc =>
        have hlt : out < s.dstCap.toNat := lt_of_le_of_ne hle hc
        rcases portWrite_twin (p := p) (m0 := m0) (m := m) (m' := m')
            (v := (nodeAt s.node (childOf (nodeAt s.node cur) (streamBit byte j))).sym) (hw out hlt) with
          ⟨w, h1, h2⟩ | ⟨why, h1, hh, ⟨m1, h2, h3⟩ | ⟨why', h2, h3⟩⟩ <;> simp only [h1, h2]
        · exact ⟨_, rfl, rfl, hwr _ _ _ _ hlt hR, hlt⟩
        · exact Or.inr (Or.inr ⟨hlt, hh, Or.inr ⟨h3, Nat.lt_succ_self _⟩⟩)
        · exact Or.inr (Or.inr ⟨hlt, hh, Or.inl ⟨_, why', rfl, ⟨rfl, hR, hle⟩, h3⟩⟩)
    · exact ⟨_, rfl, rfl, hR, hle⟩

theorem bitStep_follows {s u : State} {R : Memory → Memory → Prop} (tw : Twins s u R) {st st' : DecodeRun}
    (he : DecodeTwin s R st st') (hj : st.bits < s.tbits.toNat) (hk : st.bits / 8 < s.srcLen.toNat) :
    ((fetchByte s st.bits st).andThen (walkBit s st.bits)).Follows (DecodeTwin s R) (DecodeMeets s u R)
      ((fetchByte u st.bits st').andThen (walkBit u st.bits)) := by
  have hb : st'.bits = st.bits := by rw [he.1]
  refine (fetchByte_follows tw he hj hk).andThen (fun a a' _ h => walkBit_follows tw _ h.1) (fun _ _ h => h.1)
    (fun a why h => h.andThen (fun b hf => ?_))
  obtain ⟨y, hy⟩ := fetchByte_keeps u st.bits st'
  rw [hf] at hy
  have : b.bits = st.bits := by rw [show b = _ from hy]; exact hb
  rw [← this]
  exact walkBit_grows u b

theorem decodeBits_follows {s u : State} {R : Memory → Memory → Prop} (tw : Twins s u R)
    (hlen : ceilDiv s.tbits.toNat 8 ≤ s.srcLen.toNat) (n : Nat) {st st' : DecodeRun}
    (he : DecodeTwin s R st st') (hn : st.bits + n = s.tbits.toNat) :
    (decodeBits s n st.bits st).Follows (DecodeTwin s R) (DecodeMeets s u R) (decodeBits u n st.bits st') := by
  induction n generalizing st st' with
  | zero => exact ⟨_, rfl, he⟩
  | succ n ih =>
    have hk : st.bits / 8 < s.srcLen.toNat := by unfold ceilDiv at hlen; omega
    unfold decodeBits
    refine (bitStep_follows tw he (by omega) hk).andThen (fun a a' ha h => ?_) (fun _ _ h => h)
      (fun a why h => h.andThen (fun b hb => ?_))
    · rw [← bitStep_bits ha]
      exact ih h (by have := bitStep_bits ha; omega)
    · rw [← bitStep_bits hb]
      exact decodeBits_grows u n b

theorem decodeEnd_follows {s u : State} {R : Memory → Memory → Prop} (tw : Twins s u R) {st st' : DecodeRun}
    (he : DecodeTwin s R st st') :
    (decodeEnd s st).Follows (DecodeTwin s R) (DecodeMeets s u R) (decodeEnd u st') := by
  obtain ⟨p, m0, rfl⟩ := tw.same
  have hc : st'.cur = st.cur ∧ st'.out = st.out := by rw [he.1]; exact ⟨rfl, rfl⟩
  unfold decodeEnd
  rw [hc.1, hc.2]
  split
  · exact Or.inl ⟨_, rfl, he⟩
  · split
    · exact Or.inl ⟨_, rfl, he⟩
    · exact ⟨_, rfl, he⟩

/-- The whole of DECODE on two machines. -/
theorem decodeStream_follows {s u : State} {R : Memory → Memory → Prop} (tw : Twins s u R) :
    (decodeStream s).Follows (DecodeTwin s R) (DecodeMeets s u R) (decodeStream u) := by
  have hp : codecPrecheck u = codecPrecheck s ∧ u.srcLen = s.srcLen ∧ u.tbits = s.tbits := by
    obtain ⟨p, m0, rfl⟩ := tw.same; exact ⟨rfl, rfl, rfl⟩
  have h0 : DecodeTwin s R (decodeStart s) (decodeStart u) := by
    have hs := tw.start
    obtain ⟨p, m0, rfl⟩ := tw.same
    exact ⟨rfl, hs, Nat.zero_le _⟩
  unfold decodeStream
  rw [hp.1, hp.2.1, hp.2.2]
  split
  · exact Or.inl ⟨_, rfl, h0⟩
  · split
    · exact Or.inl ⟨_, rfl, h0⟩
    · next hlen =>
      exact (decodeBits_follows tw (by omega) _ h0 (Nat.zero_add _)).andThen (fun a a' _ h => decodeEnd_follows tw h)
        (fun _ _ h => h) (fun a why h => h.andThen (fun b _ => decodeEnd_grows u b))

/-! ### A machine and the same with every access answered -/

@[simp] theorem Answer.ifAnswered_completes : Answer.completes.ifAnswered = .completes := rfl

/-- The platform of the answered machine gives the answer after all. -/
theorem readAnswer_answered (s : State) (m : Memory) (a : Word) :
    readAnswer { s with platform := s.platform.map Region.ifAnswered, mem := m } a = (readAnswer s a).ifAnswered := by
  have h : (fun r : Region => r.holds a.toNat) ∘ Region.ifAnswered = (fun r => r.holds a.toNat) := rfl
  simp only [readAnswer, List.find?_map, h]
  cases List.find? (fun r => r.holds a.toNat) s.platform <;> rfl

theorem writeAnswer_answered (s : State) (m : Memory) (a : Word) :
    writeAnswer { s with platform := s.platform.map Region.ifAnswered, mem := m } a = (writeAnswer s a).ifAnswered := by
  have h : (fun r : Region => r.holds a.toNat) ∘ Region.ifAnswered = (fun r => r.holds a.toNat) := rfl
  simp only [writeAnswer, List.find?_map, h]
  cases List.find? (fun r => r.holds a.toNat) s.platform <;> rfl

/-- Only source bytes without an answer are other bytes on the answered machine. -/
theorem answeredMemory_read {s : State} {a : Word} (h : readUnanswered s a = false) :
    (answeredMemory s).read a.toNat = s.mem.read a.toNat := by
  unfold answeredMemory
  generalize (List.range s.srcLen.toNat).map (fun k => s.srcAddr + BitVec.ofNat 32 k) = as
  suffices ∀ m : Memory, (as.foldl (fun m a => if readUnanswered s a then
      m.write a.toNat (Config.unansweredByte s.tick a.toNat) else m) m).read a.toNat = m.read a.toNat from this _
  induction as with
  | nil => exact fun m => rfl
  | cons x xs ih =>
    intro m
    rw [List.foldl_cons, ih]
    split
    · next hx =>
      refine Memory.read_write_other (fun he => ?_)
      rw [BitVec.eq_of_toNat_eq he, hx] at h
      cases h
    · rfl

/-- Two memories agree on every source byte the platform lets the engine read. -/
def SameSource (s : State) (m m' : Memory) : Prop :=
  ∀ k, k < s.srcLen.toNat → readAnswer s (s.srcAddr + BitVec.ofNat 32 k) = .completes →
    m'.read (s.srcAddr + BitVec.ofNat 32 k).toNat = m.read (s.srcAddr + BitVec.ofNat 32 k).toNat

/-- The answered machine follows the machine, byte for byte where the machine's platform completes. -/
theorem Twins.answered {s : State} (ho : overlaps s.srcAddr s.srcLen s.dstAddr s.dstCap = false)
    (hs : inRange s.srcAddr s.srcLen = true) (hd : inRange s.dstAddr s.dstCap = true) :
    Twins s (answeredState s) (SameSource s) where
  same := ⟨_, _, rfl⟩
  read := fun k _ h => by rw [answeredState, readAnswer_answered, h]; rfl
  write := fun k _ h => by rw [answeredState, writeAnswer_answered, h]; rfl
  start := fun k _ h => answeredMemory_read (by simp [readUnanswered, h])
  byte := fun m m' k hk hR h => hR k hk h
  wrote := fun m m' j v hj hR k hk h => by
    have hne : (s.srcAddr + BitVec.ofNat 32 k).toNat ≠ (s.dstAddr + BitVec.ofNat 32 j).toNat := by
      rw [toNat_add_ofNat hs hk, toNat_add_ofNat hd hj]
      have := source_outside_destination ho hk
      omega
    rw [Memory.read_write_other hne, Memory.read_write_other hne]
    exact hR k hk h

/-- A refused access is refused on the answered machine too: at one that both halt at, both give the same reason, or the machine's
access had no answer. -/
theorem Answer.ifAnswered_halts {a : Word} {ans : Answer} {why : Halt} (h : ans.Halts a why) :
    (why = .busError a ∧ ans.ifAnswered = .refuses) ∨ ((why = .noAnswer ∨ why = .device) ∧ ans.ifAnswered = .completes) := by
  cases ans
  · exact h.elim
  · exact Or.inl ⟨h, rfl⟩
  · exact Or.inr ⟨Or.inl h, rfl⟩
  · exact Or.inr ⟨Or.inr h, rfl⟩

/-- Where an access meets an answer, the answered machine stands at the same place, or the access had no answer. -/
theorem Met.answered {σ : Type} {E : σ → σ → Prop} {st : σ} {why : Halt} {g : Flow σ} {a : Word} {ans : Answer} {past : Prop}
    (h : Met E st why g a ans ans.ifAnswered past) :
    (∃ st' why', g = .halt st' why' ∧ E st st') ∨ why = .noAnswer ∨ why = .device := by
  obtain ⟨h1, ⟨st', why', hg, he, -⟩ | ⟨h2, -⟩⟩ := h
  · exact Or.inl ⟨st', why', hg, he⟩
  · rcases Answer.ifAnswered_halts h1 with ⟨-, hr⟩ | ⟨hw, -⟩
    · rw [hr] at h2; cases h2
    · exact Or.inr hw

/-- What ENCODE would write, where it stops at no unanswered access, is what it writes with every access answered. -/
theorem encodeStream_answered (s : State) :
    (encodeStream (answeredState s)).reached.out = (encodeStream s).reached.out ∨
      (encodeStream s).stop = some .noAnswer ∨ (encodeStream s).stop = some .device := by
  rcases encodeStream_cases s with ⟨e, hp, h⟩ | ⟨hp, -⟩
  · have hu : encodeStream (answeredState s) = .halt (encodeStart (answeredState s)) (.error e) := by
      unfold encodeStream; rw [show codecPrecheck (answeredState s) = some e from hp]
    rw [h, hu]; exact Or.inl rfl
  · obtain ⟨-, hs, hd, ho⟩ := codecPrecheck_none hp
    have hf := encodeStream_follows (Twins.answered ho hs hd)
    cases hst : encodeStream s with
    | go st =>
      rw [hst] at hf
      obtain ⟨st', hg, he⟩ := hf
      rw [hg]; exact Or.inl (by simp only [Flow.reached]; rw [he.1])
    | halt st why =>
      rw [hst] at hf
      have hout : ∀ {st' : EncodeRun} {why' : Halt}, encodeStream (answeredState s) = .halt st' why' →
          EncodeTwin s (SameSource s) st st' → (encodeStream (answeredState s)).reached.out = st.out := by
        intro st' why' hg he
        rw [hg]; simp only [Flow.reached]; rw [he.1]
      rcases hf with ⟨st', hg, he⟩ | ⟨-, hm⟩ | ⟨-, hm⟩
      · exact Or.inl (hout hg he)
      · rw [answeredState, readAnswer_answered] at hm
        rcases hm.answered with ⟨st', why', hg, he⟩ | h | h
        · exact Or.inl (hout hg he)
        · exact Or.inr (Or.inl (by simp [Flow.stop, h]))
        · exact Or.inr (Or.inr (by simp [Flow.stop, h]))
      · rw [answeredState, writeAnswer_answered] at hm
        rcases hm.answered with ⟨st', why', hg, he⟩ | h | h
        · exact Or.inl (hout hg he)
        · exact Or.inr (Or.inl (by simp [Flow.stop, h]))
        · exact Or.inr (Or.inr (by simp [Flow.stop, h]))

/-- The same of DECODE. -/
theorem decodeStream_answered (s : State) :
    (decodeStream (answeredState s)).reached.out = (decodeStream s).reached.out ∨
      (decodeStream s).stop = some .noAnswer ∨ (decodeStream s).stop = some .device := by
  rcases decodeStream_cases s with ⟨e, hp, h⟩ | ⟨hp, ht, h⟩ | ⟨hp, -, -⟩
  · have hu : decodeStream (answeredState s) = .halt (decodeStart (answeredState s)) (.error e) := by
      unfold decodeStream; rw [show codecPrecheck (answeredState s) = some e from hp]
    rw [h, hu]; exact Or.inl rfl
  · have hu : decodeStream (answeredState s) = .halt (decodeStart (answeredState s)) (.error .truncated) := by
      unfold decodeStream
      rw [show codecPrecheck (answeredState s) = none from hp]
      exact if_pos ht
    rw [h, hu]; exact Or.inl rfl
  · obtain ⟨-, hs, hd, ho⟩ := codecPrecheck_none hp
    have hf := decodeStream_follows (Twins.answered ho hs hd)
    cases hst : decodeStream s with
    | go st =>
      rw [hst] at hf
      obtain ⟨st', hg, he⟩ := hf
      rw [hg]; exact Or.inl (by simp only [Flow.reached]; rw [he.1])
    | halt st why =>
      rw [hst] at hf
      have hout : ∀ {st' : DecodeRun} {why' : Halt}, decodeStream (answeredState s) = .halt st' why' →
          DecodeTwin s (SameSource s) st st' → (decodeStream (answeredState s)).reached.out = st.out := by
        intro st' why' hg he
        rw [hg]; simp only [Flow.reached]; rw [he.1]
      rcases hf with ⟨st', hg, he⟩ | ⟨-, -, hm⟩ | ⟨-, hm⟩
      · exact Or.inl (hout hg he)
      · rw [answeredState, readAnswer_answered] at hm
        rcases hm.answered with ⟨st', why', hg, he⟩ | h | h
        · exact Or.inl (hout hg he)
        · exact Or.inr (Or.inl (by simp [Flow.stop, h]))
        · exact Or.inr (Or.inr (by simp [Flow.stop, h]))
      · rw [answeredState, writeAnswer_answered] at hm
        rcases hm.answered with ⟨st', why', hg, he⟩ | h | h
        · exact Or.inl (hout hg he)
        · exact Or.inr (Or.inl (by simp [Flow.stop, h]))
        · exact Or.inr (Or.inr (by simp [Flow.stop, h]))

/-- What a stream would have written is what it writes with every access answered. -/
theorem streamExtent_answered {out answered : Nat} {stop : Option Halt}
    (h : answered = out ∨ stop = some .noAnswer ∨ stop = some .device) : streamExtent out stop answered = answered := by
  rcases h with rfl | rfl | rfl
  · rcases streamExtent_cases answered stop answered with h | h <;> exact h
  · rfl
  · rfl

/-! ### The first access that does not complete -/

/-- `s` with a platform that refuses the address `a` alone. -/
abbrev refusingAt (s : State) (a : Word) : State :=
  { s with platform := [{ base := a.toNat, size := 1, onRead := .refuses, onWrite := .refuses }] }

theorem readAnswer_refusingAt (s : State) (a b : Word) :
    readAnswer (refusingAt s a) b = if b = a then .refuses else .completes := by
  have h : (a.toNat ≤ b.toNat ∧ b.toNat < a.toNat + 1) ↔ b = a := by bv_omega
  simp only [readAnswer, List.find?, Region.holds, ← Bool.decide_and, h]
  by_cases hb : b = a <;> simp [hb]

theorem writeAnswer_refusingAt (s : State) (a b : Word) :
    writeAnswer (refusingAt s a) b = if b = a then .refuses else .completes := by
  have h : (a.toNat ≤ b.toNat ∧ b.toNat < a.toNat + 1) ↔ b = a := by bv_omega
  simp only [writeAnswer, List.find?, Region.holds, ← Bool.decide_and, h]
  by_cases hb : b = a <;> simp [hb]

theorem Answer.halts_refusingAt {a b c : Word} {why : Halt} (h : (if b = a then Answer.refuses else .completes).Halts c why) :
    b = a ∧ why = .busError c := by
  split at h
  · exact ⟨‹_›, h⟩
  · exact h.elim

/-- A destination address is outside the source range, once the overlap check has passed (20_memory.md R72). -/
theorem destination_outside_source {s : State} {k : Nat} (hd : inRange s.dstAddr s.dstCap = true)
    (ho : overlaps s.srcAddr s.srcLen s.dstAddr s.dstCap = false) (hk : k < s.dstCap.toNat) :
    inBuffer s.srcAddr s.srcLen (s.dstAddr + BitVec.ofNat 32 k) = false := by
  have h1 := source_outside_destination ho (k := (s.dstAddr + BitVec.ofNat 32 k).toNat - s.srcAddr.toNat)
  have h2 := toNat_add_ofNat hd hk
  simp only [inBuffer, Bool.and_eq_false_iff, decide_eq_false_iff_not]
  omega

/-- Where `a` is the first address not to complete, the machine that refuses `a` alone follows it with the same memory. -/
theorem Twins.refusingAt {s : State} {a : Word} {ans : Answer} (hne : ans ≠ .completes)
    (hs : inRange s.srcAddr s.srcLen = true) (hd : inRange s.dstAddr s.dstCap = true)
    (ho : overlaps s.srcAddr s.srcLen s.dstAddr s.dstCap = false)
    (ha : if inBuffer s.srcAddr s.srcLen a then readAnswer s a = ans else writeAnswer s a = ans) :
    Twins s (refusingAt s a) Eq where
  same := ⟨_, _, rfl⟩
  read := fun k hk h => by
    rw [readAnswer_refusingAt]
    split
    · next he =>
      rw [← he, if_pos (inBuffer_add hs hk)] at ha
      exact absurd (ha.symm.trans h) hne
    · rfl
  write := fun k hk h => by
    rw [writeAnswer_refusingAt]
    split
    · next he =>
      rw [← he, destination_outside_source hd ho hk] at ha
      exact absurd (ha.symm.trans h) hne
    · rfl
  start := rfl
  byte := fun m m' k _ h _ => by rw [h]
  wrote := fun m m' k v _ h => by rw [h]

theorem Streamed.toNat_out {s : State} {m : Memory} {out : Nat} (h : Streamed s m out) : (BitVec.ofNat 32 out).toNat = out := by
  have h1 := h.out_le
  have h2 := s.dstCap.isLt
  rw [BitVec.toNat_ofNat, Nat.mod_eq_of_lt (by omega)]

/-- An access that halts a stream did not complete. -/
theorem Answer.Halts.ne_completes {a : Word} {why : Halt} {ans : Answer} (h : ans.Halts a why) : ans ≠ .completes := by
  rintro rfl; exact h

theorem Answer.Halts.of_busError {a b : Word} {ans : Answer} (h : ans.Halts b (.busError a)) : a = b ∧ ans = .refuses := by
  cases ans <;> cases h
  exact ⟨rfl, rfl⟩

/-- How the first access of ENCODE that does not complete ends it. -/
theorem encode_firstStop {s u : State} {a : Word} {ans : Answer} (h : FirstStop .encode s u a ans) (hne : ans ≠ .completes) :
    ∃ st why, ans.Halts a why ∧ encodeStream s = .halt st why ∧
      u = codecDone (refusingAt s a) st.mem st.out st.inc st.bits a 0x0D#8 := by
  obtain ⟨hx, hcode, hwrites, hstop⟩ := h
  rcases encodeStream_cases (refusingAt s a) with ⟨e, hp, hf⟩ | ⟨hp, hpost⟩
  · rw [execEncode_halt hf] at hx
    cases hx
    rcases codecPrecheck_some hp with rfl | rfl | rfl <;> cases hcode
  obtain ⟨-, hs, hd, ho⟩ := codecPrecheck_none hp
  have hs : inRange s.srcAddr s.srcLen = true := hs
  have hd : inRange s.dstAddr s.dstCap = true := hd
  have ho : overlaps s.srcAddr s.srcLen s.dstAddr s.dstCap = false := ho
  have hF := encodeStream_follows (Twins.refusingAt (a := a) hne hs hd ho (by split at hstop <;> rw [hstop.2] <;> simp [*]))
  cases hf : encodeStream (refusingAt s a) with
  | go st => rw [execEncode_go hf] at hx; cases hx; cases hcode
  | halt st' why' =>
    rw [hf] at hpost hF
    rw [execEncode_halt hf] at hx
    have hk : EncodeKeeps (refusingAt s a) st' := hpost.1
    have hwhy : why' = .busError a := by
      obtain ⟨-, ⟨rfl, -⟩ | ⟨rfl, -⟩ | ⟨-, -, hh⟩ | ⟨-, -, hh⟩⟩ := hpost
      · cases hx; cases hcode
      · cases hx; cases hcode
      · rw [readAnswer_refusingAt] at hh
        obtain ⟨he, hw⟩ := Answer.halts_refusingAt hh
        rw [hw, he]
      · rw [writeAnswer_refusingAt] at hh
        obtain ⟨he, hw⟩ := Answer.halts_refusingAt hh
        rw [hw, he]
    subst hwhy
    cases hx
    have hinc : (BitVec.ofNat 32 st'.inc).toNat = st'.inc := by
      have h1 := hk.inc_le
      have h2 := s.srcLen.isLt
      rw [BitVec.toNat_ofNat, Nat.mod_eq_of_lt (lt_of_le_of_lt h1 h2)]
    have hreads : ReadsComplete s s.srcAddr st'.inc := by
      rw [← hinc]
      split at hstop
      · exact hstop.1
      · exact hstop.1
    have hwrites : WritesComplete s s.dstAddr st'.out := by
      rw [← hk.streamed.toNat_out]; exact hwrites
    -- the answer at `a`, by the range it lies in
    have hread : ∀ {k}, k < s.srcLen.toNat → s.srcAddr + BitVec.ofNat 32 k = a →
        readAnswer s (s.srcAddr + BitVec.ofNat 32 k) = ans := fun hk he => by
      rw [← he, if_pos (inBuffer_add hs hk)] at hstop; exact hstop.2
    have hwrite : ∀ {k}, k < s.dstCap.toNat → s.dstAddr + BitVec.ofNat 32 k = a →
        writeAnswer s (s.dstAddr + BitVec.ofNat 32 k) = ans := fun hk he => by
      rw [← he, destination_outside_source hd ho hk] at hstop; exact hstop.2
    have hsame : ∀ {st}, EncodeTwin s Eq st st' → st = st' := fun {st} he => by
      rw [he.1, ← he.2.1]
    cases hst : encodeStream s with
    | go st => rw [hst] at hF; obtain ⟨_, hg, -⟩ := hF; cases hg
    | halt st why =>
      rw [hst] at hF
      rcases hF with ⟨st2, hg, he⟩ | ⟨hi, hh, hm⟩ | ⟨hi, hh, hm⟩
      · cases hg
        obtain rfl := hsame he
        refine ⟨st, .busError a, ?_, rfl, rfl⟩
        rcases encodeStream_cases s with ⟨e, hp', -⟩ | ⟨-, hpost'⟩
        · rw [show codecPrecheck s = none from hp] at hp'; cases hp'
        · rw [hst] at hpost'
          obtain ⟨-, ⟨hc, -⟩ | ⟨hc, -⟩ | ⟨hi, -, hh⟩ | ⟨hi, -, hh⟩⟩ := hpost'
          · cases hc
          · cases hc
          · rw [← hread hi hh.of_busError.1.symm, hh.of_busError.2]; rfl
          · rw [← hwrite hi hh.of_busError.1.symm, hh.of_busError.2]; rfl
      · rcases hm with ⟨st2, why2, hg, he, hh2⟩ | ⟨-, hpast⟩
        · cases hg
          obtain rfl := hsame he
          rw [readAnswer_refusingAt] at hh2
          have ha := (Answer.halts_refusingAt hh2).1
          rw [hread hi ha, ha] at hh
          exact ⟨st, why, hh, rfl, rfl⟩
        · rcases hpast with hlt | ⟨-, hc⟩
          · exact absurd (hreads _ hlt) hh.ne_completes
          · cases hc
      · rcases hm with ⟨st2, why2, hg, he, hh2⟩ | ⟨-, hlt⟩
        · cases hg
          obtain rfl := hsame he
          rw [writeAnswer_refusingAt] at hh2
          have ha := (Answer.halts_refusingAt hh2).1
          rw [hwrite hi ha, ha] at hh
          exact ⟨st, why, hh, rfl, rfl⟩
        · exact absurd (hwrites _ hlt) hh.ne_completes

/-- How the first access of DECODE that does not complete ends it. -/
theorem decode_firstStop {s u : State} {a : Word} {ans : Answer} (h : FirstStop .decode s u a ans) (hne : ans ≠ .completes) :
    ∃ st why, ans.Halts a why ∧ decodeStream s = .halt st why ∧
      u = codecDone (refusingAt s a) st.mem st.out (ceilDiv st.bits 8) st.bits a 0x0D#8 := by
  obtain ⟨hx, hcode, hwrites, hstop⟩ := h
  rcases decodeStream_cases (refusingAt s a) with ⟨e, hp, hf⟩ | ⟨hp, -, hf⟩ | ⟨hp, hlen, hpost⟩
  · rw [execDecode_halt hf] at hx
    cases hx
    rcases codecPrecheck_some hp with rfl | rfl | rfl <;> cases hcode
  · rw [execDecode_halt hf] at hx
    cases hx
    cases hcode
  obtain ⟨-, hs, hd, ho⟩ := codecPrecheck_none hp
  have hs : inRange s.srcAddr s.srcLen = true := hs
  have hd : inRange s.dstAddr s.dstCap = true := hd
  have ho : overlaps s.srcAddr s.srcLen s.dstAddr s.dstCap = false := ho
  have hlen : ceilDiv s.tbits.toNat 8 ≤ s.srcLen.toNat := hlen
  have hsource : ∀ {j}, j < s.tbits.toNat → j / 8 < s.srcLen.toNat := fun h => by unfold ceilDiv at hlen; omega
  have hF := decodeStream_follows (Twins.refusingAt (a := a) hne hs hd ho (by split at hstop <;> rw [hstop.2] <;> simp [*]))
  cases hf : decodeStream (refusingAt s a) with
  | go st => rw [execDecode_go hf] at hx; cases hx; cases hcode
  | halt st' why' =>
    rw [hf] at hpost hF
    rw [execDecode_halt hf] at hx
    have hk : DecodeKeeps (refusingAt s a) st' := hpost.1
    have hbits : (BitVec.ofNat 64 st'.bits).toNat = st'.bits := by
      have h1 := hk.bits_le
      have h2 := s.tbits.isLt
      rw [BitVec.toNat_ofNat, Nat.mod_eq_of_lt (lt_of_le_of_lt h1 h2)]
    -- where the machine that refuses `a` halts: at a read of `a`, or at a write
    have hat : why' = .busError a ∧ ((st'.bits % 8 = 0 ∧ st'.bits < s.tbits.toNat ∧
        s.srcAddr + BitVec.ofNat 32 (st'.bits / 8) = a) ∨ inBuffer s.srcAddr s.srcLen a = false) := by
      obtain ⟨-, ⟨rfl, -⟩ | ⟨rfl, -⟩ | ⟨hb, h8, hh⟩ | ⟨hi, -, hh⟩ | ⟨rfl, -⟩ | ⟨rfl, -⟩⟩ := hpost
      · cases hx; cases hcode
      · cases hx; cases hcode
      · rw [readAnswer_refusingAt] at hh
        obtain ⟨he, hw⟩ := Answer.halts_refusingAt hh
        exact ⟨by rw [hw, he], Or.inl ⟨h8, hb, he⟩⟩
      · rw [writeAnswer_refusingAt] at hh
        obtain ⟨he, hw⟩ := Answer.halts_refusingAt hh
        exact ⟨by rw [hw, he], Or.inr (by rw [← he]; exact destination_outside_source hd ho hi)⟩
      · cases hx; cases hcode
      · cases hx; cases hcode
    obtain ⟨rfl, hat⟩ := hat
    cases hx
    have hwrites : WritesComplete s s.dstAddr st'.out := by
      rw [← hk.streamed.toNat_out]; exact hwrites
    -- every bit before the halt, and at a write the bit of the halt, is of a byte that the platform lets the engine read
    have hreads : ∀ j, j % 8 = 0 → j ≤ st'.bits → s.srcAddr + BitVec.ofNat 32 (j / 8) ≠ a →
        readAnswer s (s.srcAddr + BitVec.ofNat 32 (j / 8)) = .completes := by
      intro j h8 hj hja
      rcases hat with ⟨h8', hb', he⟩ | hin
      · rw [← he, if_pos (inBuffer_add hs (hsource hb'))] at hstop
        refine hstop.1 _ ?_
        have hne' : j ≠ st'.bits := by rintro rfl; exact hja he
        have hc : (BitVec.ofNat 32 (ceilDiv st'.bits 8)).toNat = st'.bits / 8 := by
          have h1 := hsource hb'
          have h2 := s.srcLen.isLt
          have h3 : ceilDiv st'.bits 8 = st'.bits / 8 := by unfold ceilDiv; omega
          rw [h3, BitVec.toNat_ofNat, Nat.mod_eq_of_lt (lt_trans h1 h2)]
        show _ < (BitVec.ofNat 32 (ceilDiv st'.bits 8)).toNat
        rw [hc]; omega
      · rw [hin] at hstop
        refine hstop.1 _ ?_
        show _ < (BitVec.ofNat 64 st'.bits).toNat / 8 + 1
        rw [hbits]; omega
    have hread : ∀ {k}, k < s.srcLen.toNat → s.srcAddr + BitVec.ofNat 32 k = a →
        readAnswer s (s.srcAddr + BitVec.ofNat 32 k) = ans := fun hk he => by
      rw [← he, if_pos (inBuffer_add hs hk)] at hstop; exact hstop.2
    have hwrite : ∀ {k}, k < s.dstCap.toNat → s.dstAddr + BitVec.ofNat 32 k = a →
        writeAnswer s (s.dstAddr + BitVec.ofNat 32 k) = ans := fun hk he => by
      rw [← he, destination_outside_source hd ho hk] at hstop; exact hstop.2
    have hsame : ∀ {st}, DecodeTwin s Eq st st' → st = st' := fun {st} he => by
      rw [he.1, ← he.2.1]
    cases hst : decodeStream s with
    | go st => rw [hst] at hF; obtain ⟨_, hg, -⟩ := hF; cases hg
    | halt st why =>
      rw [hst] at hF
      rcases hF with ⟨st2, hg, he⟩ | ⟨hi, h8, hh, hm⟩ | ⟨hi, hh, hm⟩
      · cases hg
        obtain rfl := hsame he
        refine ⟨st, .busError a, ?_, rfl, rfl⟩
        rcases decodeStream_cases s with ⟨e, hp', -⟩ | ⟨-, ht, -⟩ | ⟨-, -, hpost'⟩
        · rw [show codecPrecheck s = none from hp] at hp'; cases hp'
        · omega
        · rw [hst] at hpost'
          obtain ⟨-, ⟨hc, -⟩ | ⟨hc, -⟩ | ⟨hi, -, hh⟩ | ⟨hi, -, hh⟩ | ⟨hc, -⟩ | ⟨hc, -⟩⟩ := hpost'
          · cases hc
          · cases hc
          · rw [← hread (hsource hi) hh.of_busError.1.symm, hh.of_busError.2]; rfl
          · rw [← hwrite hi hh.of_busError.1.symm, hh.of_busError.2]; rfl
          · cases hc
          · cases hc
      · rcases hm with ⟨st2, why2, hg, he, hh2⟩ | ⟨hu, hpast⟩
        · cases hg
          obtain rfl := hsame he
          rw [readAnswer_refusingAt] at hh2
          have ha := (Answer.halts_refusingAt hh2).1
          rw [hread (hsource hi) ha, ha] at hh
          exact ⟨st, why, hh, rfl, rfl⟩
        · refine absurd (hreads _ h8 hpast (fun he => ?_)) hh.ne_completes
          rw [readAnswer_refusingAt, if_pos he] at hu
          cases hu
      · rcases hm with ⟨st2, why2, hg, he, hh2⟩ | ⟨-, hlt⟩
        · cases hg
          obtain rfl := hsame he
          rw [writeAnswer_refusingAt] at hh2
          have ha := (Answer.halts_refusingAt hh2).1
          rw [hwrite hi ha, ha] at hh
          exact ⟨st, why, hh, rfl, rfl⟩
        · exact absurd (hwrites _ hlt) hh.ne_completes

/-- No other command makes an access that does not complete. -/
theorem FirstStop.codec {i : Instr} {s u : State} {a : Word} {ans : Answer} (h : FirstStop i s u a ans) :
    i = .encode ∨ i = .decode := by
  obtain ⟨hx, hcode, -⟩ := h
  cases i with
  | nop => cases hx; cases hcode
  | clrfreq => cases hx; cases hcode
  | build =>
    simp only [exec, execBuild] at hx
    split at hx <;> cases hx <;> cases hcode
  | gencode =>
    simp only [exec, execGencode] at hx
    split at hx <;> cases hx <;> cases hcode
  | encode => exact Or.inl rfl
  | decode => exact Or.inr rfl

/-- The first access that does not complete ends the command: in terms of `endCodec`. -/
theorem FirstStop.ends {i : Instr} {s u : State} {a : Word} {ans : Answer} (h : FirstStop i s u a ans) (hne : ans ≠ .completes) :
    ∃ m out inc bits why, ans.Halts a why ∧ exec i s = endCodec i s m out inc bits (some why) ∧
      u = codecDone (refusingAt s a) m out inc bits a 0x0D#8 := by
  rcases h.codec with rfl | rfl
  · obtain ⟨st, why, hh, hf, hu⟩ := encode_firstStop h hne
    exact ⟨_, _, _, _, why, hh, execEncode_halt hf, hu⟩
  · obtain ⟨st, why, hh, hf, hu⟩ := decode_firstStop h hne
    exact ⟨_, _, _, _, why, hh, execDecode_halt hf, hu⟩

end Sys2Proof.Machine
end

