-- ==== Sys2Proof/Laws/FileFormat.lean ====
section
/-! SUPPORT. The compressed file format: what is written reads back, field by field (46_host_procedures.md R187, R188). -/

namespace Sys2Proof.Machine

@[simp] theorem length_le32 (v : Word) : (le32 v).length = 4 := rfl

/-- A little-endian word reads back. -/
theorem ofLe32_le32 (v : Word) (rest : List Byte) : ofLe32 (le32 v ++ rest) = v := by
  simp [ofLe32, le32]
  apply BitVec.eq_of_toNat_eq
  have := v.isLt
  simp [Nat.shiftRight_eq_div_pow]
  omega

theorem ofLe32_take (r : List Byte) : ofLe32 (r.take 4) = ofLe32 r := by simp [ofLe32, List.take_take]

theorem length_entryBytes (es : List (Byte × Word)) : (entryBytes es).length = 5 * es.length := by
  induction es with
  | nil => rfl
  | cons e es ih =>
    simp only [entryBytes, List.flatMap_cons, List.length_append, List.length_cons, length_le32] at ih ⊢
    omega

/-- The entries read back. -/
theorem readEntries_append (es : List (Byte × Word)) (rest : List Byte) :
    readEntries es.length (entryBytes es ++ rest) = es := by
  induction es with
  | nil => rfl
  | cons e es ih =>
    have h1 : entryBytes (e :: es) ++ rest = e.1 :: (le32 e.2 ++ (entryBytes es ++ rest)) := by simp [entryBytes]
    have h2 : List.drop 4 (le32 e.2 ++ (entryBytes es ++ rest)) = entryBytes es ++ rest := by
      rw [List.drop_left' (length_le32 _)]
    rw [List.length_cons, readEntries, h1]
    simp only [List.headD_cons, List.drop_succ_cons, List.drop_zero, ofLe32_le32, h2, ih]

end Sys2Proof.Machine
end

