-- ==== Sys2Proof/Laws/Tree.lean ====
section
/-! SUPPORT. The tree builder: what the queue removes, and what the merge loop keeps (41_tree_builder.md R121 to R126). -/

namespace Sys2Proof.Machine

/-! ### The queue -/

theorem QueueKey.lt_iff (a b : QueueKey) :
    a.lt b = true ↔ a.weight.toNat < b.weight.toNat ∨ (a.weight.toNat = b.weight.toNat ∧ a.index < b.index) := by
  simp [QueueKey.lt, BitVec.toNat_eq]

theorem QueueKey.not_lt_iff (a b : QueueKey) :
    a.lt b = false ↔ b.weight.toNat < a.weight.toNat ∨ (b.weight.toNat = a.weight.toNat ∧ b.index ≤ a.index) := by
  rw [← Bool.not_eq_true, QueueKey.lt_iff]; omega

theorem leastKey_cons (k x : QueueKey) (xs : List QueueKey) :
    leastKey k (x :: xs) = leastKey (if x.lt k then x else k) xs := rfl

/-- The least key is one of the keys, and none is below it. -/
theorem leastKey_spec (k : QueueKey) (ks : List QueueKey) :
    leastKey k ks ∈ k :: ks ∧ ∀ x ∈ k :: ks, x.lt (leastKey k ks) = false := by
  induction ks generalizing k with
  | nil => simp [leastKey, QueueKey.not_lt_iff]
  | cons y ys ih =>
    rw [leastKey_cons]
    obtain ⟨h1, h2⟩ := ih (if y.lt k then y else k)
    constructor
    · rcases List.mem_cons.1 h1 with h | h
      · rw [h]; split <;> simp
      · simp [h]
    · intro x hx
      have h0 := h2 _ (by simp : (if y.lt k then y else k) ∈ _)
      rw [QueueKey.not_lt_iff] at h0
      rcases List.mem_cons.1 hx with rfl | hx
      · rw [QueueKey.not_lt_iff]
        split at h0
        · next h => rw [if_pos h]; rw [QueueKey.lt_iff] at h; omega
        · next h => rw [if_neg h]; exact h0
      · rcases List.mem_cons.1 hx with rfl | hx
        · rw [QueueKey.not_lt_iff]
          split at h0
          · next h => rw [if_pos h]; exact h0
          · next h => rw [if_neg h]; rw [Bool.not_eq_true, QueueKey.not_lt_iff] at h; omega
        · exact h2 x (by simp [hx])

theorem popLeast_eq_none {l : List QueueKey} : popLeast l = none ↔ l = [] := by
  cases l <;> simp [popLeast]

/-- What a removal takes and leaves. -/
theorem popLeast_some {l r : List QueueKey} {a : QueueKey} (h : popLeast l = some (a, r)) :
    l.Perm (a :: r) ∧ ∀ x ∈ l, x.lt a = false := by
  cases l with
  | nil => simp [popLeast] at h
  | cons k ks =>
    simp only [popLeast, Option.some.injEq, Prod.mk.injEq] at h
    obtain ⟨rfl, rfl⟩ := h
    obtain ⟨h1, h2⟩ := leastKey_spec k ks
    exact ⟨List.perm_cons_erase h1, h2⟩

theorem popLeast_of_ne_nil {l : List QueueKey} (h : l ≠ []) : ∃ a r, popLeast l = some (a, r) := by
  cases l with
  | nil => exact absurd rfl h
  | cons k ks => exact ⟨_, _, rfl⟩

/-- A merge takes place when two keys are live, and then it removes two and adds their parent. -/
theorem mergeOnce_of_two {g : Growth} (h : 2 ≤ g.live.length) :
    ∃ a b rest g', mergeOnce g = some g' ∧ g.live.Perm (a :: b :: rest) ∧
      g'.nodes = g.nodes ++ [internalNode (BitVec.ofNat 9 a.index) (BitVec.ofNat 9 b.index) (a.weight + b.weight)] ∧
      g'.live.Perm ({ weight := a.weight + b.weight, index := g.nodes.length } :: rest) := by
  obtain ⟨a, l1, h1⟩ := popLeast_of_ne_nil (l := g.live) (by rintro h'; rw [h'] at h; simp at h)
  have p1 := (popLeast_some h1).1
  have hl1 := p1.length_eq
  obtain ⟨b, l2, h2⟩ := popLeast_of_ne_nil (l := l1) (by rintro rfl; simp at hl1; omega)
  have p2 := (popLeast_some h2).1
  refine ⟨a, b, l2, _, by simp only [mergeOnce, h1, h2]; rfl, p1.trans (p2.cons a), rfl, ?_⟩
  exact (List.perm_append_comm (l₁ := l2)).trans (List.Perm.refl _)

theorem mergeOnce_of_few {g : Growth} (h : g.live.length < 2) : mergeOnce g = none := by
  obtain ⟨ns, live⟩ := g
  match live, h with
  | [], _ => rfl
  | [k], _ => simp [mergeOnce, popLeast, leastKey]

/-! ### What the merge loop keeps -/

/-- The nodes hold a tree: `Shape.heldBy`, for a list of nodes. -/
def Shape.inNodes (ns : List Node) : Shape → Prop
  | .leaf i x w => ns[i]? = some (leafNode (x, w))
  | .wrap i t => ns[i]? = some (internalNode (BitVec.ofNat 9 t.idx) NIL (BitVec.ofNat 64 t.weight)) ∧ t.inNodes ns
  | .fork i l r =>
    ns[i]? = some (internalNode (BitVec.ofNat 9 l.idx) (BitVec.ofNat 9 r.idx) (BitVec.ofNat 64 (l.weight + r.weight))) ∧
      l.inNodes ns ∧ r.inNodes ns

theorem Shape.inNodes_append {ns : List Node} {t : Shape} (ms : List Node) (h : t.inNodes ns) : t.inNodes (ns ++ ms) := by
  have key : ∀ {i : Nat} {n : Node}, ns[i]? = some n → (ns ++ ms)[i]? = some n := by
    intro i n hi
    obtain ⟨hlt, -⟩ := List.getElem?_eq_some_iff.1 hi
    rw [List.getElem?_append_left hlt, hi]
  induction t with
  | leaf i x w => exact key h
  | wrap i t ih => exact ⟨key h.1, ih h.2⟩
  | fork i l r ihl ihr => exact ⟨key h.1, ihl h.2.1, ihr h.2.2⟩

/-- The key under which a tree is live. -/
def Shape.key (t : Shape) : QueueKey := { weight := BitVec.ofNat 64 t.weight, index := t.idx }

/-- Every index of a tree is at most its root's: a parent is made after its children (R121). -/
def Shape.rootLast (t : Shape) : Prop := ∀ i ∈ t.indices, i ≤ t.idx

/-- What the merge loop keeps: the live keys are those of full trees that hold every node once and every entry once. -/
structure Grown (obs : List (Byte × Word)) (g : Growth) (ts : List Shape) : Prop where
  live : g.live.Perm (ts.map Shape.key)
  held : ∀ t ∈ ts, t.full ∧ t.inNodes g.nodes ∧ t.rootLast
  indices : (ts.flatMap Shape.indices).Perm (List.range g.nodes.length)
  leaves : (ts.flatMap Shape.leaves).Perm obs

/-- A permutation of mapped values comes from one of the values. -/
theorem perm_of_map_perm {α β : Type} {f : α → β} {ts : List α} {l : List β} (h : (ts.map f).Perm l) :
    ∃ us, ts.Perm us ∧ us.map f = l := by
  generalize hm : ts.map f = m at h
  induction h generalizing ts with
  | nil => exact ⟨ts, List.Perm.refl _, hm⟩
  | cons x _ ih =>
    cases ts with
    | nil => simp at hm
    | cons t ts =>
      simp only [List.map_cons, List.cons.injEq] at hm
      obtain ⟨us, h1, h2⟩ := ih hm.2
      exact ⟨t :: us, h1.cons t, by simp [hm.1, h2]⟩
  | swap x y l =>
    match ts, hm with
    | a :: b :: ts, hm =>
      simp only [List.map_cons, List.cons.injEq] at hm
      exact ⟨b :: a :: ts, List.Perm.swap _ _ _, by simp [hm]⟩
  | trans _ _ ih1 ih2 =>
    obtain ⟨us, h1, h2⟩ := ih1 hm
    obtain ⟨vs, h3, h4⟩ := ih2 h2
    exact ⟨vs, h1.trans h3, h4⟩

theorem Grown.merge {obs : List (Byte × Word)} {g : Growth} {ts : List Shape} (h : Grown obs g ts)
    (h2 : 2 ≤ g.live.length) :
    ∃ g' ts', mergeOnce g = some g' ∧ Grown obs g' ts' ∧ g'.live.length + 1 = g.live.length ∧
      g'.nodes.length = g.nodes.length + 1 := by
  obtain ⟨a, b, rest, g', hg', hperm, hnodes, hlive⟩ := mergeOnce_of_two h2
  -- the trees in the order of the keys
  obtain ⟨us, hus, hkeys⟩ : ∃ us : List Shape, ts.Perm us ∧ us.map Shape.key = a :: b :: rest := by
    exact perm_of_map_perm (h.live.symm.trans hperm)
  match us, hkeys with
  | ta :: tb :: rs, hkeys =>
    simp only [List.map_cons, List.cons.injEq] at hkeys
    obtain ⟨rfl, rfl, rfl⟩ := hkeys
    have ha := h.held ta (hus.mem_iff.2 (by simp))
    have hb := h.held tb (hus.mem_iff.2 (by simp))
    have hidx : ∀ i ∈ ta.indices ++ tb.indices, i < g.nodes.length := by
      intro i hi
      have : i ∈ ts.flatMap Shape.indices := by
        rw [List.mem_flatMap]
        rcases List.mem_append.1 hi with hi | hi
        · exact ⟨ta, hus.mem_iff.2 (by simp), hi⟩
        · exact ⟨tb, hus.mem_iff.2 (by simp), hi⟩
      simpa using h.indices.mem_iff.1 this
    refine ⟨g', .fork g.nodes.length ta tb :: rs, hg', ⟨?_, ?_, ?_, ?_⟩, ?_, by simp [hnodes]⟩
    · refine hlive.trans (List.Perm.of_eq ?_)
      simp [Shape.key, Shape.weight, Shape.idx, BitVec.ofNat_add]
    · intro t ht
      rcases List.mem_cons.1 ht with rfl | ht
      · refine ⟨⟨ha.1, hb.1⟩, ?_, ?_⟩
        · rw [hnodes]
          refine ⟨?_, Shape.inNodes_append _ ha.2.1, Shape.inNodes_append _ hb.2.1⟩
          simp [Shape.key, BitVec.ofNat_add]
        · intro i hi
          rcases List.mem_cons.1 hi with rfl | hi
          · exact le_rfl
          · exact (hidx i hi).le
      · have ht' := h.held t (hus.mem_iff.2 (by simp [ht]))
        exact ⟨ht'.1, by rw [hnodes]; exact Shape.inNodes_append _ ht'.2.1, ht'.2.2⟩
    · have hp : (ts.flatMap Shape.indices).Perm ((ta :: tb :: rs).flatMap Shape.indices) := hus.flatMap_right _
      have hp2 := hp.symm.trans h.indices
      rw [hnodes, List.length_append, List.length_singleton, List.range_succ]
      simp only [List.flatMap_cons, Shape.indices, List.cons_append] at hp2 ⊢
      refine (List.Perm.cons _ ?_).trans (List.perm_append_comm (l₁ := [_]))
      rw [List.append_assoc]; exact hp2
    · have hp : (ts.flatMap Shape.leaves).Perm ((ta :: tb :: rs).flatMap Shape.leaves) := hus.flatMap_right _
      simp only [List.flatMap_cons, Shape.leaves, List.append_assoc] at hp ⊢
      exact hp.symm.trans h.leaves
    · rw [hlive.length_eq, hperm.length_eq]; simp

/-- The merge loop, with enough fuel, ends in one tree of all entries. -/
theorem grown_mergeAll {obs : List (Byte × Word)} (fuel : Nat) {g : Growth} {ts : List Shape} (h : Grown obs g ts)
    (h1 : 1 ≤ g.live.length) (hf : g.live.length ≤ fuel + 1) :
    ∃ t, Grown obs (mergeAll fuel g) [t] ∧
      (mergeAll fuel g).nodes.length = g.nodes.length + (g.live.length - 1) := by
  induction fuel generalizing g ts with
  | zero =>
    have hl := h.live.length_eq.trans (List.length_map ..)
    match ts, hl with
    | [], hl => simp only [List.length_nil] at hl; omega
    | [t], hl => exact ⟨t, h, by simp only [mergeAll, List.length_singleton] at hl ⊢; omega⟩
    | _ :: _ :: _, hl => simp only [List.length_cons] at hl; omega
  | succ fuel ih =>
    by_cases h2 : 2 ≤ g.live.length
    · obtain ⟨g', ts', hg', hG, hl, hn⟩ := h.merge h2
      obtain ⟨t, ht, hlen⟩ := ih hG (by omega) (by omega)
      refine ⟨t, ?_, ?_⟩
      · simp only [mergeAll, hg']; exact ht
      · simp only [mergeAll, hg', hlen, hn]; omega
    · have hl := h.live.length_eq.trans (List.length_map ..)
      have hnone : mergeOnce g = none := mergeOnce_of_few (by omega)
      match ts, hl with
      | [], hl => simp only [List.length_nil] at hl; omega
      | [t], hl => exact ⟨t, by simp only [mergeAll, hnone]; exact h, by
          simp only [mergeAll, hnone]; omega⟩
      | _ :: _ :: _, hl => simp only [List.length_cons] at hl; omega

/-- The leaves as trees, from index `k` on. -/
def leafShapes (k : Nat) : List (Byte × Word) → List Shape
  | [] => []
  | e :: es => .leaf k e.1 e.2 :: leafShapes (k + 1) es

theorem leafShapes_spec (k : Nat) (es : List (Byte × Word)) :
    ((es.map leafNode).zipIdx k).map (fun p => ({ weight := p.1.weight, index := p.2 } : QueueKey)) =
      (leafShapes k es).map Shape.key ∧
    (leafShapes k es).flatMap Shape.indices = List.range' k es.length ∧
    (leafShapes k es).flatMap Shape.leaves = es ∧
    ∀ t ∈ leafShapes k es, t.full ∧ t.rootLast ∧ ∃ i e, es[i]? = some e ∧ t = .leaf (k + i) e.1 e.2 := by
  induction es generalizing k with
  | nil => simp [leafShapes]
  | cons e es ih =>
    obtain ⟨h1, h2, h3, h4⟩ := ih (k + 1)
    refine ⟨?_, ?_, ?_, ?_⟩
    · simp only [List.map_cons, List.zipIdx_cons, leafShapes, h1, List.cons.injEq, and_true, Shape.key, Shape.weight,
        Shape.idx, leafNode, QueueKey.mk.injEq]
      apply BitVec.eq_of_toNat_eq
      have := e.2.isLt
      simp
    · simp [leafShapes, Shape.indices, h2, List.range'_succ]
    · simp [leafShapes, Shape.leaves, h3]
    · intro t ht
      rcases List.mem_cons.1 ht with rfl | ht
      · exact ⟨trivial, by simp [Shape.rootLast, Shape.indices, Shape.idx], 0, e, rfl, rfl⟩
      · obtain ⟨a, b, i, e', hi, rfl⟩ := h4 t ht
        exact ⟨a, b, i + 1, e', by simpa using hi, by congr 1; omega⟩

/-- The start of the merge loop. -/
theorem grown_plantLeaves (obs : List (Byte × Word)) :
    Grown obs (plantLeaves (obs.map leafNode)) (leafShapes 0 obs) := by
  obtain ⟨h1, h2, h3, h4⟩ := leafShapes_spec 0 obs
  refine ⟨List.Perm.of_eq h1, ?_, ?_, List.Perm.of_eq h3⟩
  · intro t ht
    obtain ⟨a, b, i, e, hi, rfl⟩ := h4 t ht
    refine ⟨a, ?_, b⟩
    simp [Shape.inNodes, plantLeaves, hi]
  · rw [h2, List.range_eq_range']; simp [plantLeaves]

/-- The nodes BUILD makes hold one proper tree of the observed entries, its root last (10_state.md R49). -/
theorem growTree_spec {f : Vector Word 256} (h : observed f ≠ []) :
    ∃ t : Shape, t.proper ∧ t.inNodes (growTree f) ∧ t.indices.Perm (List.range (growTree f).length) ∧
      t.leaves.Perm (observed f) ∧ t.idx + 1 = (growTree f).length ∧
      (growTree f).length = if (observed f).length = 1 then 2 else 2 * (observed f).length - 1 := by
  match hobs : observed f, h with
  | [e], _ =>
    refine ⟨.wrap 1 (.leaf 0 e.1 e.2), ⟨0, e.1, e.2, rfl⟩, ?_, ?_, ?_, ?_, ?_⟩
    · simp only [growTree, hobs, List.map_cons, List.map_nil, Shape.inNodes, Shape.idx, Shape.weight]
      refine ⟨?_, rfl⟩
      simp only [List.getElem?_cons_succ, List.getElem?_cons_zero, leafNode, Option.some.injEq]
      congr 1
      apply BitVec.eq_of_toNat_eq
      simp
    · simp [growTree, hobs, Shape.indices, List.range_succ]
      exact List.Perm.swap _ _ _
    · simp [Shape.leaves]
    · simp [growTree, hobs, Shape.idx]
    · simp [growTree, hobs]
  | e1 :: e2 :: es, _ =>
    have hg := grown_plantLeaves (observed f)
    have hlen : (plantLeaves ((observed f).map leafNode)).live.length = (observed f).length := by
      simp [plantLeaves]
    have hnl : (plantLeaves ((observed f).map leafNode)).nodes.length = (observed f).length := by
      simp [plantLeaves]
    have heq : growTree f =
        (mergeAll ((observed f).map leafNode).length (plantLeaves ((observed f).map leafNode))).nodes := by
      simp only [growTree, hobs, List.map_cons]
    have hol : (observed f).length = es.length + 2 := by rw [hobs]; rfl
    obtain ⟨t, ht, hn⟩ := grown_mergeAll ((observed f).map leafNode).length hg (by omega) (by simp; omega)
    rw [← heq, hlen, hnl] at hn
    have hi := ht.indices
    simp only [List.flatMap_cons, List.flatMap_nil, List.append_nil, ← heq] at hi
    have hl := ht.leaves
    simp only [List.flatMap_cons, List.flatMap_nil, List.append_nil] at hl
    obtain ⟨hfull, hin, hroot⟩ := ht.held t (by simp)
    rw [← heq] at hin
    have hidx : t.idx ∈ t.indices := by cases t <;> simp [Shape.idx, Shape.indices]
    have hidx2 : t.idx < (growTree f).length := by simpa using hi.mem_iff.1 hidx
    have hlast : (growTree f).length - 1 ≤ t.idx := hroot _ (hi.mem_iff.2 (by simp; omega))
    refine ⟨t, ?_, hin, hi, hobs ▸ hl, by omega, ?_⟩
    · cases t with
      | leaf i x w => have := hi.length_eq; simp [Shape.indices] at this; omega
      | wrap i t => exact hfull.elim
      | fork i l r => exact hfull
    · rw [hn]
      rw [if_neg (by simp)]
      simp only [List.length_cons] at hol ⊢
      omega

/-- The arena holds what the nodes hold, once they are written. -/
theorem Shape.heldBy_writeArena {ns : List Node} {t : Shape} (arena : Vector Node 511) (hlen : ns.length ≤ 511)
    (h : t.inNodes ns) : t.heldBy (writeArena 0 ns arena) := by
  have key : ∀ {i : Nat} {n : Node}, ns[i]? = some n →
      i < 511 ∧ nodeAt (writeArena 0 ns arena) (BitVec.ofNat 9 i) = n := by
    intro i n hi
    obtain ⟨hlt, hget⟩ := List.getElem?_eq_some_iff.1 hi
    have h9 : (BitVec.ofNat 9 i).toNat = i := by simp; omega
    refine ⟨by omega, ?_⟩
    rw [nodeAt_writeArena (by omega) hlen, h9]
    simp [List.getD, hi]
  induction t with
  | leaf i x w => exact key h
  | wrap i t ih => exact ⟨(key h.1).1, (key h.1).2, ih h.2⟩
  | fork i l r ihl ihr => exact ⟨(key h.1).1, (key h.1).2, ihl h.2.1, ihr h.2.2⟩

theorem length_growTree_le (f : Vector Word 256) : (growTree f).length ≤ 511 := by
  by_cases h : observed f = []
  · simp [growTree, h]
  · obtain ⟨-, -, -, -, -, -, hlen⟩ := growTree_spec h
    have := length_observed_le f
    rw [hlen]; split <;> omega

theorem growTree_eq_nil {f : Vector Word 256} : growTree f = [] ↔ observed f = [] := by
  constructor
  · intro h
    by_contra hne
    obtain ⟨t, -, -, -, -, hlast, -⟩ := growTree_spec hne
    rw [h] at hlast; simp at hlast
  · intro h; simp [growTree, h]

end Sys2Proof.Machine
end

