-- ==== Sys2Proof/Laws/Flags.lean ====
section
/-! SUPPORT. The valid flags: `flagsAfter`, from which STATUS shows them while BUSY, says what the command leaves (10_state.md R51,
R52). -/

namespace Sys2Proof.Machine

/-- The table has an entry exactly when some frequency is not 0. -/
theorem someFreq_eq_false {f : Vector Word 256} : someFreq f = false ↔ ∀ i, freqAt f i = 0#32 := by
  simp only [someFreq, List.any_eq_false, Bool.not_eq_true', beq_eq_false_iff_ne, ne_eq, Decidable.not_not]
  constructor
  · intro h i
    have hi := i.isLt
    exact h _ (by simp [freqAt, Vector.getD, Array.getD, hi])
  · intro h w hw
    obtain ⟨i, hi, rfl⟩ := List.getElem_of_mem hw
    have hi' : i < 256 := by simpa using hi
    have := h (BitVec.ofNat 8 i)
    have hm : i % 256 = i := Nat.mod_eq_of_lt hi'
    simpa [freqAt, Vector.getD, Array.getD, hm, hi'] using this

/-- ENCODE and DECODE leave both valid flags alone. -/
theorem endCodec_flags {i : Instr} {s t : State} {mem : Memory} {out inc bits : Nat} {why : Option Halt}
    (h : endCodec i s mem out inc bits why = .next t) : t.treeValid = s.treeValid ∧ t.codesValid = s.codesValid := by
  cases why with
  | none => cases h; exact ⟨rfl, rfl⟩
  | some why => cases why <;> cases h <;> exact ⟨rfl, rfl⟩

/-- `flagsAfter` is what the command leaves. -/
theorem flagsAfter_eq {w : Word} {i : Instr} {s t : State} (hd : decode w = .ok i) (h : exec i s = .next t) :
    flagsAfter w s = (t.treeValid, t.codesValid) := by
  unfold flagsAfter
  rw [hd]
  cases i with
  | nop => cases h; rfl
  | clrfreq => cases h; rfl
  | build =>
    simp only [exec, execBuild] at h
    split at h
    · next hg =>
      have hz := growTree_eq_nil.1 hg
      cases h
      simp only
      rw [someFreq_eq_false.2 (observed_eq_nil.1 hz)]
      rfl
    · next hg =>
      cases h
      have : someFreq s.freq = true := by
        cases hf : someFreq s.freq
        · exact absurd (growTree_eq_nil.2 (observed_eq_nil.2 (someFreq_eq_false.1 hf))) (by simp_all)
        · rfl
      simp only [this]
      rfl
  | gencode =>
    simp only [exec, execGencode] at h
    split at h
    · next hv => cases h; simp [raiseError, hv]
    · next hv => cases h; simp [finish, show s.treeValid = true by simpa using hv]
  | encode => obtain ⟨h1, h2⟩ := endCodec_flags h; simp [h1, h2]
  | decode => obtain ⟨h1, h2⟩ := endCodec_flags h; simp [h1, h2]

end Sys2Proof.Machine
end

