-- ==== Sys2Proof/Laws/Merge.lean ====
section
/-! SUPPORT. The order of the merges: which nodes are live when a node is made, and that each merge joins the two least of them
(41_tree_builder.md R121, R123, R125), for the node list BUILD grows. -/

namespace Sys2Proof.Machine

/-- What one merge does: it takes the least key, then the least of the rest, and inserts their parent (R123, R125). -/
theorem mergeOnce_some {g g' : Growth} (h : mergeOnce g = some g') :
    ∃ a b rest, g.live.Perm (a :: b :: rest) ∧ (∀ k ∈ b :: rest, k.lt a = false) ∧ (∀ k ∈ rest, k.lt b = false) ∧
      g'.nodes = g.nodes ++ [internalNode (BitVec.ofNat 9 a.index) (BitVec.ofNat 9 b.index) (a.weight + b.weight)] ∧
      g'.live.Perm ({ weight := a.weight + b.weight, index := g.nodes.length } :: rest) := by
  unfold mergeOnce at h
  split at h
  · cases h
  · next a l1 h1 =>
    split at h
    · cases h
    · next b l2 h2 =>
      cases h
      obtain ⟨p1, m1⟩ := popLeast_some h1
      obtain ⟨p2, m2⟩ := popLeast_some h2
      refine ⟨a, b, l2, p1.trans (p2.cons a), fun k hk => ?_, fun k hk => ?_, rfl, List.perm_append_comm⟩
      · exact m1 k (p1.mem_iff.2 (List.mem_cons_of_mem _ (p2.mem_iff.2 hk)))
      · exact m2 k (p2.mem_iff.2 (List.mem_cons_of_mem _ hk))

/-- Node `i` of a list of nodes. -/
def nodeIn (ns : List Node) (i : Nat) : Node := ns.getD i Node.blank

theorem nodeIn_append_left {ns : List Node} (ms : List Node) {i : Nat} (h : i < ns.length) : nodeIn (ns ++ ms) i = nodeIn ns i := by
  simp [nodeIn, List.getElem?_append_left h]

theorem nodeIn_append_last (ns : List Node) (x : Node) : nodeIn (ns ++ [x]) ns.length = x := by simp [nodeIn]

/-- `LiveBefore`, for a list of nodes. -/
def LiveIn (ns : List Node) (n m k : Nat) : Prop :=
  k < m ∧ ∀ j, n ≤ j → j < m → (nodeIn ns j).left ≠ BitVec.ofNat 9 k ∧ (nodeIn ns j).right ≠ BitVec.ofNat 9 k

/-- `LowerKey`, for a list of nodes. -/
def LowerIn (ns : List Node) (a b : Nat) : Prop :=
  (nodeIn ns a).weight.toNat < (nodeIn ns b).weight.toNat ∨ ((nodeIn ns a).weight = (nodeIn ns b).weight ∧ a < b)

/-- Node `m` joins the two least of the nodes live before it. -/
def Joined (ns : List Node) (n m : Nat) : Prop :=
  ∃ a b, LiveIn ns n m a ∧ LiveIn ns n m b ∧ LowerIn ns a b ∧ (∀ k, LiveIn ns n m k → k ≠ a → k ≠ b → LowerIn ns b k) ∧
    nodeIn ns m = internalNode (BitVec.ofNat 9 a) (BitVec.ofNat 9 b) ((nodeIn ns a).weight + (nodeIn ns b).weight)

theorem liveIn_append {ns : List Node} (ms : List Node) {n m k : Nat} (hm : m ≤ ns.length) :
    LiveIn (ns ++ ms) n m k ↔ LiveIn ns n m k := by
  unfold LiveIn
  refine and_congr_right fun _ => forall_congr' fun j => forall_congr' fun _ => forall_congr' fun hj => ?_
  rw [nodeIn_append_left ms (by omega)]

theorem lowerIn_append {ns : List Node} (ms : List Node) {a b : Nat} (ha : a < ns.length) (hb : b < ns.length) :
    LowerIn (ns ++ ms) a b ↔ LowerIn ns a b := by
  unfold LowerIn
  rw [nodeIn_append_left ms ha, nodeIn_append_left ms hb]

/-- A node that has been made stays as it was made. -/
theorem Joined.append {ns : List Node} (ms : List Node) {n m : Nat} (hm : m < ns.length) (h : Joined ns n m) :
    Joined (ns ++ ms) n m := by
  obtain ⟨a, b, ha, hb, hl, hk, hn⟩ := h
  have ha' : a < ns.length := by have := ha.1; omega
  have hb' : b < ns.length := by have := hb.1; omega
  refine ⟨a, b, (liveIn_append ms hm.le).2 ha, (liveIn_append ms hm.le).2 hb, (lowerIn_append ms ha' hb').2 hl,
    fun k hlk h1 h2 => ?_, ?_⟩
  · rw [liveIn_append ms hm.le] at hlk
    exact (lowerIn_append ms hb' (by have := hlk.1; omega)).2 (hk k hlk h1 h2)
  · rw [nodeIn_append_left ms hm, nodeIn_append_left ms ha', nodeIn_append_left ms hb', hn]

/-- What the merge loop keeps of the order of the merges. -/
structure Traced (leaves : List Node) (g : Growth) : Prop where
  start : leaves <+: g.nodes
  size : g.nodes.length + g.live.length = 2 * leaves.length
  live : ∀ k, k ∈ g.live ↔ LiveIn g.nodes leaves.length g.nodes.length k.index ∧ k.weight = (nodeIn g.nodes k.index).weight
  nodup : g.live.Nodup
  joined : ∀ m, leaves.length ≤ m → m < g.nodes.length → Joined g.nodes leaves.length m

theorem Traced.merge {leaves : List Node} {g g' : Growth} (hl : leaves.length ≤ 256) (h : Traced leaves g)
    (hm : mergeOnce g = some g') : Traced leaves g' := by
  obtain ⟨a, b, rest, hperm, hla, hlb, hnodes, hlive⟩ := mergeOnce_some hm
  have hlen : g.live.length = rest.length + 2 := hperm.length_eq
  have hsize := h.size
  have hn511 : g.nodes.length < 511 := by omega
  have hnd := hperm.nodup_iff.1 h.nodup
  have ha := (h.live a).1 (hperm.mem_iff.2 (by simp))
  have hb := (h.live b).1 (hperm.mem_iff.2 (by simp))
  have hal := ha.1.1
  have hbl := hb.1.1
  -- a key is its index
  have hkey : ∀ {x y : QueueKey}, x ∈ g.live → y ∈ g.live → x.index = y.index → x = y := by
    intro x y hx hy hi
    have h1 := ((h.live x).1 hx).2
    have h2 := ((h.live y).1 hy).2
    cases x; cases y
    simp only at hi h1 h2
    subst hi
    rw [h1, h2]
  have hlow : ∀ {x y : QueueKey}, x ∈ g.live → y ∈ g.live → x ≠ y → y.lt x = false → LowerIn g.nodes x.index y.index := by
    intro x y hx hy hne hlt
    rw [QueueKey.not_lt_iff] at hlt
    have h1 := ((h.live x).1 hx).2
    have h2 := ((h.live y).1 hy).2
    unfold LowerIn
    rw [← h1, ← h2]
    rcases hlt with hlt | ⟨hw, hi⟩
    · exact Or.inl hlt
    · exact Or.inr ⟨BitVec.eq_of_toNat_eq hw, lt_of_le_of_ne hi (fun he => hne (hkey hx hy he))⟩
  have hma : a ∈ g.live := hperm.mem_iff.2 (by simp)
  have hmb : b ∈ g.live := hperm.mem_iff.2 (by simp)
  have hnotin := List.nodup_cons.1 hnd
  have hnotin2 := List.nodup_cons.1 hnotin.2
  have hab : a ≠ b := fun he => hnotin.1 (by simp [he])
  have hnew : nodeIn g'.nodes g.nodes.length =
      internalNode (BitVec.ofNat 9 a.index) (BitVec.ofNat 9 b.index) (a.weight + b.weight) := by
    rw [hnodes, nodeIn_append_last]
  have hleaf : leaves.length ≤ g.nodes.length := h.start.length_le
  have hjoined : Joined g'.nodes leaves.length g.nodes.length := by
    refine ⟨a.index, b.index, ?_, ?_, ?_, fun k hk h1 h2 => ?_, ?_⟩
    · rw [hnodes, liveIn_append _ le_rfl]; exact ha.1
    · rw [hnodes, liveIn_append _ le_rfl]; exact hb.1
    · rw [hnodes, lowerIn_append _ hal hbl]
      exact hlow hma hmb hab (hla b (by simp))
    · rw [hnodes, liveIn_append _ le_rfl] at hk
      rw [hnodes, lowerIn_append _ hbl hk.1]
      have hmem : (⟨(nodeIn g.nodes k).weight, k⟩ : QueueKey) ∈ g.live := (h.live _).2 ⟨hk, rfl⟩
      refine hlow hmb hmem (fun he => h2 (by rw [he])) (hlb _ ?_)
      rcases List.mem_cons.1 (hperm.mem_iff.1 hmem) with he | hr
      · exact absurd (congrArg QueueKey.index he) h1
      · rcases List.mem_cons.1 hr with he | hr
        · exact absurd (congrArg QueueKey.index he) h2
        · exact hr
    · rw [hnew, hnodes, nodeIn_append_left _ hal, nodeIn_append_left _ hbl, ← ha.2, ← hb.2]
  have hidx : ∀ {i j : Nat}, i < 512 → j < 512 → (BitVec.ofNat 9 i = BitVec.ofNat 9 j ↔ i = j) := by
    intro i j hi hj
    constructor
    · intro he
      have := congrArg BitVec.toNat he
      simp at this; omega
    · rintro rfl; rfl
  have hlast : LiveIn g'.nodes leaves.length (g.nodes.length + 1) g.nodes.length := by
    refine ⟨by omega, fun j hj1 hj2 => ?_⟩
    have hch : ∀ {m}, Joined g'.nodes leaves.length m → m ≤ g.nodes.length →
        (nodeIn g'.nodes m).left ≠ BitVec.ofNat 9 g.nodes.length ∧ (nodeIn g'.nodes m).right ≠ BitVec.ofNat 9 g.nodes.length := by
      rintro m ⟨x, y, hx, hy, -, -, hn⟩ hm
      have h1 := hx.1
      have h2 := hy.1
      rw [hn]
      exact ⟨fun he => by rw [internalNode, hidx (by omega) (by omega)] at he; omega,
        fun he => by rw [internalNode, hidx (by omega) (by omega)] at he; omega⟩
    rcases Nat.lt_succ_iff_lt_or_eq.1 hj2 with hj | rfl
    · exact hch (hnodes ▸ (h.joined j hj1 hj).append _ hj) hj.le
    · exact hch hjoined le_rfl
  have hstep : ∀ k, LiveIn g'.nodes leaves.length (g.nodes.length + 1) k ↔
      k = g.nodes.length ∨ (LiveIn g.nodes leaves.length g.nodes.length k ∧ k ≠ a.index ∧ k ≠ b.index) := by
    intro k
    constructor
    · intro hk
      rcases Nat.lt_succ_iff_lt_or_eq.1 hk.1 with hlt | he
      · refine Or.inr ⟨?_, ?_⟩
        · rw [← liveIn_append [internalNode (BitVec.ofNat 9 a.index) (BitVec.ofNat 9 b.index) (a.weight + b.weight)] le_rfl,
            ← hnodes]
          exact ⟨hlt, fun j h1 h2 => hk.2 j h1 (by omega)⟩
        · have := hk.2 g.nodes.length hleaf (by omega)
          rw [hnew] at this
          exact ⟨fun he => this.1 (by rw [he]; rfl), fun he => this.2 (by rw [he]; rfl)⟩
      · exact Or.inl he
    · rintro (rfl | ⟨hk, h1, h2⟩)
      · exact hlast
      · have hklt := hk.1
        refine ⟨by omega, fun j hj1 hj2 => ?_⟩
        rcases Nat.lt_succ_iff_lt_or_eq.1 hj2 with hj | rfl
        · rw [hnodes, nodeIn_append_left _ hj]; exact hk.2 j hj1 hj
        · rw [hnew]
          exact ⟨fun he => h1 ((hidx (by omega) (by omega)).1 he).symm, fun he => h2 ((hidx (by omega) (by omega)).1 he).symm⟩
  have hlen' : g'.nodes.length = g.nodes.length + 1 := by rw [hnodes]; simp
  refine ⟨by rw [hnodes]; exact h.start.trans (List.prefix_append _ _), ?_, fun k => ?_, ?_, fun m h1 h2 => ?_⟩
  · rw [hlen', hlive.length_eq, List.length_cons]; omega
  · rw [hlen', hstep, hlive.mem_iff, List.mem_cons]
    constructor
    · rintro (rfl | hr)
      · exact ⟨Or.inl rfl, by rw [hnew]; rfl⟩
      · have hk : k ∈ g.live := hperm.mem_iff.2 (by simp [hr])
        have hk' := (h.live k).1 hk
        refine ⟨Or.inr ⟨hk'.1, fun he => ?_, fun he => ?_⟩, ?_⟩
        · exact hnotin.1 (by rw [← hkey hk hma he]; exact List.mem_cons_of_mem _ hr)
        · exact hnotin2.1 (by rw [← hkey hk hmb he]; exact hr)
        · rw [hnodes, nodeIn_append_left _ hk'.1.1]; exact hk'.2
    · rintro ⟨hk | ⟨hk, h1, h2⟩, hw⟩
      · refine Or.inl ?_
        rw [hk, hnew] at hw
        cases k
        simp only at hk hw
        rw [hk, hw]; rfl
      · rw [hnodes, nodeIn_append_left _ hk.1] at hw
        rcases List.mem_cons.1 (hperm.mem_iff.1 ((h.live k).2 ⟨hk, hw⟩)) with he | hr
        · exact absurd (congrArg QueueKey.index he) h1
        · rcases List.mem_cons.1 hr with he | hr
          · exact absurd (congrArg QueueKey.index he) h2
          · exact Or.inr hr
  · rw [hlive.nodup_iff, List.nodup_cons]
    refine ⟨fun hr => ?_, hnotin2.2⟩
    have := ((h.live _).1 (hperm.mem_iff.2 (List.mem_cons_of_mem _ (List.mem_cons_of_mem _ hr)))).1.1
    simp at this
  · rcases Nat.lt_succ_iff_lt_or_eq.1 (hlen' ▸ h2) with h2 | rfl
    · rw [hnodes]; exact (h.joined m h1 h2).append _ h2
    · exact hjoined

theorem Traced.mergeAll {leaves : List Node} (hl : leaves.length ≤ 256) (fuel : Nat) {g : Growth} (h : Traced leaves g) :
    Traced leaves (mergeAll fuel g) := by
  induction fuel generalizing g with
  | zero => exact h
  | succ fuel ih =>
    unfold Sys2Proof.Machine.mergeAll
    split
    · exact h
    · next g' hm => exact ih (h.merge hl hm)

theorem traced_plantLeaves (leaves : List Node) : Traced leaves (plantLeaves leaves) := by
  have hlive : ∀ i, LiveIn leaves leaves.length leaves.length i ↔ i < leaves.length :=
    fun i => ⟨fun h => h.1, fun h => ⟨h, fun j h1 h2 => absurd h2 (by omega)⟩⟩
  refine ⟨List.prefix_refl _, by simp [plantLeaves]; omega, fun k => ?_, ?_, fun m h1 h2 => absurd h2 (by simp [plantLeaves]; omega)⟩
  · simp only [plantLeaves, hlive, List.mem_map, Prod.exists, List.mem_zipIdx_iff_getElem?]
    constructor
    · rintro ⟨n, i, hi, rfl⟩
      obtain ⟨hlt, he⟩ := List.getElem?_eq_some_iff.1 hi
      exact ⟨hlt, by simp [nodeIn, hi]⟩
    · rintro ⟨hlt, hw⟩
      refine ⟨leaves[k.index], k.index, by simp [hlt], ?_⟩
      cases k
      simp only [nodeIn] at hw hlt ⊢
      rw [hw]; simp [hlt]
  · have : (plantLeaves leaves).live.map QueueKey.index = List.range' 0 leaves.length := by
      simp [plantLeaves, Function.comp_def]
    exact List.Nodup.of_map QueueKey.index (this ▸ List.nodup_range')

/-- The nodes BUILD grows from two entries and more: the leaves, and then each merge in turn. -/
theorem growTree_traced {f : Vector Word 256} (h : 2 ≤ (observed f).length) :
    (observed f).map leafNode <+: growTree f ∧
      ∀ m, (observed f).length ≤ m → m < (growTree f).length → Joined (growTree f) (observed f).length m := by
  have ht := (traced_plantLeaves ((observed f).map leafNode)).mergeAll (by simpa using length_observed_le f)
    ((observed f).map leafNode).length
  have heq : growTree f = (mergeAll ((observed f).map leafNode).length (plantLeaves ((observed f).map leafNode))).nodes := by
    match hobs : observed f, h with
    | e1 :: e2 :: es, _ => simp only [growTree, hobs, List.map_cons]
  rw [heq]
  exact ⟨ht.start, fun m h1 h2 => by simpa using ht.joined m (by simpa using h1) h2⟩

end Sys2Proof.Machine
end

