-- ==== Sys2Proof/Laws/PerInstr.lean ====
section
/-! SUPPORT. Facts said once per command: what its command word holds (30_encoding.md R85 to R88). -/

namespace Sys2Proof.Laws.Encoding

/-- The command is well-formed (it has no operand, R86), its word's reserved bits are 0 (R85), its OP field is the command's
opcode, and that opcode is a legal one of the map (R87). -/
def Statement (i : Instr) : Prop :=
  i.wf = true ∧ rsvField (encode i) = 0 ∧ opField (encode i) = opcode i ∧ decodeOp (opcode i) = .ok i

theorem nop : Statement .nop := by unfold Statement; decide
theorem clrfreq : Statement .clrfreq := by unfold Statement; decide
theorem build : Statement .build := by unfold Statement; decide
theorem gencode : Statement .gencode := by unfold Statement; decide
theorem encode : Statement .encode := by unfold Statement; decide
theorem decode : Statement .decode := by unfold Statement; decide

end Sys2Proof.Laws.Encoding
end

