-- ==== Sys2Proof/Laws/State.lean ====
section
/-! SUPPORT. One lemma per field of State for each shared update: what the update leaves in that field. -/

namespace Sys2Proof.Machine

@[simp] theorem State.nextTick_ctrlIE (s : State) : s.nextTick.ctrlIE = s.ctrlIE := rfl
@[simp] theorem State.nextTick_done (s : State) : s.nextTick.done = s.done := rfl
@[simp] theorem State.nextTick_treeValid (s : State) : s.nextTick.treeValid = s.treeValid := rfl
@[simp] theorem State.nextTick_codesValid (s : State) : s.nextTick.codesValid = s.codesValid := rfl
@[simp] theorem State.nextTick_ovr (s : State) : s.nextTick.ovr = s.ovr := rfl
@[simp] theorem State.nextTick_errcode (s : State) : s.nextTick.errcode = s.errcode := rfl
@[simp] theorem State.nextTick_srcAddr (s : State) : s.nextTick.srcAddr = s.srcAddr := rfl
@[simp] theorem State.nextTick_srcLen (s : State) : s.nextTick.srcLen = s.srcLen := rfl
@[simp] theorem State.nextTick_dstAddr (s : State) : s.nextTick.dstAddr = s.dstAddr := rfl
@[simp] theorem State.nextTick_dstCap (s : State) : s.nextTick.dstCap = s.dstCap := rfl
@[simp] theorem State.nextTick_outLen (s : State) : s.nextTick.outLen = s.outLen := rfl
@[simp] theorem State.nextTick_inCount (s : State) : s.nextTick.inCount = s.inCount := rfl
@[simp] theorem State.nextTick_bits (s : State) : s.nextTick.bits = s.bits := rfl
@[simp] theorem State.nextTick_errAddr (s : State) : s.nextTick.errAddr = s.errAddr := rfl
@[simp] theorem State.nextTick_alpha (s : State) : s.nextTick.alpha = s.alpha := rfl
@[simp] theorem State.nextTick_total (s : State) : s.nextTick.total = s.total := rfl
@[simp] theorem State.nextTick_tbits (s : State) : s.nextTick.tbits = s.tbits := rfl
@[simp] theorem State.nextTick_root (s : State) : s.nextTick.root = s.root := rfl
@[simp] theorem State.nextTick_nodeCount (s : State) : s.nextTick.nodeCount = s.nodeCount := rfl
@[simp] theorem State.nextTick_freq (s : State) : s.nextTick.freq = s.freq := rfl
@[simp] theorem State.nextTick_node (s : State) : s.nextTick.node = s.node := rfl
@[simp] theorem State.nextTick_code (s : State) : s.nextTick.code = s.code := rfl
@[simp] theorem State.nextTick_engine (s : State) : s.nextTick.engine = s.engine := rfl
@[simp] theorem State.nextTick_mem (s : State) : s.nextTick.mem = s.mem := rfl
@[simp] theorem State.nextTick_platform (s : State) : s.nextTick.platform = s.platform := rfl
@[simp] theorem State.nextTick_script (s : State) : s.nextTick.script = s.script := rfl
@[simp] theorem State.nextTick_responses (s : State) : s.nextTick.responses = s.responses := rfl
@[simp] theorem State.nextTick_durations (s : State) : s.nextTick.durations = s.durations := rfl
@[simp] theorem State.nextTick_tick (s : State) : s.nextTick.tick = s.tick + 1 := rfl

@[simp] theorem finish_ctrlIE (s : State) : (finish s).ctrlIE = s.ctrlIE := rfl
@[simp] theorem finish_done (s : State) : (finish s).done = true := rfl
@[simp] theorem finish_treeValid (s : State) : (finish s).treeValid = s.treeValid := rfl
@[simp] theorem finish_codesValid (s : State) : (finish s).codesValid = s.codesValid := rfl
@[simp] theorem finish_ovr (s : State) : (finish s).ovr = s.ovr := rfl
@[simp] theorem finish_errcode (s : State) : (finish s).errcode = 0#8 := rfl
@[simp] theorem finish_srcAddr (s : State) : (finish s).srcAddr = s.srcAddr := rfl
@[simp] theorem finish_srcLen (s : State) : (finish s).srcLen = s.srcLen := rfl
@[simp] theorem finish_dstAddr (s : State) : (finish s).dstAddr = s.dstAddr := rfl
@[simp] theorem finish_dstCap (s : State) : (finish s).dstCap = s.dstCap := rfl
@[simp] theorem finish_outLen (s : State) : (finish s).outLen = s.outLen := rfl
@[simp] theorem finish_inCount (s : State) : (finish s).inCount = s.inCount := rfl
@[simp] theorem finish_bits (s : State) : (finish s).bits = s.bits := rfl
@[simp] theorem finish_errAddr (s : State) : (finish s).errAddr = s.errAddr := rfl
@[simp] theorem finish_alpha (s : State) : (finish s).alpha = s.alpha := rfl
@[simp] theorem finish_total (s : State) : (finish s).total = s.total := rfl
@[simp] theorem finish_tbits (s : State) : (finish s).tbits = s.tbits := rfl
@[simp] theorem finish_root (s : State) : (finish s).root = s.root := rfl
@[simp] theorem finish_nodeCount (s : State) : (finish s).nodeCount = s.nodeCount := rfl
@[simp] theorem finish_freq (s : State) : (finish s).freq = s.freq := rfl
@[simp] theorem finish_node (s : State) : (finish s).node = s.node := rfl
@[simp] theorem finish_code (s : State) : (finish s).code = s.code := rfl
@[simp] theorem finish_engine (s : State) : (finish s).engine = none := rfl
@[simp] theorem finish_mem (s : State) : (finish s).mem = s.mem := rfl
@[simp] theorem finish_platform (s : State) : (finish s).platform = s.platform := rfl
@[simp] theorem finish_script (s : State) : (finish s).script = s.script := rfl
@[simp] theorem finish_responses (s : State) : (finish s).responses = s.responses := rfl
@[simp] theorem finish_durations (s : State) : (finish s).durations = s.durations := rfl
@[simp] theorem finish_tick (s : State) : (finish s).tick = s.tick := rfl

@[simp] theorem raiseError_ctrlIE (e : ErrCode) (s : State) : (raiseError e s).ctrlIE = s.ctrlIE := rfl
@[simp] theorem raiseError_done (e : ErrCode) (s : State) : (raiseError e s).done = true := rfl
@[simp] theorem raiseError_treeValid (e : ErrCode) (s : State) : (raiseError e s).treeValid = s.treeValid := rfl
@[simp] theorem raiseError_codesValid (e : ErrCode) (s : State) : (raiseError e s).codesValid = s.codesValid := rfl
@[simp] theorem raiseError_ovr (e : ErrCode) (s : State) : (raiseError e s).ovr = s.ovr := rfl
@[simp] theorem raiseError_errcode (e : ErrCode) (s : State) : (raiseError e s).errcode = errValue e := rfl
@[simp] theorem raiseError_srcAddr (e : ErrCode) (s : State) : (raiseError e s).srcAddr = s.srcAddr := rfl
@[simp] theorem raiseError_srcLen (e : ErrCode) (s : State) : (raiseError e s).srcLen = s.srcLen := rfl
@[simp] theorem raiseError_dstAddr (e : ErrCode) (s : State) : (raiseError e s).dstAddr = s.dstAddr := rfl
@[simp] theorem raiseError_dstCap (e : ErrCode) (s : State) : (raiseError e s).dstCap = s.dstCap := rfl
@[simp] theorem raiseError_outLen (e : ErrCode) (s : State) : (raiseError e s).outLen = s.outLen := rfl
@[simp] theorem raiseError_inCount (e : ErrCode) (s : State) : (raiseError e s).inCount = s.inCount := rfl
@[simp] theorem raiseError_bits (e : ErrCode) (s : State) : (raiseError e s).bits = s.bits := rfl
@[simp] theorem raiseError_errAddr (e : ErrCode) (s : State) : (raiseError e s).errAddr = s.errAddr := rfl
@[simp] theorem raiseError_alpha (e : ErrCode) (s : State) : (raiseError e s).alpha = s.alpha := rfl
@[simp] theorem raiseError_total (e : ErrCode) (s : State) : (raiseError e s).total = s.total := rfl
@[simp] theorem raiseError_tbits (e : ErrCode) (s : State) : (raiseError e s).tbits = s.tbits := rfl
@[simp] theorem raiseError_root (e : ErrCode) (s : State) : (raiseError e s).root = s.root := rfl
@[simp] theorem raiseError_nodeCount (e : ErrCode) (s : State) : (raiseError e s).nodeCount = s.nodeCount := rfl
@[simp] theorem raiseError_freq (e : ErrCode) (s : State) : (raiseError e s).freq = s.freq := rfl
@[simp] theorem raiseError_node (e : ErrCode) (s : State) : (raiseError e s).node = s.node := rfl
@[simp] theorem raiseError_code (e : ErrCode) (s : State) : (raiseError e s).code = s.code := rfl
@[simp] theorem raiseError_engine (e : ErrCode) (s : State) : (raiseError e s).engine = none := rfl
@[simp] theorem raiseError_mem (e : ErrCode) (s : State) : (raiseError e s).mem = s.mem := rfl
@[simp] theorem raiseError_platform (e : ErrCode) (s : State) : (raiseError e s).platform = s.platform := rfl
@[simp] theorem raiseError_script (e : ErrCode) (s : State) : (raiseError e s).script = s.script := rfl
@[simp] theorem raiseError_responses (e : ErrCode) (s : State) : (raiseError e s).responses = s.responses := rfl
@[simp] theorem raiseError_durations (e : ErrCode) (s : State) : (raiseError e s).durations = s.durations := rfl
@[simp] theorem raiseError_tick (e : ErrCode) (s : State) : (raiseError e s).tick = s.tick := rfl

@[simp] theorem invalidate_ctrlIE (s : State) : (invalidate s).ctrlIE = s.ctrlIE := rfl
@[simp] theorem invalidate_done (s : State) : (invalidate s).done = s.done := rfl
@[simp] theorem invalidate_treeValid (s : State) : (invalidate s).treeValid = false := rfl
@[simp] theorem invalidate_codesValid (s : State) : (invalidate s).codesValid = false := rfl
@[simp] theorem invalidate_ovr (s : State) : (invalidate s).ovr = s.ovr := rfl
@[simp] theorem invalidate_errcode (s : State) : (invalidate s).errcode = s.errcode := rfl
@[simp] theorem invalidate_srcAddr (s : State) : (invalidate s).srcAddr = s.srcAddr := rfl
@[simp] theorem invalidate_srcLen (s : State) : (invalidate s).srcLen = s.srcLen := rfl
@[simp] theorem invalidate_dstAddr (s : State) : (invalidate s).dstAddr = s.dstAddr := rfl
@[simp] theorem invalidate_dstCap (s : State) : (invalidate s).dstCap = s.dstCap := rfl
@[simp] theorem invalidate_outLen (s : State) : (invalidate s).outLen = s.outLen := rfl
@[simp] theorem invalidate_inCount (s : State) : (invalidate s).inCount = s.inCount := rfl
@[simp] theorem invalidate_bits (s : State) : (invalidate s).bits = s.bits := rfl
@[simp] theorem invalidate_errAddr (s : State) : (invalidate s).errAddr = s.errAddr := rfl
@[simp] theorem invalidate_alpha (s : State) : (invalidate s).alpha = s.alpha := rfl
@[simp] theorem invalidate_total (s : State) : (invalidate s).total = s.total := rfl
@[simp] theorem invalidate_tbits (s : State) : (invalidate s).tbits = s.tbits := rfl
@[simp] theorem invalidate_root (s : State) : (invalidate s).root = s.root := rfl
@[simp] theorem invalidate_nodeCount (s : State) : (invalidate s).nodeCount = s.nodeCount := rfl
@[simp] theorem invalidate_freq (s : State) : (invalidate s).freq = s.freq := rfl
@[simp] theorem invalidate_node (s : State) : (invalidate s).node = s.node := rfl
@[simp] theorem invalidate_code (s : State) : (invalidate s).code = s.code := rfl
@[simp] theorem invalidate_engine (s : State) : (invalidate s).engine = s.engine := rfl
@[simp] theorem invalidate_mem (s : State) : (invalidate s).mem = s.mem := rfl
@[simp] theorem invalidate_platform (s : State) : (invalidate s).platform = s.platform := rfl
@[simp] theorem invalidate_script (s : State) : (invalidate s).script = s.script := rfl
@[simp] theorem invalidate_responses (s : State) : (invalidate s).responses = s.responses := rfl
@[simp] theorem invalidate_durations (s : State) : (invalidate s).durations = s.durations := rfl
@[simp] theorem invalidate_tick (s : State) : (invalidate s).tick = s.tick := rfl

@[simp] theorem setOvr_ctrlIE (s : State) : (setOvr s).ctrlIE = s.ctrlIE := rfl
@[simp] theorem setOvr_done (s : State) : (setOvr s).done = s.done := rfl
@[simp] theorem setOvr_treeValid (s : State) : (setOvr s).treeValid = s.treeValid := rfl
@[simp] theorem setOvr_codesValid (s : State) : (setOvr s).codesValid = s.codesValid := rfl
@[simp] theorem setOvr_ovr (s : State) : (setOvr s).ovr = true := rfl
@[simp] theorem setOvr_errcode (s : State) : (setOvr s).errcode = s.errcode := rfl
@[simp] theorem setOvr_srcAddr (s : State) : (setOvr s).srcAddr = s.srcAddr := rfl
@[simp] theorem setOvr_srcLen (s : State) : (setOvr s).srcLen = s.srcLen := rfl
@[simp] theorem setOvr_dstAddr (s : State) : (setOvr s).dstAddr = s.dstAddr := rfl
@[simp] theorem setOvr_dstCap (s : State) : (setOvr s).dstCap = s.dstCap := rfl
@[simp] theorem setOvr_outLen (s : State) : (setOvr s).outLen = s.outLen := rfl
@[simp] theorem setOvr_inCount (s : State) : (setOvr s).inCount = s.inCount := rfl
@[simp] theorem setOvr_bits (s : State) : (setOvr s).bits = s.bits := rfl
@[simp] theorem setOvr_errAddr (s : State) : (setOvr s).errAddr = s.errAddr := rfl
@[simp] theorem setOvr_alpha (s : State) : (setOvr s).alpha = s.alpha := rfl
@[simp] theorem setOvr_total (s : State) : (setOvr s).total = s.total := rfl
@[simp] theorem setOvr_tbits (s : State) : (setOvr s).tbits = s.tbits := rfl
@[simp] theorem setOvr_root (s : State) : (setOvr s).root = s.root := rfl
@[simp] theorem setOvr_nodeCount (s : State) : (setOvr s).nodeCount = s.nodeCount := rfl
@[simp] theorem setOvr_freq (s : State) : (setOvr s).freq = s.freq := rfl
@[simp] theorem setOvr_node (s : State) : (setOvr s).node = s.node := rfl
@[simp] theorem setOvr_code (s : State) : (setOvr s).code = s.code := rfl
@[simp] theorem setOvr_engine (s : State) : (setOvr s).engine = s.engine := rfl
@[simp] theorem setOvr_mem (s : State) : (setOvr s).mem = s.mem := rfl
@[simp] theorem setOvr_platform (s : State) : (setOvr s).platform = s.platform := rfl
@[simp] theorem setOvr_script (s : State) : (setOvr s).script = s.script := rfl
@[simp] theorem setOvr_responses (s : State) : (setOvr s).responses = s.responses := rfl
@[simp] theorem setOvr_durations (s : State) : (setOvr s).durations = s.durations := rfl
@[simp] theorem setOvr_tick (s : State) : (setOvr s).tick = s.tick := rfl

@[simp] theorem respond_ctrlIE (r : Response) (s : State) : (respond r s).ctrlIE = s.ctrlIE := rfl
@[simp] theorem respond_done (r : Response) (s : State) : (respond r s).done = s.done := rfl
@[simp] theorem respond_treeValid (r : Response) (s : State) : (respond r s).treeValid = s.treeValid := rfl
@[simp] theorem respond_codesValid (r : Response) (s : State) : (respond r s).codesValid = s.codesValid := rfl
@[simp] theorem respond_ovr (r : Response) (s : State) : (respond r s).ovr = s.ovr := rfl
@[simp] theorem respond_errcode (r : Response) (s : State) : (respond r s).errcode = s.errcode := rfl
@[simp] theorem respond_srcAddr (r : Response) (s : State) : (respond r s).srcAddr = s.srcAddr := rfl
@[simp] theorem respond_srcLen (r : Response) (s : State) : (respond r s).srcLen = s.srcLen := rfl
@[simp] theorem respond_dstAddr (r : Response) (s : State) : (respond r s).dstAddr = s.dstAddr := rfl
@[simp] theorem respond_dstCap (r : Response) (s : State) : (respond r s).dstCap = s.dstCap := rfl
@[simp] theorem respond_outLen (r : Response) (s : State) : (respond r s).outLen = s.outLen := rfl
@[simp] theorem respond_inCount (r : Response) (s : State) : (respond r s).inCount = s.inCount := rfl
@[simp] theorem respond_bits (r : Response) (s : State) : (respond r s).bits = s.bits := rfl
@[simp] theorem respond_errAddr (r : Response) (s : State) : (respond r s).errAddr = s.errAddr := rfl
@[simp] theorem respond_alpha (r : Response) (s : State) : (respond r s).alpha = s.alpha := rfl
@[simp] theorem respond_total (r : Response) (s : State) : (respond r s).total = s.total := rfl
@[simp] theorem respond_tbits (r : Response) (s : State) : (respond r s).tbits = s.tbits := rfl
@[simp] theorem respond_root (r : Response) (s : State) : (respond r s).root = s.root := rfl
@[simp] theorem respond_nodeCount (r : Response) (s : State) : (respond r s).nodeCount = s.nodeCount := rfl
@[simp] theorem respond_freq (r : Response) (s : State) : (respond r s).freq = s.freq := rfl
@[simp] theorem respond_node (r : Response) (s : State) : (respond r s).node = s.node := rfl
@[simp] theorem respond_code (r : Response) (s : State) : (respond r s).code = s.code := rfl
@[simp] theorem respond_engine (r : Response) (s : State) : (respond r s).engine = s.engine := rfl
@[simp] theorem respond_mem (r : Response) (s : State) : (respond r s).mem = s.mem := rfl
@[simp] theorem respond_platform (r : Response) (s : State) : (respond r s).platform = s.platform := rfl
@[simp] theorem respond_script (r : Response) (s : State) : (respond r s).script = s.script := rfl
@[simp] theorem respond_responses (r : Response) (s : State) : (respond r s).responses = r :: s.responses := rfl
@[simp] theorem respond_durations (r : Response) (s : State) : (respond r s).durations = s.durations := rfl
@[simp] theorem respond_tick (r : Response) (s : State) : (respond r s).tick = s.tick := rfl

@[simp] theorem acceptCommand_ctrlIE (w : Word) (s : State) : (acceptCommand w s).ctrlIE = s.ctrlIE := rfl
@[simp] theorem acceptCommand_done (w : Word) (s : State) : (acceptCommand w s).done = false := rfl
@[simp] theorem acceptCommand_treeValid (w : Word) (s : State) : (acceptCommand w s).treeValid = s.treeValid := rfl
@[simp] theorem acceptCommand_codesValid (w : Word) (s : State) : (acceptCommand w s).codesValid = s.codesValid := rfl
@[simp] theorem acceptCommand_ovr (w : Word) (s : State) : (acceptCommand w s).ovr = s.ovr := rfl
@[simp] theorem acceptCommand_errcode (w : Word) (s : State) : (acceptCommand w s).errcode = 0#8 := rfl
@[simp] theorem acceptCommand_srcAddr (w : Word) (s : State) : (acceptCommand w s).srcAddr = s.srcAddr := rfl
@[simp] theorem acceptCommand_srcLen (w : Word) (s : State) : (acceptCommand w s).srcLen = s.srcLen := rfl
@[simp] theorem acceptCommand_dstAddr (w : Word) (s : State) : (acceptCommand w s).dstAddr = s.dstAddr := rfl
@[simp] theorem acceptCommand_dstCap (w : Word) (s : State) : (acceptCommand w s).dstCap = s.dstCap := rfl
@[simp] theorem acceptCommand_outLen (w : Word) (s : State) : (acceptCommand w s).outLen = s.outLen := rfl
@[simp] theorem acceptCommand_inCount (w : Word) (s : State) : (acceptCommand w s).inCount = s.inCount := rfl
@[simp] theorem acceptCommand_bits (w : Word) (s : State) : (acceptCommand w s).bits = s.bits := rfl
@[simp] theorem acceptCommand_errAddr (w : Word) (s : State) : (acceptCommand w s).errAddr = s.errAddr := rfl
@[simp] theorem acceptCommand_alpha (w : Word) (s : State) : (acceptCommand w s).alpha = s.alpha := rfl
@[simp] theorem acceptCommand_total (w : Word) (s : State) : (acceptCommand w s).total = s.total := rfl
@[simp] theorem acceptCommand_tbits (w : Word) (s : State) : (acceptCommand w s).tbits = s.tbits := rfl
@[simp] theorem acceptCommand_root (w : Word) (s : State) : (acceptCommand w s).root = s.root := rfl
@[simp] theorem acceptCommand_nodeCount (w : Word) (s : State) : (acceptCommand w s).nodeCount = s.nodeCount := rfl
@[simp] theorem acceptCommand_freq (w : Word) (s : State) : (acceptCommand w s).freq = s.freq := rfl
@[simp] theorem acceptCommand_node (w : Word) (s : State) : (acceptCommand w s).node = s.node := rfl
@[simp] theorem acceptCommand_code (w : Word) (s : State) : (acceptCommand w s).code = s.code := rfl
@[simp] theorem acceptCommand_engine (w : Word) (s : State) : (acceptCommand w s).engine = some { word := w, phase := .due (s.durations.headD 0), raced := [] } := rfl
@[simp] theorem acceptCommand_mem (w : Word) (s : State) : (acceptCommand w s).mem = s.mem := rfl
@[simp] theorem acceptCommand_platform (w : Word) (s : State) : (acceptCommand w s).platform = s.platform := rfl
@[simp] theorem acceptCommand_script (w : Word) (s : State) : (acceptCommand w s).script = s.script := rfl
@[simp] theorem acceptCommand_responses (w : Word) (s : State) : (acceptCommand w s).responses = s.responses := rfl
@[simp] theorem acceptCommand_durations (w : Word) (s : State) : (acceptCommand w s).durations = s.durations.tail := rfl
@[simp] theorem acceptCommand_tick (w : Word) (s : State) : (acceptCommand w s).tick = s.tick := rfl

@[simp] theorem acceptNow_ctrlIE (w : Word) (s : State) : (acceptNow w s).ctrlIE = s.ctrlIE := rfl
@[simp] theorem acceptNow_done (w : Word) (s : State) : (acceptNow w s).done = false := rfl
@[simp] theorem acceptNow_treeValid (w : Word) (s : State) : (acceptNow w s).treeValid = s.treeValid := rfl
@[simp] theorem acceptNow_codesValid (w : Word) (s : State) : (acceptNow w s).codesValid = s.codesValid := rfl
@[simp] theorem acceptNow_ovr (w : Word) (s : State) : (acceptNow w s).ovr = s.ovr := rfl
@[simp] theorem acceptNow_errcode (w : Word) (s : State) : (acceptNow w s).errcode = 0#8 := rfl
@[simp] theorem acceptNow_srcAddr (w : Word) (s : State) : (acceptNow w s).srcAddr = s.srcAddr := rfl
@[simp] theorem acceptNow_srcLen (w : Word) (s : State) : (acceptNow w s).srcLen = s.srcLen := rfl
@[simp] theorem acceptNow_dstAddr (w : Word) (s : State) : (acceptNow w s).dstAddr = s.dstAddr := rfl
@[simp] theorem acceptNow_dstCap (w : Word) (s : State) : (acceptNow w s).dstCap = s.dstCap := rfl
@[simp] theorem acceptNow_outLen (w : Word) (s : State) : (acceptNow w s).outLen = s.outLen := rfl
@[simp] theorem acceptNow_inCount (w : Word) (s : State) : (acceptNow w s).inCount = s.inCount := rfl
@[simp] theorem acceptNow_bits (w : Word) (s : State) : (acceptNow w s).bits = s.bits := rfl
@[simp] theorem acceptNow_errAddr (w : Word) (s : State) : (acceptNow w s).errAddr = s.errAddr := rfl
@[simp] theorem acceptNow_alpha (w : Word) (s : State) : (acceptNow w s).alpha = s.alpha := rfl
@[simp] theorem acceptNow_total (w : Word) (s : State) : (acceptNow w s).total = s.total := rfl
@[simp] theorem acceptNow_tbits (w : Word) (s : State) : (acceptNow w s).tbits = s.tbits := rfl
@[simp] theorem acceptNow_root (w : Word) (s : State) : (acceptNow w s).root = s.root := rfl
@[simp] theorem acceptNow_nodeCount (w : Word) (s : State) : (acceptNow w s).nodeCount = s.nodeCount := rfl
@[simp] theorem acceptNow_freq (w : Word) (s : State) : (acceptNow w s).freq = s.freq := rfl
@[simp] theorem acceptNow_node (w : Word) (s : State) : (acceptNow w s).node = s.node := rfl
@[simp] theorem acceptNow_code (w : Word) (s : State) : (acceptNow w s).code = s.code := rfl
@[simp] theorem acceptNow_engine (w : Word) (s : State) : (acceptNow w s).engine = some { word := w, phase := .due 0, raced := [] } := rfl
@[simp] theorem acceptNow_mem (w : Word) (s : State) : (acceptNow w s).mem = s.mem := rfl
@[simp] theorem acceptNow_platform (w : Word) (s : State) : (acceptNow w s).platform = s.platform := rfl
@[simp] theorem acceptNow_script (w : Word) (s : State) : (acceptNow w s).script = s.script := rfl
@[simp] theorem acceptNow_responses (w : Word) (s : State) : (acceptNow w s).responses = s.responses := rfl
@[simp] theorem acceptNow_durations (w : Word) (s : State) : (acceptNow w s).durations = s.durations := rfl
@[simp] theorem acceptNow_tick (w : Word) (s : State) : (acceptNow w s).tick = s.tick := rfl

@[simp] theorem storeByte_ctrlIE (s : State) (a : Word) (v : Byte) : (storeByte s a v).ctrlIE = s.ctrlIE := rfl
@[simp] theorem storeByte_done (s : State) (a : Word) (v : Byte) : (storeByte s a v).done = s.done := rfl
@[simp] theorem storeByte_treeValid (s : State) (a : Word) (v : Byte) : (storeByte s a v).treeValid = s.treeValid := rfl
@[simp] theorem storeByte_codesValid (s : State) (a : Word) (v : Byte) : (storeByte s a v).codesValid = s.codesValid := rfl
@[simp] theorem storeByte_ovr (s : State) (a : Word) (v : Byte) : (storeByte s a v).ovr = s.ovr := rfl
@[simp] theorem storeByte_errcode (s : State) (a : Word) (v : Byte) : (storeByte s a v).errcode = s.errcode := rfl
@[simp] theorem storeByte_srcAddr (s : State) (a : Word) (v : Byte) : (storeByte s a v).srcAddr = s.srcAddr := rfl
@[simp] theorem storeByte_srcLen (s : State) (a : Word) (v : Byte) : (storeByte s a v).srcLen = s.srcLen := rfl
@[simp] theorem storeByte_dstAddr (s : State) (a : Word) (v : Byte) : (storeByte s a v).dstAddr = s.dstAddr := rfl
@[simp] theorem storeByte_dstCap (s : State) (a : Word) (v : Byte) : (storeByte s a v).dstCap = s.dstCap := rfl
@[simp] theorem storeByte_outLen (s : State) (a : Word) (v : Byte) : (storeByte s a v).outLen = s.outLen := rfl
@[simp] theorem storeByte_inCount (s : State) (a : Word) (v : Byte) : (storeByte s a v).inCount = s.inCount := rfl
@[simp] theorem storeByte_bits (s : State) (a : Word) (v : Byte) : (storeByte s a v).bits = s.bits := rfl
@[simp] theorem storeByte_errAddr (s : State) (a : Word) (v : Byte) : (storeByte s a v).errAddr = s.errAddr := rfl
@[simp] theorem storeByte_alpha (s : State) (a : Word) (v : Byte) : (storeByte s a v).alpha = s.alpha := rfl
@[simp] theorem storeByte_total (s : State) (a : Word) (v : Byte) : (storeByte s a v).total = s.total := rfl
@[simp] theorem storeByte_tbits (s : State) (a : Word) (v : Byte) : (storeByte s a v).tbits = s.tbits := rfl
@[simp] theorem storeByte_root (s : State) (a : Word) (v : Byte) : (storeByte s a v).root = s.root := rfl
@[simp] theorem storeByte_nodeCount (s : State) (a : Word) (v : Byte) : (storeByte s a v).nodeCount = s.nodeCount := rfl
@[simp] theorem storeByte_freq (s : State) (a : Word) (v : Byte) : (storeByte s a v).freq = s.freq := rfl
@[simp] theorem storeByte_node (s : State) (a : Word) (v : Byte) : (storeByte s a v).node = s.node := rfl
@[simp] theorem storeByte_code (s : State) (a : Word) (v : Byte) : (storeByte s a v).code = s.code := rfl
@[simp] theorem storeByte_engine (s : State) (a : Word) (v : Byte) : (storeByte s a v).engine = s.engine.map (fun r => { r with raced := a :: r.raced }) := rfl
@[simp] theorem storeByte_mem (s : State) (a : Word) (v : Byte) : (storeByte s a v).mem = s.mem.write a.toNat (if inBusyDestination s a then Config.racedByte s.tick a.toNat else v) := rfl
@[simp] theorem storeByte_platform (s : State) (a : Word) (v : Byte) : (storeByte s a v).platform = s.platform := rfl
@[simp] theorem storeByte_script (s : State) (a : Word) (v : Byte) : (storeByte s a v).script = s.script := rfl
@[simp] theorem storeByte_responses (s : State) (a : Word) (v : Byte) : (storeByte s a v).responses = s.responses := rfl
@[simp] theorem storeByte_durations (s : State) (a : Word) (v : Byte) : (storeByte s a v).durations = s.durations := rfl
@[simp] theorem storeByte_tick (s : State) (a : Word) (v : Byte) : (storeByte s a v).tick = s.tick := rfl

@[simp] theorem softReset_ctrlIE (s : State) : (softReset s).ctrlIE = State.reset.ctrlIE := rfl
@[simp] theorem softReset_done (s : State) : (softReset s).done = State.reset.done := rfl
@[simp] theorem softReset_treeValid (s : State) : (softReset s).treeValid = State.reset.treeValid := rfl
@[simp] theorem softReset_codesValid (s : State) : (softReset s).codesValid = State.reset.codesValid := rfl
@[simp] theorem softReset_ovr (s : State) : (softReset s).ovr = State.reset.ovr := rfl
@[simp] theorem softReset_errcode (s : State) : (softReset s).errcode = State.reset.errcode := rfl
@[simp] theorem softReset_srcAddr (s : State) : (softReset s).srcAddr = State.reset.srcAddr := rfl
@[simp] theorem softReset_srcLen (s : State) : (softReset s).srcLen = State.reset.srcLen := rfl
@[simp] theorem softReset_dstAddr (s : State) : (softReset s).dstAddr = State.reset.dstAddr := rfl
@[simp] theorem softReset_dstCap (s : State) : (softReset s).dstCap = State.reset.dstCap := rfl
@[simp] theorem softReset_outLen (s : State) : (softReset s).outLen = State.reset.outLen := rfl
@[simp] theorem softReset_inCount (s : State) : (softReset s).inCount = State.reset.inCount := rfl
@[simp] theorem softReset_bits (s : State) : (softReset s).bits = State.reset.bits := rfl
@[simp] theorem softReset_errAddr (s : State) : (softReset s).errAddr = State.reset.errAddr := rfl
@[simp] theorem softReset_alpha (s : State) : (softReset s).alpha = State.reset.alpha := rfl
@[simp] theorem softReset_total (s : State) : (softReset s).total = State.reset.total := rfl
@[simp] theorem softReset_tbits (s : State) : (softReset s).tbits = State.reset.tbits := rfl
@[simp] theorem softReset_root (s : State) : (softReset s).root = State.reset.root := rfl
@[simp] theorem softReset_nodeCount (s : State) : (softReset s).nodeCount = State.reset.nodeCount := rfl
@[simp] theorem softReset_freq (s : State) : (softReset s).freq = State.reset.freq := rfl
@[simp] theorem softReset_node (s : State) : (softReset s).node = State.reset.node := rfl
@[simp] theorem softReset_code (s : State) : (softReset s).code = State.reset.code := rfl
@[simp] theorem softReset_engine (s : State) : (softReset s).engine = State.reset.engine := rfl
@[simp] theorem softReset_mem (s : State) : (softReset s).mem = scrambleDestination s (abortCount s) := rfl
@[simp] theorem softReset_platform (s : State) : (softReset s).platform = s.platform := rfl
@[simp] theorem softReset_script (s : State) : (softReset s).script = s.script := rfl
@[simp] theorem softReset_responses (s : State) : (softReset s).responses = s.responses := rfl
@[simp] theorem softReset_durations (s : State) : (softReset s).durations = s.durations := rfl
@[simp] theorem softReset_tick (s : State) : (softReset s).tick = s.tick := rfl

@[simp] theorem powerCycle_ctrlIE (s : State) : (powerCycle s).ctrlIE = State.reset.ctrlIE := rfl
@[simp] theorem powerCycle_done (s : State) : (powerCycle s).done = State.reset.done := rfl
@[simp] theorem powerCycle_treeValid (s : State) : (powerCycle s).treeValid = State.reset.treeValid := rfl
@[simp] theorem powerCycle_codesValid (s : State) : (powerCycle s).codesValid = State.reset.codesValid := rfl
@[simp] theorem powerCycle_ovr (s : State) : (powerCycle s).ovr = State.reset.ovr := rfl
@[simp] theorem powerCycle_errcode (s : State) : (powerCycle s).errcode = State.reset.errcode := rfl
@[simp] theorem powerCycle_srcAddr (s : State) : (powerCycle s).srcAddr = State.reset.srcAddr := rfl
@[simp] theorem powerCycle_srcLen (s : State) : (powerCycle s).srcLen = State.reset.srcLen := rfl
@[simp] theorem powerCycle_dstAddr (s : State) : (powerCycle s).dstAddr = State.reset.dstAddr := rfl
@[simp] theorem powerCycle_dstCap (s : State) : (powerCycle s).dstCap = State.reset.dstCap := rfl
@[simp] theorem powerCycle_outLen (s : State) : (powerCycle s).outLen = State.reset.outLen := rfl
@[simp] theorem powerCycle_inCount (s : State) : (powerCycle s).inCount = State.reset.inCount := rfl
@[simp] theorem powerCycle_bits (s : State) : (powerCycle s).bits = State.reset.bits := rfl
@[simp] theorem powerCycle_errAddr (s : State) : (powerCycle s).errAddr = State.reset.errAddr := rfl
@[simp] theorem powerCycle_alpha (s : State) : (powerCycle s).alpha = State.reset.alpha := rfl
@[simp] theorem powerCycle_total (s : State) : (powerCycle s).total = State.reset.total := rfl
@[simp] theorem powerCycle_tbits (s : State) : (powerCycle s).tbits = State.reset.tbits := rfl
@[simp] theorem powerCycle_root (s : State) : (powerCycle s).root = State.reset.root := rfl
@[simp] theorem powerCycle_nodeCount (s : State) : (powerCycle s).nodeCount = State.reset.nodeCount := rfl
@[simp] theorem powerCycle_freq (s : State) : (powerCycle s).freq = State.reset.freq := rfl
@[simp] theorem powerCycle_node (s : State) : (powerCycle s).node = State.reset.node := rfl
@[simp] theorem powerCycle_code (s : State) : (powerCycle s).code = State.reset.code := rfl
@[simp] theorem powerCycle_engine (s : State) : (powerCycle s).engine = State.reset.engine := rfl
@[simp] theorem powerCycle_mem (s : State) : (powerCycle s).mem = powerUpMemory s.tick := rfl
@[simp] theorem powerCycle_platform (s : State) : (powerCycle s).platform = s.platform := rfl
@[simp] theorem powerCycle_script (s : State) : (powerCycle s).script = s.script := rfl
@[simp] theorem powerCycle_responses (s : State) : (powerCycle s).responses = s.responses := rfl
@[simp] theorem powerCycle_durations (s : State) : (powerCycle s).durations = s.durations := rfl
@[simp] theorem powerCycle_tick (s : State) : (powerCycle s).tick = s.tick := rfl


/-! ### Window reads -/

/-- While idle a NODE word reads as the window shows it, its reserved word among them (10_state.md R41, R45). -/
theorem readNode_of_idle {s : State} (h : s.busy = false) (i : NodeIdx) (w : BitVec 2) : readNode s i w = nodeWindow s i w := by
  unfold readNode
  split
  · next hw => subst hw; simp [nodeWindow]
  · simp [unlessBusy, h]

/-- While idle a CODE word reads as the window shows it, its reserved words among them (R41, R48). -/
theorem readCode_of_idle {s : State} (h : s.busy = false) (x : Byte) (w : BitVec 4) : readCode s x w = codeWindow s x w := by
  unfold readCode
  split
  · next hw =>
    unfold codeWindow
    rw [if_neg (show ¬ w.toNat = 0 by omega), if_neg (show ¬ w.toNat ≤ 8 by omega), ite_self]
  · simp [unlessBusy, h]

end Sys2Proof.Machine
end

