-- ==== Sys2Proof/Tests/Slice0.lean ====
section
/-! SUPPORT. Our own tests. Expected values come from spec/95_test_vectors.md and the encodings of spec/30_encoding.md, written out
by hand. The `witness_` theorems show concrete states that meet the hypotheses of the obligation they name, clause by clause. -/

namespace Sys2Proof.Tests

open Sys2Proof Sys2Proof.Machine

-- One proof at a time: each kernel evaluation holds a thread's memory while it runs.
set_option Elab.async false

/-! ### Small states -/

/-- Whether an outcome is a next state of which `p` holds. -/
def nextIs (o : Outcome) (p : State → Bool) : Bool :=
  match o with
  | .next t => p t
  | .fault _ => false
  | .refused _ => false

theorem nextIs_spec {o : Outcome} {p : State → Bool} (h : nextIs o p = true) : ∃ t, o = .next t ∧ p t = true := by
  cases o with
  | next t => exact ⟨t, rfl, h⟩
  | fault f => cases h
  | refused r => cases h

/-- The state a command leaves. -/
def after (i : Instr) (s : State) : State :=
  match exec i s with
  | .next t => t
  | .fault _ => s
  | .refused _ => s

/-- A state with some frequency entries written. -/
def withFreq (es : List (Byte × Word)) : State := es.foldl (fun s e => setFreq e.1 e.2 s) State.reset

/-- Operands and source bytes. -/
def withBuffers (src : Word) (bytes : List Byte) (dst cap : Word) (s : State) : State :=
  { storeBytes s src bytes with srcAddr := src, srcLen := BitVec.ofNat 32 bytes.length, dstAddr := dst, dstCap := cap }

/-- The table of V-B1: the counts of the bytes of `abraBytes`. -/
def abraFreq : State := withFreq [(0x61#8, 5#32), (0x62#8, 2#32), (0x63#8, 1#32), (0x64#8, 1#32), (0x72#8, 2#32)]

def abraBytes : List Byte :=
  [0x61#8, 0x62#8, 0x72#8, 0x61#8, 0x63#8, 0x61#8, 0x64#8, 0x61#8, 0x62#8, 0x72#8, 0x61#8]

/-- Tree and codes of V-B1 and V-G1. -/
def abraCodes : State := after .gencode (after .build abraFreq)

/-- One symbol, 0x41, three times: tree and codes. -/
def oneFreq : State := withFreq [(0x41#8, 3#32)]
def oneTree : State := after .build oneFreq
def oneCodes : State := after .gencode oneTree

/-- A state whose engine holds a command. -/
def busyWith (w : Word) (p : Phase) (s : State) : State :=
  { s with engine := some { word := w, phase := p, raced := [] } }

/-- A platform that answers one range of addresses in one way. -/
def answering (base size : Nat) (onRead onWrite : Answer) (s : State) : State :=
  { s with platform := [{ base := base, size := size, onRead := onRead, onWrite := onWrite }] }

/-! ### Decoding: the words of 30_encoding.md R87, OP in bits 3:0 and RSV in bits 31:4 -/

theorem test_decode_nop : decode 0b00000000000000000000000000000000#32 = .ok .nop := by decide
theorem test_decode_clrfreq : decode 0b00000000000000000000000000000001#32 = .ok .clrfreq := by decide
theorem test_decode_build : decode 0b00000000000000000000000000000010#32 = .ok .build := by decide
theorem test_decode_gencode : decode 0b00000000000000000000000000000011#32 = .ok .gencode := by decide
theorem test_decode_encode : decode 0b00000000000000000000000000000100#32 = .ok .encode := by decide
theorem test_decode_decode : decode 0b00000000000000000000000000000101#32 = .ok .decode := by decide

/-- V-C7 to V-C10: words that are no command. -/
theorem test_decode_illegal :
    decode 0x00000006#32 = .error .reservedOpcode ∧ decode 0x0000000F#32 = .error .reservedOpcode ∧
      decode 0x00000012#32 = .error .reservedBits ∧ decode 0x80000000#32 = .error .reservedBits ∧
      decode 0xFFFFFFFF#32 = .error .reservedBits := by decide

theorem test_decodeTableWord :
    decodeTableWord 32 2 = some .build ∧ decodeTableWord 32 0x12 = none ∧ decodeTableWord 40 0 = none := by decide

/-! ### WellFormed: an ill-formed term for each check -/

theorem test_wf_size : HostAction.wf (.write 2 0x008#32 0#32) = false := by decide
theorem test_wf_alignment : HostAction.wf (.read 4 0x002#32) = false := by decide
theorem test_wf_offset : HostAction.wf (.read 4 0x8000#32) = false := by decide
theorem test_wf_store : HostAction.wf (.store 0xFFFFFFFF#32 [0#8, 0#8]) = false := by decide
theorem test_wf_script : scriptWf [.wait, .read 4 0x8000#32] = false := by decide
theorem test_wf_good :
    scriptWf [.write 4 0x00C#32 1#32, .wait, .read 4 0x7FFC#32, .store 0xFFFFFFFE#32 [1#8, 2#8], .resetInput, .powerCycle] = true := by
  decide

/-! ### Host scripts: 30_encoding.md R96 -/

theorem test_expand :
    expandScript [.run .build, .setf 0x61#8 5#32, .ack] =
      [.write 4 0x00C#32 2#32, .wait, .write 4 0x584#32 5#32, .write 4 0x008#32 0x22#32] := by decide

/-- X1: the header of the compressed file. -/
theorem test_header :
    fileHeader [0xAA#8] 2#32 300#32 [(0x61#8, 299#32), (0x62#8, 1#32)] =
      [0xAA#8, 2#8, 0#8, 0#8, 0#8, 0x2C#8, 1#8, 0#8, 0#8, 0x61#8, 0x2B#8, 1#8, 0#8, 0#8, 0x62#8, 1#8, 0#8, 0#8, 0#8] := by
  decide

/-! ### The commands -/

/-- V-C2: NOP with interrupts enabled. -/
theorem test_nop :
    nextIs (exec .nop { State.reset with ctrlIE := true }) (fun t => statusWord t == 0x2#32 && t.irq) = true := by
  decide +kernel

/-- V-C4: CLRFREQ. -/
theorem test_clrfreq :
    nextIs (exec .clrfreq oneCodes)
      (fun t => statusWord t == 0x2#32 && freqAt t.freq 0x41#8 == 0#32 && t.total == 3#64 && t.root == 1#9) = true := by
  decide +kernel

/-- V-B1: the tree of the table: the result registers, a leaf, an internal node and the root as the window shows them. -/
theorem test_build :
    nextIs (exec .build abraFreq)
      (fun t => t.alpha == 5#9 && t.total == 11#64 && t.nodeCount == 9#10 && t.root == 8#9 &&
        readReg t (.nodeWord 0#9 0#2) == 0xC187FFFF#32 && readReg t (.nodeWord 2#9 0#2) == 0xC18FFFFF#32 &&
        readReg t (.nodeWord 8#9 0#2) == 0x80000E00#32 && readReg t (.nodeWord 8#9 1#2) == 11#32) = true := by
  decide +kernel

/-- X3, V-B3: one symbol is wrapped. -/
theorem test_build_single :
    nextIs (exec .build (withFreq [(0x41#8, 1000#32)]))
      (fun t => t.root == 1#9 && t.nodeCount == 2#10 && readReg t (.nodeWord 0#9 0#2) == 0xC107FFFF#32 &&
        readReg t (.nodeWord 1#9 0#2) == 0x8003FE00#32) = true := by decide +kernel

/-- V-G1: the codes 0, 110, 100, 101, 111. -/
theorem test_gencode :
    nextIs (exec .gencode (after .build abraFreq))
      (fun t => statusWord t == 0x1A#32 && t.tbits == 23#64 &&
        codeString (codeAt t.code 0x61#8) == [false] && codeString (codeAt t.code 0x62#8) == [true, true, false] &&
        codeString (codeAt t.code 0x63#8) == [true, false, false] &&
        codeString (codeAt t.code 0x64#8) == [true, false, true] &&
        codeString (codeAt t.code 0x72#8) == [true, true, true]) = true := by decide +kernel

/-- X3: one entry, of length 1. -/
theorem test_gencode_single :
    nextIs (exec .gencode oneTree)
      (fun t => readReg t (.codeWord 0x41#8 0#4) == 0x80000001#32 && readReg t (.codeWord 0x41#8 1#4) == 0#32 &&
        t.tbits == 3#64) = true := by decide +kernel

/-- V-E1: the eleven bytes pack into 6E 8A DC. -/
theorem test_encode :
    nextIs (exec .encode (withBuffers 0x1000#32 abraBytes 0x2000#32 16#32 abraCodes))
      (fun t => t.mem.readList 0x2000 3 == [0x6E#8, 0x8A#8, 0xDC#8] && t.outLen == 3#32 && t.inCount == 11#32 &&
        t.bits == 23#64 && t.errcode == 0#8) = true := by decide +kernel

/-- 43_encoder.md R154: the byte 0x7A has no code; the two bytes before it have codes of 1 and 3 bits. -/
theorem test_encode_no_code :
    nextIs (exec .encode (withBuffers 0x1000#32 [0x61#8, 0x62#8, 0x7A#8] 0x2000#32 16#32 abraCodes))
      (fun t => t.errcode == 0x06#8 && t.inCount == 2#32 && t.bits == 4#64 && t.outLen == 0#32) = true := by
  decide +kernel

/-- V-D1: and they decode back. -/
theorem test_decode :
    nextIs (exec .decode (withBuffers 0x2000#32 [0x6E#8, 0x8A#8, 0xDC#8] 0x3000#32 11#32 abraCodes))
      (fun t => t.mem.readList 0x3000 11 == abraBytes && t.outLen == 11#32 && t.inCount == 3#32 && t.bits == 23#64 &&
        t.errcode == 0#8) = true := by decide +kernel

/-- X7: one byte short. -/
theorem test_decode_truncated :
    nextIs (exec .decode (withBuffers 0x2000#32 [0x6E#8, 0x8A#8] 0x3000#32 11#32 abraCodes))
      (fun t => t.errcode == 0x02#8 && t.outLen == 0#32 && t.inCount == 0#32 && t.bits == 0#64) = true := by
  decide +kernel

/-! ### Witnesses: concrete states that meet the hypotheses of the obligation named -/

/-- A state written out: symbol 0x41 three times, its wrapped leaf, its code "0". -/
def oneState : State :=
  { State.reset with
    treeValid := true
    codesValid := true
    alpha := 1#9
    total := 3#64
    tbits := 3#64
    root := 1#9
    nodeCount := 2#10
    freq := (Vector.replicate 256 0#32).setIfInBounds (0x41#8).toNat 3#32
    node := writeArena 0 [leafNode (0x41#8, 3#32), internalNode 0#9 NIL 3#64] (Vector.replicate 511 Node.blank)
    code := setCode emptyTable 0x41#8 (codeEntry [false]) }

theorem oneState_freq (x : Byte) : freqAt oneState.freq x = if x = 0x41#8 then 3#32 else 0#32 := by
  split
  · next h => rw [h]; exact freqAt_set_same _ _ _
  · next h => exact (freqAt_set_other _ _ h).trans (freqAt_replicate x)

theorem oneState_node0 : nodeAt oneState.node 0#9 = leafNode (0x41#8, 3#32) := by
  rw [oneState, nodeAt_writeArena] <;> simp

theorem oneState_node1 : nodeAt oneState.node 1#9 = internalNode 0#9 NIL 3#64 := by
  rw [oneState, nodeAt_writeArena] <;> simp

theorem oneState_code (x : Byte) :
    codeAt oneState.code x = if x = 0x41#8 then codeEntry [false] else CodeEntry.blank := by
  split
  · next h => rw [h]; exact codeAt_setCode_same _ _ _
  · next h => exact (codeAt_setCode_other _ _ h).trans (codeAt_blank x)

theorem oneState_observed : observed oneState.freq = [(0x41#8, 3#32)] := by
  have h := observed_single (f := oneState.freq) (x := 0x41#8) (by rw [oneState_freq]; decide)
    (fun y hy => by rw [oneState_freq, if_neg hy])
  rwa [oneState_freq, if_pos rfl] at h

theorem oneState_isTree : IsTree oneState (.wrap 1 (.leaf 0 0x41#8 3#32)) := by
  refine ⟨⟨by decide, oneState_node1, by decide, oneState_node0⟩, ⟨0, 0x41#8, 3#32, rfl⟩, rfl, ?_, ?_⟩
  · exact List.Perm.swap 0 1 []
  · rw [oneState_observed]; exact List.Perm.refl _

theorem oneState_isCodeTable : IsCodeTable oneState (.wrap 1 (.leaf 0 0x41#8 3#32)) := by
  refine ⟨?_, fun x k hk => ?_, fun x hx => ?_⟩
  · intro e he
    simp only [Shape.paths, List.map_cons, List.map_nil, List.mem_singleton] at he
    subst he
    rw [oneState_code, if_pos rfl, codeString_codeEntry (by decide)]
    decide
  · rw [oneState_code] at hk ⊢
    by_cases h : x = 0x41#8
    · rw [if_pos h] at hk ⊢
      rw [getMsbD_codeEntry (by decide)]
      have hk1 : 1 ≤ k := by simpa [length_codeEntry] using hk
      simp [List.getElem?_eq_none (show [false].length ≤ k from hk1)]
    · rw [if_neg h]
      simp [CodeEntry.blank, BitVec.getMsbD]
  · rw [oneState_freq] at hx
    rw [oneState_code]
    split at hx
    · cases hx
    · next h => rw [if_neg h]

theorem oneState_treeOk : TreeOk oneState := fun _ => ⟨_, oneState_isTree⟩

theorem oneState_weightedLength : weightedLength oneState = 3 := by
  have h := sum_observed oneState.freq (fun x w => w.toNat * (codeAt oneState.code x).len.toNat) (by simp)
  rw [oneState_observed] at h
  rw [weightedLength, ← h]
  simp [oneState_code, codeEntry]

theorem oneState_codesOk : CodesOk oneState :=
  fun _ => ⟨_, oneState_isTree, oneState_isCodeTable, oneState_weightedLength.symm⟩

/-- `oneState` with a memory, `n` source bytes at 0x1000 and `cap` destination bytes at 0x2000. -/
def oneIo (m : Memory) (n cap : Word) : State :=
  { oneState with mem := m, srcAddr := 0x1000#32, srcLen := n, dstAddr := 0x2000#32, dstCap := cap }

theorem oneIo_noRace (m : Memory) (n cap : Word) : NoRace (oneIo m n cap) := NoRace.of_idle rfl

theorem oneIo_codesOk (m : Memory) (n cap : Word) : CodesOk (oneIo m n cap) := oneState_codesOk

/-- A platform that refuses one range and completes the rest answers every access. -/
theorem refusing_buffersAnswered (base size : Nat) (s : State) : BuffersAnswered (answering base size .refuses .refuses s) := by
  constructor <;> intro k _
  · simp only [readAnswer, answering, List.find?_cons, List.find?_nil]
    cases Region.holds ⟨base, size, .refuses, .refuses⟩ _ <;> simp
  · simp only [writeAnswer, answering, List.find?_cons, List.find?_nil]
    cases Region.holds ⟨base, size, .refuses, .refuses⟩ _ <;> simp

/-- A busy state: NOP, two host actions away. -/
def busyState : State := busyWith 0#32 (.due 2) State.reset

theorem witness_LegalWordsAreTheEncodings :
    decode 5#32 = .ok .decode ∧ (5#32).toNat ≤ 5 ∧ ¬ (6#32).toNat ≤ 5 ∧ Instr.wf .decode = true := by decide

theorem witness_RegisterMapIsABijection :
    Reg.freq 0#8 ≠ .reserved ∧ regAt 0x400#32 = some (.freq 0#8) ∧ regAt 0x7FC#32 = some (.freq 255#8) ∧
      regAt 0x000#32 = some .id ∧ regAt 0x050#32 = some .errAddr ∧ regAt 0x2000#32 = some (.nodeWord 0#9 0#2) ∧
      regAt 0x3FEC#32 = some (.nodeWord 510#9 3#2) ∧ regAt 0x7FFC#32 = some (.codeWord 255#8 15#4) := by decide

/-- Both ranges at their two ends, their neighbours outside, and the first reserved word of a CODE entry. -/
theorem witness_ReservedWordsReadZero :
    (∀ n ∈ [0x054, 0x3FC, 0x800, 0x1FFC], regAt (BitVec.ofNat 32 n) = some .reserved ∧ n % 4 = 0 ∧
      ((0x054 ≤ n ∧ n < 0x400) ∨ (0x800 ≤ n ∧ n < 0x2000))) ∧
    (∀ n ∈ [0x050, 0x400, 0x7FC, 0x2000], ¬ regAt (BitVec.ofNat 32 n) = some .reserved) ∧
    busyState.busy = true ∧ 9 ≤ (9#4).toNat := by decide

theorem witness_BadAccessGetsErrorAndNoEffect :
    (2 ≠ 4 ∨ (0x008#32).toNat % 4 ≠ 0 ∨ 0x8000 ≤ (0x008#32).toNat) ∧
    (4 ≠ 4 ∨ (0x002#32).toNat % 4 ≠ 0 ∨ 0x8000 ≤ (0x002#32).toNat) ∧
    (4 ≠ 4 ∨ (0x8000#32).toNat % 4 ≠ 0 ∨ 0x8000 ≤ (0x8000#32).toNat) ∧
    (4 = 4 ∧ (0x7FFC#32).toNat % 4 = 0 ∧ (0x7FFC#32).toNat < 0x8000) := by decide

/-- A command that is due, and one whose delay is not over with nothing for the host to do. -/
theorem witness_StepRunsTheDecodedCommand :
    (∃ r, (busyWith 1#32 (.due 0) State.reset).engine = some r ∧ r.phase = .due 0 ∧ decode r.word = .ok .clrfreq) ∧
    (∃ r, (busyWith 5#32 (.due 3) State.reset).engine = some r ∧
      (∃ d, r.phase = .due (d + 1) ∧ (busyWith 5#32 (.due 3) State.reset).script = []) ∧
      decode r.word = .ok .decode) :=
  ⟨⟨_, rfl, rfl, rfl⟩, ⟨_, rfl, ⟨2, rfl, rfl⟩, rfl⟩⟩

theorem witness_IllegalWordRaisesIllegalCmd :
    (∃ r, (busyWith 6#32 (.due 0) State.reset).engine = some r ∧ r.phase = .due 0 ∧ 5 < r.word.toNat) ∧
    (∃ r, (busyWith 0xFFFFFFFF#32 (.due 1) State.reset).engine = some r ∧
      (∃ d, r.phase = .due (d + 1) ∧ (busyWith 0xFFFFFFFF#32 (.due 1) State.reset).script = []) ∧ 5 < r.word.toNat) :=
  ⟨⟨_, rfl, rfl, by decide⟩, ⟨_, rfl, ⟨0, rfl, rfl⟩, by decide⟩⟩

/-- The five clauses: idle without and with an action, a delay above 0, and hung with and without an action. -/
theorem witness_HostActsUntilTheCommandIsDue :
    (State.reset.engine = none ∧ State.reset.script = []) ∧
    (∃ s : State, s.engine = none ∧ s.script = .wait :: []) ∧
    (∃ s : State, ∃ r, s.engine = some r ∧ r.phase = .due (0 + 1) ∧ s.script = .resetInput :: []) ∧
    (∃ s : State, ∃ r, s.engine = some r ∧ r.phase = .hung ∧ s.script = .wait :: []) ∧
    (∃ s : State, ∃ r, s.engine = some r ∧ r.phase = .hung ∧ s.script = []) :=
  ⟨⟨rfl, rfl⟩, ⟨{ State.reset with script := [.wait] }, rfl, rfl⟩,
    ⟨{ busyWith 4#32 (.due 1) State.reset with script := [.resetInput] }, _, rfl, rfl, rfl⟩,
    ⟨{ busyWith 4#32 .hung State.reset with script := [.wait] }, _, rfl, rfl, rfl⟩,
    ⟨busyWith 4#32 .hung State.reset, _, rfl, rfl, rfl⟩⟩

theorem witness_CmdWriteWhileIdleIsAccepted : State.reset.busy = false := rfl

/-- A source of one byte, which the platform refuses. -/
theorem witness_WaitEndsAtCompletion :
    ∃ s : State, ∃ r, BuffersAnswered s ∧ s.engine = some r ∧ r.phase = .due 3 ∧ s.script = .wait :: [.resetInput] ∧
      0 < s.srcLen.toNat :=
  ⟨answering 0x1000 1 .refuses .refuses
      { busyWith 4#32 (.due 3) (oneIo [] 1#32 1#32) with script := [.wait, .resetInput] },
    _, refusing_buffersAnswered _ _ _, rfl, rfl, rfl, by decide⟩

theorem witness_BusyWritesAreDiscarded : busyState.busy = true ∧ (Reg.freq 0#8 = .cmd ∨ Reg.freq 0#8 = .srcAddr ∨
    Reg.freq 0#8 = .srcLen ∨ Reg.freq 0#8 = .dstAddr ∨ Reg.freq 0#8 = .dstCap ∨ ∃ i, Reg.freq 0#8 = .freq i) :=
  ⟨rfl, .inr (.inr (.inr (.inr (.inr ⟨_, rfl⟩))))⟩

theorem witness_FreqWriteStoresAndInvalidates : oneState.busy = false ∧ (0x42#8 : Byte) ≠ 0x41#8 := ⟨rfl, by decide⟩

/-- SRST alone, SRST with IE, IE alone; a read-only word. -/
theorem witness_RegisterWriteEffects :
    State.reset.busy = false ∧ (2#32).getLsbD 1 = true ∧ (3#32).getLsbD 1 = true ∧ (1#32).getLsbD 1 = false ∧
    (Reg.id ≠ .ctrl ∧ Reg.id ≠ .status ∧ Reg.id ≠ .cmd ∧ Reg.id ≠ .srcAddr ∧ Reg.id ≠ .srcLen ∧ Reg.id ≠ .dstAddr ∧
      Reg.id ≠ .dstCap ∧ ∀ i, Reg.id ≠ .freq i) := by
  refine ⟨rfl, by decide, by decide, by decide, ?_⟩
  simp

/-- Idle; CLRFREQ under way with both flags set; NOP and an illegal word under way. -/
theorem witness_StatusBits :
    (State.reset.busy = false ∧ 6 ≤ 6) ∧
    (∃ r t, (busyWith 1#32 (.due 1) oneState).engine = some r ∧ decode r.word = .ok .clrfreq ∧
      exec .clrfreq (busyWith 1#32 (.due 1) oneState) = .next t ∧ oneState.treeValid = true ∧ t.treeValid = false) ∧
    (∃ r, (busyWith 0#32 (.due 1) oneState).engine = some r ∧ decode r.word = .ok .nop) ∧
    (∃ r, (busyWith 6#32 (.due 1) oneState).engine = some r ∧ ∀ i, decode r.word ≠ .ok i) :=
  ⟨⟨rfl, by decide⟩, ⟨_, _, rfl, rfl, rfl, rfl, rfl⟩, ⟨_, rfl, rfl⟩, ⟨_, rfl, fun i h => by cases h⟩⟩

theorem witness_DefinedReadsWhileBusy :
    State.reset.busy = false ∧ busyState.busy = true ∧ (∃ r, (busyWith 1#32 (.due 0) oneState).engine = some r ∧ r.word = 0x00000001#32) :=
  ⟨rfl, rfl, _, rfl, rfl⟩

/-- No tree; a tree of two nodes, at its last index and at the first index past it. -/
theorem witness_NodeWindowShowsTheArena :
    (State.reset.busy = false ∧ State.reset.treeValid = false) ∧
    (oneState.busy = false ∧ oneState.treeValid = true ∧ (1#9).toNat < oneState.nodeCount.toNat ∧
      oneState.nodeCount.toNat ≤ (2#9).toNat) := by decide

theorem witness_CodeWindowShowsTheTable :
    (State.reset.busy = false ∧ State.reset.codesValid = false) ∧
    (oneState.busy = false ∧ oneState.codesValid = true ∧ 255 < 256) := by decide

theorem witness_ResultRegistersRead : oneState.busy = false := rfl

theorem witness_InterruptRisesAndFalls :
    ((1#32).getLsbD 1 = false ∧ (1#32).getLsbD 0 = true) ∧ ((0#32).getLsbD 1 = false ∧ (0#32).getLsbD 0 = false) ∧
    (0x22#32).getLsbD 1 = true ∧ (0x20#32).getLsbD 1 = false := by decide

theorem witness_SoftResetAppliesResetValues :
    (2#32).getLsbD 1 = true ∧ (0xFFFFFFFF#32).getLsbD 1 = true ∧ codecRunning busyState = false := by decide

/-- An ENCODE under way whose last write, to the first of two bytes of room, is never answered. -/
def silentAbort : State :=
  busyWith 4#32 (.due 2) (answering 0x2000 1 .completes .silent (oneIo [(0x1000, 0x41#8), (0x2001, 0x77#8)] 1#32 2#32))

/-- By hand, from 70_reset_and_hazards.md R237 and row 11: it would write one byte, so the one behind keeps its value. -/
theorem test_abort_at_unanswered_write : abortCount silentAbort = 1 := by decide +kernel

/-- The byte before a destination range and the byte behind it; an ENCODE that would write one byte into room of two, with the
last byte of the room; and the same where that write is never answered. -/
theorem witness_AbortWritesOnlyTheDestination :
    (¬ inSpan 0x2000#32 16 0x1FFF ∧ ¬ inSpan 0x2000#32 16 0x2010 ∧ inSpan 0x2000#32 16 0x200F) ∧
    (∃ r t, (busyWith 4#32 (.due 2) (oneIo [(0x1000, 0x41#8)] 1#32 2#32)).engine = some r ∧ decode r.word = .ok .encode ∧
      exec .encode (busyWith 4#32 (.due 2) (oneIo [(0x1000, 0x41#8)] 1#32 2#32)) = .next t ∧ t.engine = none ∧
      ¬ inSpan 0x2000#32 t.outLen.toNat 0x2001) ∧
    (∃ r, silentAbort.engine = some r ∧ decode r.word = .ok .encode) ∧
    (∃ t, exec .encode (answeredState silentAbort) = .next t ∧ t.engine = none ∧ t.outLen = 1#32) ∧
    codecRunning busyState = false := by
  refine ⟨by unfold inSpan; decide, ?_, ⟨_, rfl, rfl⟩, ?_, by decide⟩
  swap
  · simpa using nextIs_spec (o := exec .encode (answeredState silentAbort)) (p := fun t => t.engine == none && t.outLen == 1#32)
      (by decide +kernel)
  obtain ⟨t, ht, h⟩ := nextIs_spec (o := exec .encode (busyWith 4#32 (.due 2) (oneIo [(0x1000, 0x41#8)] 1#32 2#32)))
    (p := fun t => t.engine == none && t.outLen == 1#32) (by decide +kernel)
  simp only [Bool.and_eq_true, beq_iff_eq] at h
  exact ⟨_, t, rfl, rfl, ht, h.1, by rw [h.2]; unfold inSpan; decide⟩

theorem witness_BuildOfEmptyTableRaises : ∀ i, freqAt State.reset.freq i = 0#32 := freqAt_replicate

/-- A table of two symbols. -/
def twoFreq : Vector Word 256 := oneState.freq.setIfInBounds (0x42#8).toNat 1#32

theorem twoFreq_at (x : Byte) : freqAt twoFreq x = if x = 0x42#8 then 1#32 else if x = 0x41#8 then 3#32 else 0#32 := by
  rw [twoFreq]
  split
  · next h => rw [h]; exact freqAt_set_same _ _ _
  · next h => rw [freqAt_set_other _ _ h, oneState_freq]

/-- One symbol, and two. -/
theorem witness_BuildCompletes :
    (∃ i, freqAt oneState.freq i ≠ 0#32) ∧
    (allSymbols.filter (fun x => !(freqAt oneState.freq x == 0#32))).length = 1 ∧
    (∃ i, freqAt twoFreq i ≠ 0#32) ∧
    2 ≤ (allSymbols.filter (fun x => !(freqAt twoFreq x == 0#32))).length := by
  refine ⟨⟨0x41#8, by rw [oneState_freq]; decide⟩, ?_, ⟨0x42#8, by rw [twoFreq_at]; decide⟩, ?_⟩
  · simp only [oneState_freq]; decide +kernel
  · simp only [twoFreq_at]; decide +kernel

/-- Two live nodes merge, in either order of the list; one does not. A table of two symbols makes node 2; and of three leaves, all
are live before node 3. -/
theorem witness_MergeTakesTheTwoLeast :
    mergeOnce { nodes := [leafNode (0#8, 2#32), leafNode (1#8, 2#32)], live := [⟨2#64, 1⟩, ⟨2#64, 0⟩] } =
      some { nodes := [leafNode (0#8, 2#32), leafNode (1#8, 2#32), internalNode 0#9 1#9 4#64], live := [⟨4#64, 2⟩] } ∧
    mergeOnce { nodes := [leafNode (0#8, 2#32)], live := [⟨2#64, 0⟩] } = none ∧
    (allSymbols.filter (fun x => !(freqAt twoFreq x == 0#32))).length = 2 ∧
    (∃ t, exec .build { oneState with freq := twoFreq } = .next t ∧ 2 < t.nodeCount.toNat) ∧
    ∀ t : State, ∀ k ∈ [0, 1, 2], LiveBefore t 3 3 k := by
  refine ⟨by decide, by decide, ?_, ?_, fun t k hk => ⟨?_, fun j h1 h2 => absurd h2 (by omega)⟩⟩
  · simp only [twoFreq_at]; decide +kernel
  · simpa using nextIs_spec (o := exec .build { oneState with freq := twoFreq })
      (p := fun t => decide (2 < t.nodeCount.toNat)) (by decide +kernel)
  · have : ∀ k ∈ [0, 1, 2], k < 3 := by decide
    exact this k hk

theorem witness_SingleSymbolIsWrapped :
    freqAt oneState.freq 0x41#8 ≠ 0#32 ∧ ∀ y, y ≠ 0x41#8 → freqAt oneState.freq y = 0#32 :=
  ⟨by rw [oneState_freq]; decide, fun y hy => by rw [oneState_freq, if_neg hy]⟩

theorem witness_BuildMakesTheTree : ∃ i, freqAt oneState.freq i ≠ 0#32 := ⟨0x41#8, by rw [oneState_freq]; decide⟩

/-- Two states with one table and different arenas. -/
theorem witness_BuildDependsOnFrequenciesOnly :
    (∀ i, freqAt oneState.freq i = freqAt ({ State.reset with freq := oneState.freq } : State).freq i) ∧
    ∃ i : NodeIdx, i.toNat < oneState.nodeCount.toNat ∧ nodeAt oneState.node i ≠ nodeAt State.reset.node i :=
  ⟨fun _ => rfl, 1#9, by decide, by rw [oneState_node1]; decide +kernel⟩

theorem witness_GencodeWithoutTreeRaises : State.reset.treeValid = false := rfl

theorem witness_GencodeCompletes : oneState.treeValid = true := rfl

theorem witness_GencodeAssignsThePaths :
    oneState.treeValid = true ∧ IsTree oneState (.wrap 1 (.leaf 0 0x41#8 3#32)) := ⟨rfl, oneState_isTree⟩

theorem witness_CodesFormAPrefixCode : CodesOk oneState ∧ oneState.codesValid = true ∧
    1 ≤ (codeAt oneState.code 0x41#8).len.toNat ∧ freqAt oneState.freq 0x42#8 = 0#32 :=
  ⟨oneState_codesOk, rfl, by rw [oneState_code]; decide, by rw [oneState_freq]; decide⟩

/-- The four prechecks, with buffers at the edges of the address space and of each other, and a command that each ends. -/
theorem witness_PrecheckErrorsInOrder :
    State.reset.codesValid = false ∧
    (oneState.codesValid = true ∧ ¬ ((0xFFFFFFFF#32).toNat + (2#32).toNat ≤ 2 ^ 32 ∧ (0#32).toNat + (0#32).toNat ≤ 2 ^ 32) ∧
      ((0xFFFFFFFF#32).toNat + (1#32).toNat ≤ 2 ^ 32)) ∧
    (0 < 2 ∧ 0 < 1 ∧ (0x1000#32).toNat < (0x1001#32).toNat + 1 ∧ (0x1001#32).toNat < (0x1000#32).toNat + 2) ∧
    ¬ ((0x1002#32).toNat < (0x1000#32).toNat + 2) ∧
    (oneIo [] 0#32 0#32).srcLen.toNat < ceilDiv (oneIo [] 0#32 0#32).tbits.toNat 8 ∧
    (∃ t, exec .encode State.reset = .next t ∧ t.engine = none ∧ t.errcode = 0x05#8) ∧
    (∃ t, exec .encode { oneIo [] 2#32 0#32 with srcAddr := 0xFFFFFFFF#32 } = .next t ∧ t.engine = none ∧ t.errcode = 0x0B#8) ∧
    (∃ t, exec .decode { oneIo [] 2#32 1#32 with dstAddr := 0x1001#32 } = .next t ∧ t.engine = none ∧ t.errcode = 0x0C#8) ∧
    (∃ t, exec .decode (oneIo [] 0#32 0#32) = .next t ∧ t.engine = none ∧ t.errcode = 0x02#8) := by
  refine ⟨rfl, by decide, by decide, by decide, by decide, ⟨_, rfl, rfl, rfl⟩, ?_, ?_, ?_⟩
  · simpa using nextIs_spec (p := fun t => t.engine == none && t.errcode == 0x0B#8) (by decide +kernel)
  · simpa using nextIs_spec (p := fun t => t.engine == none && t.errcode == 0x0C#8) (by decide +kernel)
  · simpa using nextIs_spec (p := fun t => t.engine == none && t.errcode == 0x02#8) (by decide +kernel)

/-- One byte, whose code is "0", into one byte of room. -/
theorem witness_EncodePacksTheCodes :
    let s := oneIo [(0x1000, 0x41#8)] 1#32 1#32
    MemoryOk s ∧ NoRace s ∧ s.codesValid = true ∧ ReadsComplete s s.srcAddr s.srcLen.toNat ∧
    WritesComplete s s.dstAddr (ceilDiv (codeStream s (sourceBytes s)).length 8) ∧
    inRange s.srcAddr s.srcLen = true ∧ inRange s.dstAddr s.dstCap = true ∧
    overlaps s.srcAddr s.srcLen s.dstAddr s.dstCap = false ∧
    (∀ b ∈ sourceBytes s, (codeAt s.code b).len ≠ 0#8) ∧
    ceilDiv (codeStream s (sourceBytes s)).length 8 ≤ s.dstCap.toNat := by
  have hb : sourceBytes (oneIo [(0x1000, 0x41#8)] 1#32 1#32) = [0x41#8] := by decide
  refine ⟨by unfold MemoryOk; decide, oneIo_noRace _ _ _, rfl, fun _ _ => rfl, fun _ _ => rfl, by decide, by decide,
    by decide, ?_, ?_⟩
  · rw [hb]
    intro b h
    rw [List.mem_singleton] at h
    show (codeAt oneState.code b).len ≠ 0#8
    rw [oneState_code, if_pos h]
    decide
  · rw [hb]
    show ceilDiv (codeStream oneState [0x41#8]).length 8 ≤ 1
    simp only [codeStream, List.flatMap_cons, List.flatMap_nil, oneState_code, if_true, codeString_codeEntry (p := [false]) (by decide)]
    decide

/-- An empty source at the last address, whatever the platform does. -/
theorem witness_EncodeOfEmptySourceFinishes :
    let s := answering 0 0x10000 .silent .refuses (oneIo [] 0#32 0#32)
    s.codesValid = true ∧ s.srcLen = 0#32 ∧ inRange s.dstAddr s.dstCap = true := ⟨rfl, rfl, by decide⟩

/-- A byte without a code; no room for the byte of padding; success; no room after eight of nine bytes, by hand from R155; a refused
read of the second byte; and a refused write. -/
theorem witness_EncodeErrorPoints :
    (∃ t, exec .encode (oneIo [(0x1000, 0x42#8)] 1#32 1#32) = .next t ∧ t.engine = none ∧ t.errcode = 0x06#8) ∧
    (∃ t, exec .encode (oneIo [(0x1000, 0x41#8)] 1#32 0#32) = .next t ∧ t.engine = none ∧ t.errcode = 0x07#8) ∧
    (∃ t, exec .encode (oneIo [(0x1000, 0x41#8)] 1#32 1#32) = .next t ∧ t.engine = none ∧ t.errcode = 0#8 ∧ t.outLen = 1#32) ∧
    (∃ t, exec .encode (oneIo ((List.range 9).map (fun k => (0x1000 + k, 0x41#8))) 9#32 0#32) = .next t ∧ t.engine = none ∧
      t.errcode = 0x07#8 ∧ t.inCount = 8#32 ∧ t.bits = 8#64) ∧
    (∃ t, exec .encode (answering 0x1001 1 .refuses .completes (oneIo [(0x1000, 0x41#8)] 2#32 1#32)) = .next t ∧
      t.engine = none ∧ t.errcode = 0x0D#8 ∧ inBuffer 0x1000#32 2#32 t.errAddr = true ∧ t.inCount = 1#32) ∧
    (∃ t, exec .encode (answering 0x2000 1 .completes .refuses (oneIo [(0x1000, 0x41#8)] 1#32 1#32)) = .next t ∧
      t.engine = none ∧ t.errcode = 0x0D#8 ∧ inBuffer 0x2000#32 1#32 t.errAddr = true) ∧
    MemoryOk (oneIo [(0x1000, 0x41#8)] 1#32 1#32) ∧ ∀ m n cap, NoRace (oneIo m n cap) := by
  refine ⟨?_, ?_, ?_, ?_, ?_, ?_, by unfold MemoryOk; decide, oneIo_noRace⟩
  · simpa using nextIs_spec (p := fun t => t.engine == none && t.errcode == 0x06#8) (by decide +kernel)
  · simpa using nextIs_spec (p := fun t => t.engine == none && t.errcode == 0x07#8) (by decide +kernel)
  · simpa using nextIs_spec (p := fun t => t.engine == none && (t.errcode == 0#8 && t.outLen == 1#32)) (by decide +kernel)
  · simpa using nextIs_spec (p := fun t => t.engine == none && (t.errcode == 0x07#8 && (t.inCount == 8#32 && t.bits == 8#64)))
      (by decide +kernel)
  · simpa using nextIs_spec (p := fun t => t.engine == none && (t.errcode == 0x0D#8 &&
      (inBuffer 0x1000#32 2#32 t.errAddr && t.inCount == 1#32))) (by decide +kernel)
  · simpa using nextIs_spec (p := fun t => t.engine == none && (t.errcode == 0x0D#8 && inBuffer 0x2000#32 1#32 t.errAddr))
      (by decide +kernel)

/-- Three symbols from one source byte into three bytes of room. -/
theorem witness_DecodeReadsTheCodes :
    let s := oneIo [] 1#32 3#32
    let x : List Byte := [0x41#8, 0x41#8, 0x41#8]
    MemoryOk s ∧ CodesOk s ∧ NoRace s ∧ s.codesValid = true ∧
    ReadsComplete s s.srcAddr (ceilDiv s.tbits.toNat 8) ∧ WritesComplete s s.dstAddr x.length ∧
    inRange s.srcAddr s.srcLen = true ∧ inRange s.dstAddr s.dstCap = true ∧
    overlaps s.srcAddr s.srcLen s.dstAddr s.dstCap = false ∧
    (∀ b ∈ x, freqAt s.freq b ≠ 0#32) ∧ x.length = s.total.toNat ∧ x.length ≤ s.dstCap.toNat ∧
    (codeStream s x).length = s.tbits.toNat ∧ ceilDiv s.tbits.toNat 8 ≤ s.srcLen.toNat ∧
    (∀ j, j < s.tbits.toNat → bitOf (sourceBytes s) j = (codeStream s x).getD j false) := by
  have hc : codeStream (oneIo [] 1#32 3#32) [0x41#8, 0x41#8, 0x41#8] = [false, false, false] := by
    show codeStream oneState [0x41#8, 0x41#8, 0x41#8] = [false, false, false]
    simp only [codeStream, List.flatMap_cons, List.flatMap_nil, oneState_code, if_true, codeString_codeEntry (p := [false]) (by decide)]
    decide
  refine ⟨rfl, oneIo_codesOk _ _ _, oneIo_noRace _ _ _, rfl, fun _ _ => rfl, fun _ _ => rfl, by decide, by decide, by decide,
    ?_, by decide, by decide, by rw [hc]; decide, by decide, ?_⟩
  · intro b hb
    have h : b = 0x41#8 := by simpa using hb
    show freqAt oneState.freq b ≠ 0#32
    rw [oneState_freq, if_pos h]
    decide
  · rw [hc]
    decide

/-- A tree of three leaves, whose root has an internal left child, and one bit to read. -/
def forkState : State :=
  { oneIo [] 1#32 3#32 with
    tbits := 1#64
    root := 4#9
    nodeCount := 5#10
    node := writeArena 0
      [leafNode (1#8, 1#32), leafNode (2#8, 1#32), leafNode (3#8, 3#32), internalNode 0#9 1#9 2#64, internalNode 3#9 2#9 5#64]
      (Vector.replicate 511 Node.blank) }

/-- A source whose first 1 bit stands at `j`, with room for `j` bytes, for the table of one symbol. -/
def FirstOneAt (s : State) (j : Nat) : Prop :=
  CodesOk s ∧ NoRace s ∧ s.codesValid = true ∧
  inRange s.srcAddr s.srcLen = true ∧ inRange s.dstAddr s.dstCap = true ∧
  overlaps s.srcAddr s.srcLen s.dstAddr s.dstCap = false ∧ ceilDiv s.tbits.toNat 8 ≤ s.srcLen.toNat ∧
  freqAt s.freq 0x41#8 ≠ 0#32 ∧ (∀ y, y ≠ 0x41#8 → freqAt s.freq y = 0#32) ∧
  j < s.tbits.toNat ∧ bitOf (sourceBytes s) j = true ∧ (∀ i, i < j → bitOf (sourceBytes s) i = false) ∧
  j ≤ s.dstCap.toNat ∧ ReadsComplete s s.srcAddr (j / 8 + 1) ∧ WritesComplete s s.dstAddr j

/-- Each stream error of DECODE, a refused read and a refused write, and its success; the first 1 bit at either end of the stream. -/
theorem witness_DecodeErrorPoints :
    (∃ t, exec .decode (oneIo [] 1#32 0#32) = .next t ∧ t.engine = none ∧ t.errcode = 0x07#8) ∧
    (∃ t, exec .decode (oneIo [(0x1000, 0x80#8)] 1#32 3#32) = .next t ∧ t.engine = none ∧ t.errcode = 0x08#8) ∧
    (TreeOk (oneIo [(0x1000, 0x80#8)] 1#32 3#32) ∧ (oneIo [(0x1000, 0x80#8)] 1#32 3#32).treeValid = true ∧
      NoRace (oneIo [(0x1000, 0x80#8)] 1#32 3#32)) ∧
    (∃ t, exec .decode forkState = .next t ∧ t.engine = none ∧ t.errcode = 0x09#8) ∧
    (∃ t, exec .decode { oneIo [] 1#32 3#32 with total := 5#64 } = .next t ∧ t.engine = none ∧ t.errcode = 0x0A#8) ∧
    (∃ t, exec .decode (oneIo [] 1#32 3#32) = .next t ∧ t.engine = none ∧ t.errcode = 0#8) ∧
    (∃ t, exec .decode (answering 0x1000 1 .refuses .completes (oneIo [] 1#32 3#32)) = .next t ∧ t.engine = none ∧
      t.errcode = 0x0D#8 ∧ inBuffer 0x1000#32 1#32 t.errAddr = true) ∧
    (∃ t, exec .decode (answering 0x2001 1 .completes .refuses (oneIo [] 1#32 3#32)) = .next t ∧ t.engine = none ∧
      t.errcode = 0x0D#8 ∧ inBuffer 0x2000#32 3#32 t.errAddr = true) ∧
    (MemoryOk (oneIo [] 1#32 3#32) ∧ CodesOk (oneIo [] 1#32 3#32) ∧ NoRace (oneIo [] 1#32 3#32) ∧
      (oneIo [] 1#32 3#32).codesValid = true) ∧
    FirstOneAt (oneIo [(0x1000, 0x80#8)] 1#32 0#32) 0 ∧ FirstOneAt (oneIo [(0x1000, 0x20#8)] 1#32 2#32) 2 := by
  have hfreq : ∀ y, y ≠ 0x41#8 → freqAt oneState.freq y = 0#32 := fun y hy => by rw [oneState_freq, if_neg hy]
  have hsym : freqAt oneState.freq 0x41#8 ≠ 0#32 := by rw [oneState_freq]; decide
  refine ⟨?_, ?_, ⟨oneState_treeOk, rfl, oneIo_noRace _ _ _⟩, ?_, ?_, ?_, ?_, ?_, ⟨rfl, oneIo_codesOk _ _ _, oneIo_noRace _ _ _, rfl⟩,
    ⟨oneIo_codesOk _ _ _, oneIo_noRace _ _ _, rfl, by decide, by decide, by decide, by decide, hsym, hfreq, by decide, by decide,
      by decide, by decide, fun _ _ => rfl, fun _ _ => rfl⟩,
    ⟨oneIo_codesOk _ _ _, oneIo_noRace _ _ _, rfl, by decide, by decide, by decide, by decide, hsym, hfreq, by decide, by decide,
      by decide, by decide, fun _ _ => rfl, fun _ _ => rfl⟩⟩
  · simpa using nextIs_spec (p := fun t => t.engine == none && t.errcode == 0x07#8) (by decide +kernel)
  · simpa using nextIs_spec (p := fun t => t.engine == none && t.errcode == 0x08#8) (by decide +kernel)
  · simpa using nextIs_spec (p := fun t => t.engine == none && t.errcode == 0x09#8) (by decide +kernel)
  · simpa using nextIs_spec (p := fun t => t.engine == none && t.errcode == 0x0A#8) (by decide +kernel)
  · simpa using nextIs_spec (p := fun t => t.engine == none && t.errcode == 0#8) (by decide +kernel)
  · simpa using nextIs_spec (p := fun t => t.engine == none && (t.errcode == 0x0D#8 && inBuffer 0x1000#32 1#32 t.errAddr))
      (by decide +kernel)
  · simpa using nextIs_spec (p := fun t => t.engine == none && (t.errcode == 0x0D#8 && inBuffer 0x2000#32 3#32 t.errAddr))
      (by decide +kernel)

/-- Two sources that differ in the five pad bits and in the byte behind. -/
theorem witness_DecodeIgnoresPadAndTrailingBytes :
    let s := oneIo [] 2#32 3#32
    let m : Memory := [(0x1000, 0x1F#8), (0x1001, 0xFF#8)]
    MemoryOk s ∧ m.wf = true ∧ NoRace s ∧
    (∀ j, j < s.tbits.toNat → streamBit (s.mem.read (s.srcAddr.toNat + j / 8)) j =
      streamBit (m.read (s.srcAddr.toNat + j / 8)) j) ∧
    ∃ t, exec .decode s = .next t ∧ t.engine = none := by
  refine ⟨rfl, rfl, oneIo_noRace _ _ _, by decide, ?_⟩
  simpa using nextIs_spec (p := fun t => t.engine == none) (by decide +kernel)

/-- ENCODE with a source that is never answered, and DECODE with a destination that is not. -/
def silentIo : State := answering 0x1000 1 .silent .silent (oneIo [(0x1000, 0x41#8)] 1#32 1#32)
def silentOut : State := answering 0x2000 1 .silent .silent (oneIo [] 1#32 3#32)

theorem silentIo_hangs : ∃ t, exec .encode silentIo = .next t ∧ t.engine ≠ none := by
  obtain ⟨t, ht, h⟩ := nextIs_spec (o := exec .encode silentIo) (p := fun t => t.engine.isSome) (by decide +kernel)
  exact ⟨t, ht, Option.isSome_iff_ne_none.mp h⟩

theorem silentOut_hangs : ∃ t, exec .decode silentOut = .next t ∧ t.engine ≠ none := by
  obtain ⟨t, ht, h⟩ := nextIs_spec (o := exec .decode silentOut) (p := fun t => t.engine.isSome) (by decide +kernel)
  exact ⟨t, ht, Option.isSome_iff_ne_none.mp h⟩

theorem oneIo_decodes : ∃ t, exec .decode (oneIo [] 1#32 3#32) = .next t ∧ t.engine = none := by
  simpa using nextIs_spec (p := fun t => t.engine == none) (by decide +kernel)

theorem witness_CodecFrame :
    (∃ t, exec .decode (oneIo [] 1#32 3#32) = .next t ∧ t.engine = none) ∧
    (∃ t, exec .encode silentIo = .next t ∧ t.engine ≠ none) ∧ (∃ t, exec .decode silentOut = .next t ∧ t.engine ≠ none) :=
  ⟨oneIo_decodes, silentIo_hangs, silentOut_hangs⟩

/-- The prechecks pass, both commands have something to read, and the platform answers the first source byte with `a`. -/
theorem firstByte (a : Answer) :
    let s := answering 0x1000 1 a .completes (oneIo [] 1#32 1#32)
    s.codesValid = true ∧ inRange s.srcAddr s.srcLen = true ∧ inRange s.dstAddr s.dstCap = true ∧
    overlaps s.srcAddr s.srcLen s.dstAddr s.dstCap = false ∧ readAnswer s s.srcAddr = a ∧ 0 < s.srcLen.toNat ∧
    0 < s.tbits.toNat ∧ ceilDiv s.tbits.toNat 8 ≤ s.srcLen.toNat := by
  cases a <;> decide

/-- What `FirstStop` asks of the command's end on the platform that refuses `a` alone, as a check. -/
def stopsAt (i : Instr) (s : State) (a : Word) (ans : Answer) : Bool :=
  nextIs (exec i { s with platform := [{ base := a.toNat, size := 1, onRead := .refuses, onWrite := .refuses }] }) (fun u =>
    u.errcode == 0x0D#8 &&
    ((List.range u.outLen.toNat).all (fun k => writeAnswer s (s.dstAddr + BitVec.ofNat 32 k) == .completes) &&
    (if inBuffer s.srcAddr s.srcLen a then
      (List.range u.inCount.toNat).all (fun k => readAnswer s (s.srcAddr + BitVec.ofNat 32 k) == .completes) &&
        readAnswer s a == ans
    else
      (List.range (if i = .encode then u.inCount.toNat else u.bits.toNat / 8 + 1)).all
        (fun k => readAnswer s (s.srcAddr + BitVec.ofNat 32 k) == .completes) && writeAnswer s a == ans)))

theorem stopsAt_spec {i : Instr} {s : State} {a : Word} {ans : Answer} (h : stopsAt i s a ans = true) :
    ∃ u, FirstStop i s u a ans := by
  obtain ⟨u, hu, h⟩ := nextIs_spec h
  refine ⟨u, hu, ?_⟩
  simp only [Bool.and_eq_true, List.all_eq_true, List.mem_range, beq_iff_eq] at h
  refine ⟨h.1, h.2.1, ?_⟩
  split at h <;> simp_all [ReadsComplete]

/-- A source byte that is not the first, the byte of padding, a symbol that is not the first, and a source byte of DECODE that is not
the first, with an access behind it that is not answered either. -/
theorem laterAccess (ans : Answer) :
    (∃ s u, FirstStop .encode s u 0x1001#32 ans) ∧ (∃ s u, FirstStop .encode s u 0x2000#32 ans) ∧
    (∃ s u, FirstStop .decode s u 0x2001#32 ans) ∧ (∃ s u, FirstStop .decode s u 0x1001#32 ans) := by
  refine ⟨⟨answering 0x1001 1 ans .completes (oneIo [(0x1000, 0x41#8), (0x1001, 0x41#8)] 2#32 1#32), stopsAt_spec ?_⟩,
    ⟨answering 0x2000 1 .completes ans (oneIo [(0x1000, 0x41#8)] 1#32 1#32), stopsAt_spec ?_⟩,
    ⟨answering 0x2001 1 .completes ans (oneIo [] 1#32 3#32), stopsAt_spec ?_⟩,
    ⟨{ answering 0x1001 1 ans .completes (oneIo [] 2#32 9#32) with
        tbits := 9#64
        platform := [⟨0x1001, 1, ans, .completes⟩, ⟨0x2008, 1, .silent, .silent⟩] }, stopsAt_spec ?_⟩⟩ <;>
    cases ans <;> decide +kernel

/-- No refused access; each of the three kinds; a later access that is refused; and a refused first byte. -/
theorem witness_BusErrorRecordsTheAddress :
    (∃ t, exec .decode (oneIo [] 1#32 3#32) = .next t ∧ t.engine = none ∧ t.errcode ≠ 0x0D#8) ∧
    (∃ t, exec .encode (answering 0x1000 1 .refuses .completes (oneIo [] 1#32 1#32)) = .next t ∧ t.engine = none ∧
      t.errcode = 0x0D#8) ∧
    (∃ t, exec .decode (answering 0x1000 1 .refuses .completes (oneIo [] 1#32 3#32)) = .next t ∧ t.engine = none ∧
      t.errcode = 0x0D#8) ∧
    (∃ t, exec .decode (answering 0x2000 1 .completes .refuses (oneIo [] 1#32 3#32)) = .next t ∧ t.engine = none ∧
      t.errcode = 0x0D#8) ∧
    ((∃ s u, FirstStop .encode s u 0x1001#32 .refuses) ∧ (∃ s u, FirstStop .encode s u 0x2000#32 .refuses) ∧
      (∃ s u, FirstStop .decode s u 0x2001#32 .refuses) ∧ (∃ s u, FirstStop .decode s u 0x1001#32 .refuses)) ∧
    ∃ s : State, s.codesValid = true ∧ inRange s.srcAddr s.srcLen = true ∧ inRange s.dstAddr s.dstCap = true ∧
      overlaps s.srcAddr s.srcLen s.dstAddr s.dstCap = false ∧ readAnswer s s.srcAddr = .refuses ∧ 0 < s.srcLen.toNat ∧
      0 < s.tbits.toNat ∧ ceilDiv s.tbits.toNat 8 ≤ s.srcLen.toNat := by
  refine ⟨?_, ?_, ?_, ?_, laterAccess .refuses, _, firstByte .refuses⟩
  · simpa using nextIs_spec (p := fun t => t.engine == none && !(t.errcode == 0x0D#8)) (by decide +kernel)
  · simpa using nextIs_spec (p := fun t => t.engine == none && t.errcode == 0x0D#8) (by decide +kernel)
  · simpa using nextIs_spec (p := fun t => t.engine == none && t.errcode == 0x0D#8) (by decide +kernel)
  · simpa using nextIs_spec (p := fun t => t.engine == none && t.errcode == 0x0D#8) (by decide +kernel)

theorem reset_encodes : ∃ t, exec .encode State.reset = .next t ∧ t.engine = none := ⟨_, rfl, rfl⟩

/-- Each command completes somewhere. -/
theorem witness_ErrorCodesOfEachCommand :
    (∃ t, exec .nop oneState = .next t ∧ t.engine = none) ∧ (∃ t, exec .clrfreq oneState = .next t ∧ t.engine = none) ∧
    (∃ t, exec .build oneState = .next t ∧ t.engine = none) ∧ (∃ t, exec .gencode oneState = .next t ∧ t.engine = none) ∧
    (∃ t, exec .encode State.reset = .next t ∧ t.engine = none) ∧
    (∃ t, exec .decode (oneIo [] 1#32 3#32) = .next t ∧ t.engine = none) := by
  refine ⟨⟨_, rfl, rfl⟩, ⟨_, rfl, rfl⟩, ?_, ⟨_, rfl, rfl⟩, reset_encodes, oneIo_decodes⟩
  simpa using nextIs_spec (p := fun t => t.engine == none) (by decide +kernel)

/-- Two buffers of one byte, both refused. -/
theorem witness_EveryCommandCompletes :
    ∃ s : State, BuffersAnswered s ∧ 0 < s.srcLen.toNat ∧ 0 < s.dstCap.toNat :=
  ⟨answering 0x1000 0x1001 .refuses .refuses (oneIo [] 1#32 1#32), refusing_buffersAnswered _ _ _, by decide, by decide⟩

/-- A hung engine and a reset by the input and by CTRL.SRST, and a power cycle; a later access and a first byte that are never
answered. -/
theorem witness_OnlyResetEndsAnUnansweredCommand :
    (∃ t, exec .encode silentIo = .next t ∧ t.engine ≠ none) ∧
    (∀ a, a = .resetInput ∨ a = .powerCycle ∨ a = .write 4 0x004#32 2#32 →
      ∃ s : State, ∃ r t, s.script = [a] ∧ s.engine = some r ∧ r.phase = .hung ∧ step s = .next t ∧ t.engine = none) ∧
    ((∃ s u, FirstStop .encode s u 0x1001#32 .silent) ∧ (∃ s u, FirstStop .encode s u 0x2000#32 .silent) ∧
      (∃ s u, FirstStop .decode s u 0x2001#32 .silent) ∧ (∃ s u, FirstStop .decode s u 0x1001#32 .silent)) ∧
    ∃ s : State, s.codesValid = true ∧ inRange s.srcAddr s.srcLen = true ∧ inRange s.dstAddr s.dstCap = true ∧
      overlaps s.srcAddr s.srcLen s.dstAddr s.dstCap = false ∧ readAnswer s s.srcAddr = .silent ∧ 0 < s.srcLen.toNat ∧
      0 < s.tbits.toNat ∧ ceilDiv s.tbits.toNat 8 ≤ s.srcLen.toNat := by
  refine ⟨silentIo_hangs, fun a ha => ?_, laterAccess .silent, _, firstByte .silent⟩
  refine ⟨{ busyWith 0#32 .hung State.reset with script := [a] }, ⟨0#32, .hung, []⟩, ?_⟩
  rcases ha with rfl | rfl | rfl
  · exact ⟨_, rfl, rfl, rfl, rfl, rfl⟩
  · exact ⟨_, rfl, rfl, rfl, rfl, rfl⟩
  · exact ⟨_, rfl, rfl, rfl, rfl, rfl⟩

/-- A source byte that is a device, and so a refusal; and a later access to one. -/
theorem witness_CommandsStopOnlyAtDevices :
    (∃ r, exec .encode (answering 0x1000 1 .device .device (oneIo [] 1#32 1#32)) = .refused r) ∧
    ((∃ s u, FirstStop .encode s u 0x1001#32 .device) ∧ (∃ s u, FirstStop .encode s u 0x2000#32 .device) ∧
      (∃ s u, FirstStop .decode s u 0x2001#32 .device) ∧ (∃ s u, FirstStop .decode s u 0x1001#32 .device)) ∧
    ∃ s : State, s.codesValid = true ∧ inRange s.srcAddr s.srcLen = true ∧ inRange s.dstAddr s.dstCap = true ∧
      overlaps s.srcAddr s.srcLen s.dstAddr s.dstCap = false ∧ readAnswer s s.srcAddr = .device ∧ 0 < s.srcLen.toNat ∧
      0 < s.tbits.toNat ∧ ceilDiv s.tbits.toNat 8 ≤ s.srcLen.toNat := by
  refine ⟨?_, laterAccess .device, _, firstByte .device⟩
  have h : (match exec .encode (answering 0x1000 1 .device .device (oneIo [] 1#32 1#32)) with
    | .refused _ => true
    | .next _ => false
    | .fault _ => false) = true := by decide +kernel
  cases he : exec .encode (answering 0x1000 1 .device .device (oneIo [] 1#32 1#32)) with
  | refused r => exact ⟨r, rfl⟩
  | next t => rw [he] at h; cases h
  | fault f => rw [he] at h; cases h

theorem witness_OtherCommandsFrame :
    Instr.clrfreq ≠ .encode ∧ Instr.clrfreq ≠ .decode ∧ Instr.gencode ≠ .clrfreq ∧ Instr.gencode ≠ .build := by decide

theorem witness_InvalidContentsAreNotObservable :
    State.reset.treeValid = false ∧ State.reset.codesValid = false ∧ Instr.gencode ≠ .build ∧
    (∃ t, exec .gencode State.reset = .next t) ∧
    (∃ t, exec .build { oneState with treeValid := false, codesValid := false } = .next t) := by
  refine ⟨rfl, rfl, by decide, ⟨_, rfl⟩, ?_⟩
  obtain ⟨t, ht, -⟩ := nextIs_spec (o := exec .build { oneState with treeValid := false, codesValid := false })
    (p := fun _ => true) (by decide +kernel)
  exact ⟨t, ht⟩

/-- While ENCODE is BUSY: one byte of room at 0x2000. -/
def busyIo : State := busyWith 4#32 (.due 2) (oneIo [] 1#32 1#32)

/-- Two bytes up to the last address, and one too many; while BUSY, the bytes beside the destination and beside the source; a
device at the last address. -/
theorem witness_HostStoresAndLoads :
    (MemoryOk State.reset ∧ State.reset.engine = none ∧ (0xFFFFFFFE#32).toNat + [1#8, 2#8].length ≤ 2 ^ 32 ∧
      (∀ k, k < 2 → writeAnswer State.reset (0xFFFFFFFE#32 + BitVec.ofNat 32 k) ≠ .device) ∧ State.reset.busy = false ∧
      readAnswer State.reset 0xFFFFFFFF#32 ≠ .device) ∧
    2 ^ 32 < (0xFFFFFFFE#32).toNat + [1#8, 2#8, 3#8].length ∧
    (MemoryOk busyIo ∧ busyIo.busy = true ∧ NoRace busyIo ∧ (∃ r, busyIo.engine = some r) ∧
      ([0x1FFF#32, 0x2001#32, 0x0FFF#32, 0x1001#32].all (fun a => inBuffer busyIo.dstAddr busyIo.dstCap a == false &&
        inBuffer busyIo.srcAddr busyIo.srcLen a == false && writeAnswer busyIo a != .device &&
        readAnswer busyIo a != .device)) = true ∧
      inBuffer busyIo.dstAddr busyIo.dstCap 0x2000#32 = true) ∧
    (let s := answering 0xFFFFFFFF 1 .device .device State.reset
     (0xFFFFFFFE#32).toNat + 2 ≤ 2 ^ 32 ∧ writeAnswer s (0xFFFFFFFE#32 + BitVec.ofNat 32 1) = .device ∧
      readAnswer s 0xFFFFFFFF#32 = .device) := by
  refine ⟨⟨rfl, rfl, by decide, by decide, rfl, by decide⟩, by decide,
    ⟨rfl, rfl, by simp [NoRace, State.raced, busyIo, busyWith], ⟨_, rfl⟩, by decide, by decide⟩, by decide⟩

theorem witness_FileFormatReadsBack :
    let entries : List (Byte × Word) := [(0x61#8, 299#32), (0x62#8, 1#32)]
    1 ≤ entries.length ∧ entries.length ≤ 256 ∧ (2#32).toNat = entries.length ∧ (entries.map Prod.fst).Nodup ∧
    (∀ e ∈ entries, e.2 ≠ 0#32) ∧ (entries.map (fun e => e.2.toNat)).sum = (300#32).toNat := by simp

/-- The file of three bytes 0x41, without its payload (the layout of V-H2). -/
def oneHeader : List Byte := [0xAA#8, 1#8, 0#8, 0#8, 0#8, 3#8, 0#8, 0#8, 0#8, 0x41#8, 3#8, 0#8, 0#8, 0#8]

/-- That file read back. -/
def oneParsed (payload : List Byte) : ParsedFile :=
  { alphabet := 1#32, total := 3#32, entries := [(0x41#8, 3#32)], payload := payload }

theorem oneParsed_reads (payload : List Byte) : parseFile [0xAA#8] (oneHeader ++ payload) = .ok (oneParsed payload) := by
  have h8 : ¬ payload.length + 13 < 8 := by omega
  have h13 : ¬ payload.length + 13 < 13 := by omega
  simp [parseFile, oneHeader, oneParsed, ofLe32, readEntries, headerConsistent, h8, h13]

/-- The block runs that file's script to its end, and leaves this error code. -/
def decompressLeaves (payload : List Byte) (src dst : Word) (e : BitVec 8) : Bool :=
  match runScript (decompressScript (oneParsed payload) src dst) State.reset with
  | .ok t => t.errcode == e
  | .error _ => false

theorem decompressLeaves_spec {payload : List Byte} {src dst : Word} {e : BitVec 8}
    (h : decompressLeaves payload src dst e = true) :
    ∃ t, runScript (decompressScript (oneParsed payload) src dst) State.reset = .ok t ∧ t.errcode = e := by
  unfold decompressLeaves at h
  split at h
  · next t ht => exact ⟨t, ht, by simpa using h⟩
  · cases h

theorem decompress_succeeds : decompressLeaves [0#8] 0x1000#32 0x2000#32 0x00#8 = true := by decide +kernel

theorem decompress_truncated : decompressLeaves [] 0x1000#32 0x2000#32 0x02#8 = true := by decide +kernel

theorem decompress_absentChild : decompressLeaves [0x80#8] 0x1000#32 0x2000#32 0x08#8 = true := by decide +kernel

theorem decompress_overlap : decompressLeaves [0#8] 0x1000#32 0x1000#32 0x0C#8 = true := by decide +kernel

/-- A wrong tag; seven bytes of counts; one entry of which a byte is missing; no entries; one entry, consistent; and decompress runs
that end with a success, a payload that is too short (V-H4), a 1 bit, and buffers that overlap. -/
theorem witness_HeaderErrorsInOrder :
    (([0xAB#8] : List Byte).take 1 ≠ [0xAA#8]) ∧
    (([0xAA#8, 1#8, 0#8, 0#8, 0#8, 1#8, 0#8, 0#8] : List Byte).drop 1).length < 8 ∧
    (let r : List Byte := [1#8, 0#8, 0#8, 0#8, 1#8, 0#8, 0#8, 0#8, 0x61#8, 1#8, 0#8, 0#8]
     8 ≤ r.length ∧ r.length < 8 + 5 * (ofLe32 (r.take 4)).toNat) ∧
    (let r : List Byte := [0#8, 0#8, 0#8, 0#8, 0#8, 0#8, 0#8, 0#8]
     8 + 5 * (ofLe32 (r.take 4)).toNat ≤ r.length ∧ ¬ 1 ≤ (ofLe32 (r.take 4)).toNat) ∧
    (let r : List Byte := oneHeader.drop 1
     let es := readEntries (ofLe32 (r.take 4)).toNat (r.drop 8)
     8 ≤ r.length ∧ 8 + 5 * (ofLe32 (r.take 4)).toNat ≤ r.length ∧ 1 ≤ (ofLe32 (r.take 4)).toNat ∧
      (ofLe32 (r.take 4)).toNat ≤ 256 ∧ (es.map Prod.fst).Nodup ∧ (∀ e ∈ es, e.2 ≠ 0#32) ∧
      (es.map (fun e => e.2.toNat)).sum = (ofLe32 ((r.drop 4).take 4)).toNat) ∧
    parseFile [0xAA#8] [0xAB#8] = .error .badMagicTag ∧
    (∀ payload, parseFile [0xAA#8] (oneHeader ++ payload) = .ok (oneParsed payload)) ∧
    (∃ t, runScript (decompressScript (oneParsed [0#8]) 0x1000#32 0x2000#32) State.reset = .ok t ∧ t.errcode = 0x00#8) ∧
    (∃ t, runScript (decompressScript (oneParsed []) 0x1000#32 0x2000#32) State.reset = .ok t ∧ t.errcode = 0x02#8) ∧
    (∃ t, runScript (decompressScript (oneParsed [0x80#8]) 0x1000#32 0x2000#32) State.reset = .ok t ∧ t.errcode = 0x08#8) ∧
    (∃ t, runScript (decompressScript (oneParsed [0#8]) 0x1000#32 0x1000#32) State.reset = .ok t ∧ t.errcode = 0x0C#8) := by
  exact ⟨by decide, by decide, by decide, by decide, by simp [oneHeader, ofLe32, readEntries], by decide, oneParsed_reads,
    decompressLeaves_spec decompress_succeeds, decompressLeaves_spec decompress_truncated,
    decompressLeaves_spec decompress_absentChild, decompressLeaves_spec decompress_overlap⟩

/-- A state in which GENCODE is due, with a tree, codes and memory: every invariant holds of it, and a step leads on. -/
def dueState : State := busyWith 3#32 (.due 0) (oneIo [(0x1000, 0x41#8), (0x1001, 0x41#8), (0x1002, 0x41#8)] 3#32 1#32)

theorem dueState_inv : Inv dueState :=
  ⟨rfl, ⟨fun _ => rfl, fun _ => ⟨rfl, rfl⟩, by decide⟩, ⟨by decide, by decide, by decide, by decide, by decide⟩, oneState_treeOk,
    oneState_codesOk⟩

theorem dueState_steps : ∃ t, step dueState = .next t := ⟨_, rfl⟩

theorem witness_StepKeepsMemoryCanonical : MemoryOk dueState ∧ ∃ t, step dueState = .next t := ⟨dueState_inv.1, dueState_steps⟩

theorem witness_StepKeepsTheFlags : FlagsOk dueState ∧ ∃ t, step dueState = .next t := ⟨dueState_inv.2.1, dueState_steps⟩

theorem witness_StepKeepsTheCounts : CountsOk dueState ∧ ∃ t, step dueState = .next t := ⟨dueState_inv.2.2.1, dueState_steps⟩

theorem witness_StepKeepsTheTree :
    TreeOk dueState ∧ dueState.treeValid = true ∧ ∃ t, step dueState = .next t := ⟨dueState_inv.2.2.2.1, rfl, dueState_steps⟩

theorem witness_StepKeepsTheCodes :
    TreeOk dueState ∧ CodesOk dueState ∧ dueState.codesValid = true ∧ ∃ t, step dueState = .next t :=
  ⟨dueState_inv.2.2.2.1, dueState_inv.2.2.2.2, rfl, dueState_steps⟩

/-- Three bytes 0x41 at 0x1000: they encode into one byte at 0x2000, and that byte decodes into three bytes at 0x3000. -/
theorem witness_DecodeOfEncodeIsTheInput :
    let s := oneIo [(0x1000, 0x41#8), (0x1001, 0x41#8), (0x1002, 0x41#8)] 0#32 0#32
    let x : List Byte := [0x41#8, 0x41#8, 0x41#8]
    (MemoryOk s ∧ x ≠ [] ∧ x.length < 2 ^ 32 ∧ s.mem.readList (0x1000#32).toNat x.length = x ∧
      ∀ b, (freqAt s.freq b).toNat = x.count b) ∧
    (∃ s1 s2 s3, exec .build s = .next s1 ∧ exec .gencode s1 = .next s2 ∧ ceilDiv s2.tbits.toNat 8 ≤ (1#32).toNat ∧
      exec .encode { s2 with srcAddr := 0x1000#32, srcLen := 3#32, dstAddr := 0x2000#32, dstCap := 1#32 } = .next s3 ∧
      s3.outLen.toNat ≤ (1#32).toNat) ∧
    (inRange 0x1000#32 3#32 = true ∧ inRange 0x2000#32 1#32 = true ∧ overlaps 0x1000#32 3#32 0x2000#32 1#32 = false ∧
      x.length ≤ (3#32).toNat ∧ inRange 0x3000#32 3#32 = true ∧ overlaps 0x2000#32 1#32 0x3000#32 3#32 = false) ∧
    (∀ a n, ReadsComplete s a n ∧ WritesComplete s a n) := by
  refine ⟨⟨by unfold MemoryOk; decide, by decide, by decide, by decide, fun b => ?_⟩, ?_, by decide,
    fun _ _ => ⟨fun _ _ => rfl, fun _ _ => rfl⟩⟩
  · show (freqAt oneState.freq b).toNat = _
    rw [oneState_freq]
    by_cases h : b = 0x41#8
    · rw [if_pos h, h]; decide
    · rw [if_neg h]
      simp [Ne.symm h]
  · obtain ⟨s1, h1, p1⟩ := nextIs_spec
      (o := exec .build (oneIo [(0x1000, 0x41#8), (0x1001, 0x41#8), (0x1002, 0x41#8)] 0#32 0#32))
      (p := fun s1 => nextIs (exec .gencode s1) (fun s2 => decide (ceilDiv s2.tbits.toNat 8 ≤ (1#32).toNat) &&
        nextIs (exec .encode { s2 with srcAddr := 0x1000#32, srcLen := 3#32, dstAddr := 0x2000#32, dstCap := 1#32 })
          (fun s3 => decide (s3.outLen.toNat ≤ (1#32).toNat)))) (by decide +kernel)
    obtain ⟨s2, h2, p2⟩ := nextIs_spec p1
    obtain ⟨hc, p3⟩ := Bool.and_eq_true_iff.mp p2
    obtain ⟨s3, h3, p4⟩ := nextIs_spec p3
    exact ⟨s1, s2, s3, h1, h2, of_decide_eq_true hc, h3, of_decide_eq_true p4⟩

end Sys2Proof.Tests
end

section
/-! The statements of 00_scope.md: whose turn a step is, that every command completes where its accesses are answered, that `WAIT`
ends at that completion, and how a refused access ends ENCODE and DECODE. -/

namespace Sys2Proof.Machine

/-! ### Whose turn it is -/

theorem hostStep_nil {s : State} (h : s.script = []) : hostStep s = .next s := by
  simp [hostStep, h]

theorem hostStep_cons {s : State} {a : HostAction} {rest : List HostAction} (h : s.script = a :: rest) :
    hostStep s = hostAct a { s with script := rest } := by
  simp [hostStep, h]

theorem step_of_idle {s : State} (h : s.engine = none) : step s = hostStep s.nextTick := by
  simp [step, turn, h]

theorem step_of_hung {s : State} {r : Running} (h : s.engine = some r) (hp : r.phase = .hung) :
    step s = hostStep s.nextTick := by
  simp [step, turn, h, hp]

theorem step_of_due_zero {s : State} {r : Running} (h : s.engine = some r) (hp : r.phase = .due 0) :
    step s = runCommand r.word s.nextTick := by
  simp [step, turn, h, hp]

theorem step_of_due_succ {s : State} {r : Running} {d : Nat} {a : HostAction} {rest : List HostAction}
    (h : s.engine = some r) (hp : r.phase = .due (d + 1)) (hs : s.script = a :: rest) :
    step s = hostStep { s.nextTick with engine := some { r with phase := .due d } } := by
  simp [step, turn, h, hp, hs]

/-- Settles O8: an idle or hung engine leaves the step to the host, and so does a delay that is not over. -/
theorem hostActsUntilTheCommandIsDue : Obligations.HostActsUntilTheCommandIsDue := by
  unfold Obligations.HostActsUntilTheCommandIsDue
  refine ⟨fun s he hs => ?_, fun s a rest he hs => ?_, fun s r d a rest he hp hs => ?_, fun s r a rest he hp hs => ?_,
    fun s r he hp hs => ?_⟩
  · rw [step_of_idle he]; exact hostStep_nil hs
  · rw [step_of_idle he]; exact hostStep_cons hs
  · rw [step_of_due_succ he hp hs]; exact hostStep_cons hs
  · rw [step_of_hung he hp]; exact hostStep_cons hs
  · rw [step_of_hung he hp]; exact hostStep_nil hs

/-! ### Completion where every access is answered (00_scope.md R10) -/

/-- A reason to halt at which a command completes, by `raise E` (60_exceptions.md R210). -/
def Halt.Raises (why : Halt) : Prop := (∃ e, why = .error e) ∨ ∃ a, why = .busError a

theorem Answer.Halts.raises {a : Word} {ans : Answer} {why : Halt} (h : ans.Halts a why)
    (hans : ans = .completes ∨ ans = .refuses) : why.Raises := by
  rcases hans with rfl | rfl
  · exact h.elim
  · exact Or.inr ⟨a, h⟩

theorem Flow.Post.of_stop {σ : Type} {P : σ → Prop} {Q : σ → Halt → Prop} {f : Flow σ} {why : Halt} (h : f.Post P Q)
    (hs : f.stop = some why) : Q f.reached why := by
  cases f with
  | go st => cases hs
  | halt st why' => cases hs; exact h

theorem EncodeStops.raises {s : State} {st : EncodeRun} {why : Halt} (h : EncodeStops s st why) (hb : BuffersAnswered s) :
    why.Raises := by
  obtain ⟨hread, hwrite⟩ := hb
  obtain ⟨-, ⟨rfl, -⟩ | ⟨rfl, -⟩ | ⟨hi, -, hh⟩ | ⟨ho, -, hh⟩⟩ := h
  · exact Or.inl ⟨_, rfl⟩
  · exact Or.inl ⟨_, rfl⟩
  · exact hh.raises (hread _ hi)
  · exact hh.raises (hwrite _ ho)

theorem DecodeStops.raises {s : State} {st : DecodeRun} {why : Halt} (h : DecodeStops s st why)
    (hlen : ceilDiv s.tbits.toNat 8 ≤ s.srcLen.toNat) (hb : BuffersAnswered s) : why.Raises := by
  obtain ⟨hread, hwrite⟩ := hb
  obtain ⟨-, ⟨rfl, -⟩ | ⟨rfl, -⟩ | ⟨hi, -, hh⟩ | ⟨ho, -, hh⟩ | ⟨rfl, -⟩ | ⟨rfl, -⟩⟩ := h
  · exact Or.inl ⟨_, rfl⟩
  · exact Or.inl ⟨_, rfl⟩
  · exact hh.raises (hread _ (by unfold ceilDiv at hlen; omega))
  · exact hh.raises (hwrite _ ho)
  · exact Or.inl ⟨_, rfl⟩
  · exact Or.inl ⟨_, rfl⟩

theorem encodeStream_raises {s : State} (hb : BuffersAnswered s) {why : Halt} (h : (encodeStream s).stop = some why) :
    why.Raises := by
  rcases encodeStream_cases s with ⟨e, -, hf⟩ | ⟨-, hpost⟩
  · rw [hf] at h; cases h; exact Or.inl ⟨e, rfl⟩
  · exact (hpost.of_stop h).raises hb

theorem decodeStream_raises {s : State} (hb : BuffersAnswered s) {why : Halt} (h : (decodeStream s).stop = some why) :
    why.Raises := by
  rcases decodeStream_cases s with ⟨e, -, hf⟩ | ⟨-, -, hf⟩ | ⟨-, hlen, hpost⟩
  · rw [hf] at h; cases h; exact Or.inl ⟨e, rfl⟩
  · rw [hf] at h; cases h; exact Or.inl ⟨_, rfl⟩
  · exact (hpost.of_stop h).raises hlen hb

/-- `t` is a completion of a command that ran in `s`: the engine is idle, `DONE` is set, and the host's script is as it was. -/
structure Completed (s t : State) : Prop where
  idle : t.engine = none
  done : t.done = true
  script : t.script = s.script

theorem completed_finish {s u : State} (h : u.script = s.script) : Completed s (finish u) := ⟨rfl, rfl, h⟩

theorem completed_raiseError {s u : State} (e : ErrCode) (h : u.script = s.script) : Completed s (raiseError e u) :=
  ⟨rfl, rfl, h⟩

theorem completed_codecDone (s : State) (mem : Memory) (out inc bits : Nat) (a : Word) (e : BitVec 8) :
    Completed s (codecDone s mem out inc bits a e) := ⟨rfl, rfl, rfl⟩

/-- A codec command completes unless it halts at an access that has no answer. -/
theorem endCodec_completes (i : Instr) (s : State) (mem : Memory) (out inc bits : Nat) {why : Option Halt}
    (h : ∀ w, why = some w → w.Raises) : ∃ t, endCodec i s mem out inc bits why = .next t ∧ Completed s t := by
  cases why with
  | none => exact ⟨_, endCodec_none .., completed_codecDone ..⟩
  | some w =>
    rcases h w rfl with ⟨e, rfl⟩ | ⟨a, rfl⟩
    · exact ⟨_, endCodec_error .., completed_codecDone ..⟩
    · exact ⟨_, endCodec_busError .., completed_codecDone ..⟩

theorem exec_completes (i : Instr) {s : State} (hb : BuffersAnswered s) : ∃ t, exec i s = .next t ∧ Completed s t := by
  cases i with
  | nop => exact ⟨_, rfl, completed_finish rfl⟩
  | clrfreq => exact ⟨_, rfl, completed_finish rfl⟩
  | build =>
    simp only [exec, execBuild]
    split
    · exact ⟨_, rfl, completed_raiseError _ rfl⟩
    · exact ⟨_, rfl, completed_finish rfl⟩
  | gencode =>
    simp only [exec, execGencode]
    split
    · exact ⟨_, rfl, completed_raiseError _ rfl⟩
    · exact ⟨_, rfl, completed_finish rfl⟩
  | encode => rw [execEncode_eq]; exact endCodec_completes _ _ _ _ _ _ (fun _ => encodeStream_raises hb)
  | decode => rw [execDecode_eq]; exact endCodec_completes _ _ _ _ _ _ (fun _ => decodeStream_raises hb)

theorem runCommand_completes (w : Word) {s : State} (hb : BuffersAnswered s) :
    ∃ t, runCommand w s = .next t ∧ Completed s t := by
  unfold runCommand
  split
  · exact exec_completes _ hb
  · exact ⟨_, rfl, completed_raiseError _ rfl⟩

/-- Settles O46: the four commands that touch no memory always complete, and the two codec commands halt only where `raise` ends
them. -/
theorem everyCommandCompletes : Obligations.EveryCommandCompletes := by
  unfold Obligations.EveryCommandCompletes
  intro s i hb
  obtain ⟨t, hx, hidle, hdone, -⟩ := exec_completes i hb
  exact ⟨t, hx, hidle, hdone⟩

/-! ### `WAIT` (30_encoding.md R95, R97) -/

theorem run_succ_of_step {s t : State} (n : Nat) (h : step s = .next t) :
    Host.Core.run Sys2Proof.core (n + 1) s = Host.Core.run Sys2Proof.core n t := by
  have hcore : Sys2Proof.core.step s = .next t := h
  simp only [Host.Core.run, hcore]

/-- A poll that finds the block idle is recorded, and `WAIT` leaves the script. -/
theorem step_wait_of_idle {s : State} {rest : List HostAction} (he : s.engine = none) (hs : s.script = .wait :: rest) :
    ∃ rs, step s = .next { s.nextTick with script := rest, responses := rs } := by
  refine ⟨.word (statusWord { s.nextTick with script := rest }) :: s.responses, ?_⟩
  rw [step_of_idle he, hostStep_cons (s := s.nextTick) hs]
  simp [hostAct, hostWait, State.busy, he, respond]

/-- A poll before the command is due is recorded and takes one of its delay; `WAIT` stays the host's next action. -/
theorem step_wait_of_due_succ {s : State} {r : Running} {d : Nat} {rest : List HostAction} (he : s.engine = some r)
    (hp : r.phase = .due (d + 1)) (hs : s.script = .wait :: rest) :
    ∃ rs, step s = .next { s.nextTick with engine := some { r with phase := .due d }, responses := rs } := by
  refine ⟨.word (statusWord { s.nextTick with engine := some { r with phase := .due d }, script := rest }) :: s.responses, ?_⟩
  rw [step_of_due_succ he hp hs, hostStep_cons (s := { s.nextTick with engine := _ }) hs]
  simp [hostAct, hostWait, State.busy, respond, ← hs]

/-- The polls of `WAIT` count the delay down to the completion, and the poll behind it is the last. -/
theorem wait_ends {s : State} {r : Running} {d : Nat} {rest : List HostAction} (hb : BuffersAnswered s)
    (he : s.engine = some r) (hp : r.phase = .due d) (hs : s.script = .wait :: rest) :
    ∃ t, Host.Core.run Sys2Proof.core (d + 2) s = .next t ∧ t.script = rest ∧ t.busy = false ∧ t.done = true := by
  induction d generalizing s r with
  | zero =>
    obtain ⟨t, hrun, hidle, hdone, hscript⟩ := runCommand_completes r.word (s := s.nextTick) hb
    obtain ⟨rs, hpoll⟩ := step_wait_of_idle hidle (hscript.trans hs)
    refine ⟨{ t.nextTick with script := rest, responses := rs }, ?_, rfl, by simp [State.busy, hidle], hdone⟩
    rw [run_succ_of_step 1 ((step_of_due_zero he hp).trans hrun), run_succ_of_step 0 hpoll]
    rfl
  | succ d ih =>
    obtain ⟨rs, hpoll⟩ := step_wait_of_due_succ he hp hs
    rw [run_succ_of_step (d + 2) hpoll]
    exact ih (r := { r with phase := .due d }) hb rfl rfl hs

/-- Settles O10, by induction on the delay. -/
theorem waitEndsAtCompletion : Obligations.WaitEndsAtCompletion := by
  unfold Obligations.WaitEndsAtCompletion
  exact fun s r d rest hb he hp hs => wait_ends hb he hp hs

/-! ### A refused access (60_exceptions.md R208 to R210) -/

theorem ReadsComplete.mono {s : State} {a : Word} {m n : Nat} (h : ReadsComplete s a n) (hle : m ≤ n) :
    ReadsComplete s a m := fun k hk => h k (lt_of_lt_of_le hk hle)

theorem WritesComplete.mono {s : State} {a : Word} {m n : Nat} (h : WritesComplete s a n) (hle : m ≤ n) :
    WritesComplete s a m := fun k hk => h k (lt_of_lt_of_le hk hle)

/-- A register holds no more than the count written into it. -/
theorem toNat_ofNat_le (w n : Nat) : (BitVec.ofNat w n).toNat ≤ n := by
  rw [BitVec.toNat_ofNat]; exact Nat.mod_le _ _

/-- `ERRADDR` of `t` is where the platform of `s` refused an access of the command `i`, and the result registers of `t` locate it. -/
def RefusalLocated (i : Instr) (s t : State) : Prop :=
  (i = .encode ∧ t.errAddr = s.srcAddr + t.inCount ∧ t.inCount.toNat < s.srcLen.toNat ∧
    readAnswer s t.errAddr = .refuses) ∨
  (i = .decode ∧ t.errAddr = s.srcAddr + BitVec.ofNat 32 (t.bits.toNat / 8) ∧ t.bits.toNat < s.tbits.toNat ∧
    readAnswer s t.errAddr = .refuses) ∨
  (t.errAddr = s.dstAddr + t.outLen ∧ t.outLen.toNat < s.dstCap.toNat ∧ writeAnswer s t.errAddr = .refuses)

/-- The accesses a completed codec command `t` counts were completed, and `ERRADDR` is the refused one's address, if any. -/
def AccessesAccounted (i : Instr) (s t : State) : Prop :=
  ReadsComplete s s.srcAddr t.inCount.toNat ∧ WritesComplete s s.dstAddr t.outLen.toNat ∧
  (t.errcode ≠ 0x0D#8 → t.errAddr = 0#32) ∧ (t.errcode = 0x0D#8 → RefusalLocated i s t)

section Accounts
variable {i : Instr} {s : State} {mem : Memory} {out inc bits : Nat}
  (hreads : ReadsComplete s s.srcAddr inc) (hwrites : WritesComplete s s.dstAddr out)
include hreads hwrites

theorem codecDone_accounted_of_ne {e : BitVec 8} (he : e ≠ 0x0D#8) :
    AccessesAccounted i s (codecDone s mem out inc bits 0#32 e) :=
  ⟨hreads.mono (toNat_ofNat_le _ _), hwrites.mono (toNat_ofNat_le _ _), fun _ => rfl, fun h => absurd h he⟩

theorem codecDone_accounted_of_refusal {a : Word}
    (ha : RefusalLocated i s (codecDone s mem out inc bits a 0x0D#8)) :
    AccessesAccounted i s (codecDone s mem out inc bits a 0x0D#8) :=
  ⟨hreads.mono (toNat_ofNat_le _ _), hwrites.mono (toNat_ofNat_le _ _), fun h => absurd rfl h, fun _ => ha⟩

end Accounts

/-- A precheck error comes before the first access. -/
theorem precheck_accounted (i : Instr) {s : State} (mem : Memory) {e : ErrCode} (he : e ≠ .busError) :
    AccessesAccounted i s (codecDone s mem 0 0 0 0#32 (errValue e)) :=
  codecDone_accounted_of_ne (fun _ hk => absurd hk (Nat.not_lt_zero _)) (fun _ hk => absurd hk (Nat.not_lt_zero _))
    (errValue_ne_busError he)

theorem codecPrecheck_ne_busError {s : State} {e : ErrCode} (h : codecPrecheck s = some e) : e ≠ .busError := by
  rcases codecPrecheck_some h with rfl | rfl | rfl <;> decide

theorem Answer.not_halts_error {a : Word} {ans : Answer} {e : ErrCode} : ¬ ans.Halts a (.error e) := by
  cases ans <;> simp [Answer.Halts]

theorem EncodeStops.error_ne_busError {s : State} {st : EncodeRun} {e : ErrCode} (h : EncodeStops s st (.error e)) :
    e ≠ .busError := by
  obtain ⟨-, ⟨he, -⟩ | ⟨he, -⟩ | ⟨-, -, hh⟩ | ⟨-, -, hh⟩⟩ := h
  · cases he; decide
  · cases he; decide
  · exact absurd hh Answer.not_halts_error
  · exact absurd hh Answer.not_halts_error

theorem DecodeStops.error_ne_busError {s : State} {st : DecodeRun} {e : ErrCode} (h : DecodeStops s st (.error e)) :
    e ≠ .busError := by
  obtain ⟨-, ⟨he, -⟩ | ⟨he, -⟩ | ⟨-, -, hh⟩ | ⟨-, -, hh⟩ | ⟨he, -⟩ | ⟨he, -⟩⟩ := h
  · cases he; decide
  · cases he; decide
  · exact absurd hh Answer.not_halts_error
  · exact absurd hh Answer.not_halts_error
  · cases he; decide
  · cases he; decide

theorem EncodeStops.refusalLocated {s : State} {st : EncodeRun} {a : Word} (h : EncodeStops s st (.busError a)) :
    RefusalLocated .encode s (codecDone s st.mem st.out st.inc st.bits a 0x0D#8) := by
  obtain ⟨-, ⟨he, -⟩ | ⟨he, -⟩ | ⟨hi, -, hh⟩ | ⟨ho, -, hh⟩⟩ := h
  · cases he
  · cases he
  · obtain ⟨rfl, hr⟩ := hh.of_busError
    exact Or.inl ⟨rfl, rfl, lt_of_le_of_lt (toNat_ofNat_le _ _) hi, hr⟩
  · obtain ⟨rfl, hr⟩ := hh.of_busError
    exact Or.inr (Or.inr ⟨rfl, lt_of_le_of_lt (toNat_ofNat_le _ _) ho, hr⟩)

theorem DecodeStops.refusalLocated {s : State} {st : DecodeRun} {a : Word} (h : DecodeStops s st (.busError a)) :
    RefusalLocated .decode s (codecDone s st.mem st.out (ceilDiv st.bits 8) st.bits a 0x0D#8) := by
  obtain ⟨-, ⟨he, -⟩ | ⟨he, -⟩ | ⟨hi, -, hh⟩ | ⟨ho, -, hh⟩ | ⟨he, -⟩ | ⟨he, -⟩⟩ := h
  · cases he
  · cases he
  · obtain ⟨rfl, hr⟩ := hh.of_busError
    have hbits : (BitVec.ofNat 64 st.bits).toNat = st.bits := Nat.mod_eq_of_lt (lt_trans hi s.tbits.isLt)
    refine Or.inr (Or.inl ⟨rfl, ?_, lt_of_le_of_lt (toNat_ofNat_le _ _) hi, hr⟩)
    show _ = s.srcAddr + BitVec.ofNat 32 ((BitVec.ofNat 64 st.bits).toNat / 8)
    rw [hbits]
    rfl
  · obtain ⟨rfl, hr⟩ := hh.of_busError
    exact Or.inr (Or.inr ⟨rfl, lt_of_le_of_lt (toNat_ofNat_le _ _) ho, hr⟩)
  · cases he
  · cases he

theorem encode_accounted {s t : State} (h : exec .encode s = .next t) (hidle : t.engine = none) :
    AccessesAccounted .encode s t := by
  rcases encode_next h with ⟨e, hp, rfl⟩ | ⟨-, ⟨st, hd, rfl⟩ | ⟨st, e, hs, rfl⟩ | ⟨st, a, hs, rfl⟩ | ⟨st, -, rfl⟩⟩
  · exact precheck_accounted _ _ (codecPrecheck_ne_busError hp)
  · exact codecDone_accounted_of_ne (hd.inc ▸ hd.reads) hd.streamed.writes (by decide)
  · exact codecDone_accounted_of_ne hs.1.reads hs.1.streamed.writes (errValue_ne_busError hs.error_ne_busError)
  · exact codecDone_accounted_of_refusal hs.1.reads hs.1.streamed.writes hs.refusalLocated
  · cases hidle

theorem decode_accounted {s t : State} (h : exec .decode s = .next t) (hidle : t.engine = none) :
    AccessesAccounted .decode s t := by
  rcases decode_next h with ⟨e, hp, rfl⟩ | ⟨-, -, rfl⟩ |
    ⟨-, -, ⟨st, hd, rfl⟩ | ⟨st, e, hs, rfl⟩ | ⟨st, a, hs, rfl⟩ | ⟨st, -, rfl⟩⟩
  · exact precheck_accounted _ _ (codecPrecheck_ne_busError hp)
  · exact precheck_accounted (e := .truncated) _ _ (by decide)
  · exact codecDone_accounted_of_ne hd.1.reads hd.1.streamed.writes (by decide)
  · exact codecDone_accounted_of_ne hs.1.reads hs.1.streamed.writes (errValue_ne_busError hs.error_ne_busError)
  · exact codecDone_accounted_of_refusal hs.1.reads hs.1.streamed.writes hs.refusalLocated
  · cases hidle

/-! ### An access to the first source byte -/

theorem codecPrecheck_eq_none {s : State} (hc : s.codesValid = true) (hs : inRange s.srcAddr s.srcLen = true)
    (hd : inRange s.dstAddr s.dstCap = true) (ho : overlaps s.srcAddr s.srcLen s.dstAddr s.dstCap = false) :
    codecPrecheck s = none := by
  simp [codecPrecheck, hc, hs, hd, ho]

theorem portRead_of_refuses {s : State} {m : Memory} {a : Word} (h : readAnswer s a = .refuses) :
    portRead s m a = .error (.busError a) := by
  simp [portRead, h]

/-- ENCODE halts with nothing done at a first source byte that it cannot read. -/
theorem encodeStream_first {s : State} {why : Halt} (hp : codecPrecheck s = none) (hlen : 0 < s.srcLen.toNat)
    (hr : portRead s s.mem s.srcAddr = .error why) : encodeStream s = .halt (encodeStart s) why := by
  obtain ⟨n, hn⟩ := Nat.exists_eq_add_of_lt hlen
  rw [Nat.zero_add] at hn
  have hbyte : encodeByte s 0 (encodeStart s) = .halt (encodeStart s) why := by simp [encodeByte, encodeStart, hr]
  simp [encodeStream, hp, hn, encodeBytes, hbyte, Flow.andThen]

/-- DECODE halts with nothing done at a first source byte that it cannot read. -/
theorem decodeStream_first {s : State} {why : Halt} (hp : codecPrecheck s = none) (hbits : 0 < s.tbits.toNat)
    (hlen : ceilDiv s.tbits.toNat 8 ≤ s.srcLen.toNat) (hr : portRead s s.mem s.srcAddr = .error why) :
    decodeStream s = .halt (decodeStart s) why := by
  obtain ⟨n, hn⟩ := Nat.exists_eq_add_of_lt hbits
  rw [Nat.zero_add] at hn
  have hbyte : fetchByte s 0 (decodeStart s) = .halt (decodeStart s) why := by simp [fetchByte, decodeStart, hr]
  rw [decodeStream, hp]
  simp only [not_lt.2 hlen, if_false]
  simp [hn, decodeBits, hbyte, Flow.andThen]

/-- Settles O44: every way either command ends accounts for its accesses, a first access that is refused ends it, and a refused
first source byte is one. -/
theorem busErrorRecordsTheAddress : Obligations.BusErrorRecordsTheAddress := by
  unfold Obligations.BusErrorRecordsTheAddress
  refine ⟨fun s t i hi hx hidle => ?_, fun i s u a h => ?_, fun s hc hs hd ho hr => ⟨fun hlen => ?_, fun hbits hlen => ?_⟩⟩
  · rcases hi with rfl | rfl
    · exact encode_accounted hx hidle
    · exact decode_accounted hx hidle
  · obtain ⟨m, out, inc, bits, why, hh, hx, rfl⟩ := h.ends (by decide)
    obtain rfl : why = .busError a := hh
    exact ⟨rfl, rfl, rfl, hx⟩
  · exact execEncode_halt (encodeStream_first (codecPrecheck_eq_none hc hs hd ho) hlen (portRead_of_refuses hr))
  · rw [execDecode_halt (decodeStream_first (codecPrecheck_eq_none hc hs hd ho) hbits hlen (portRead_of_refuses hr)),
      show ceilDiv (decodeStart s).bits 8 = 0 from ceilDiv_zero]
    rfl

end Sys2Proof.Machine
end

section
/-! What each command leaves (40_control_and_frequency.md to 44_decoder.md): BUILD and GENCODE by case, how the codec commands
end, the frames of all commands, and the tree and the codes that BUILD and GENCODE make. -/

namespace Sys2Proof.Machine

/-! ### BUILD and GENCODE by case -/

/-- What BUILD leaves of a table without entries: `EMPTY_INPUT` (41_tree_builder.md R120, R122). -/
def builtEmpty (s : State) : State :=
  raiseError .emptyInput
    { s with
      codesValid := false
      tbits := 0#64
      alpha := BitVec.ofNat 9 (observed s.freq).length
      total := BitVec.ofNat 64 (freqTotal s.freq)
      treeValid := false
      root := NIL
      nodeCount := 0#10 }

/-- What BUILD leaves of a table with entries (R120). -/
def builtTree (s : State) : State :=
  finish
    { s with
      codesValid := false
      tbits := 0#64
      alpha := BitVec.ofNat 9 (observed s.freq).length
      total := BitVec.ofNat 64 (freqTotal s.freq)
      node := writeArena 0 (growTree s.freq) s.node
      root := BitVec.ofNat 9 ((growTree s.freq).length - 1)
      nodeCount := BitVec.ofNat 10 (growTree s.freq).length
      treeValid := true }

theorem execBuild_of_empty {s : State} (h : observed s.freq = []) : exec .build s = .next (builtEmpty s) := by
  simp only [exec, execBuild, growTree_eq_nil.2 h]
  rfl

theorem execBuild_of_entries {s : State} (h : observed s.freq ≠ []) : exec .build s = .next (builtTree s) := by
  simp only [exec, execBuild]
  split
  · next hg => exact absurd (growTree_eq_nil.1 hg) h
  · rfl

theorem build_next {s t : State} (h : exec .build s = .next t) :
    (observed s.freq = [] ∧ t = builtEmpty s) ∨ (observed s.freq ≠ [] ∧ t = builtTree s) := by
  by_cases ho : observed s.freq = []
  · rw [execBuild_of_empty ho] at h
    exact Or.inl ⟨ho, (Host.Outcome.next.inj h).symm⟩
  · rw [execBuild_of_entries ho] at h
    exact Or.inr ⟨ho, (Host.Outcome.next.inj h).symm⟩

/-- What GENCODE leaves where a tree is valid (42_code_generator.md R135). -/
def generated (s : State) : State :=
  finish
    { s with
      code := genTable s.node s.root
      tbits := BitVec.ofNat 64 (totalBits s.node (genTable s.node s.root) s.nodeCount.toNat)
      codesValid := true }

theorem execGencode_of_noTree {s : State} (h : s.treeValid = false) :
    exec .gencode s = .next (raiseError .noTree s) := by
  simp [exec, execGencode, h]

theorem execGencode_of_tree {s : State} (h : s.treeValid = true) : exec .gencode s = .next (generated s) := by
  simp [exec, execGencode, h, generated]

theorem gencode_next {s t : State} (h : exec .gencode s = .next t) :
    (s.treeValid = false ∧ t = raiseError .noTree s) ∨ (s.treeValid = true ∧ t = generated s) := by
  cases hv : s.treeValid
  · rw [execGencode_of_noTree hv] at h
    exact Or.inl ⟨rfl, (Host.Outcome.next.inj h).symm⟩
  · rw [execGencode_of_tree hv] at h
    exact Or.inr ⟨rfl, (Host.Outcome.next.inj h).symm⟩

/-! ### ENCODE and DECODE -/

theorem errValue_le (e : ErrCode) : (errValue e).toNat ≤ 0x0D := by cases e <;> decide

/-- How ENCODE and DECODE end where they answer a next state: they complete, or wait for an access that is never answered. Either
way the stream wrote inside the destination only (60_exceptions.md R210, R211; 70_reset_and_hazards.md R248). -/
def CodecEnds (i : Instr) (s t : State) : Prop :=
  (∃ mem out inc bits a e, t = codecDone s mem out inc bits a e ∧ Streamed s mem out ∧ e.toNat ≤ 0x0D) ∨
  (∃ mem out, t = codecHung i s mem ∧ Streamed s mem out)

theorem codecEnds_done {i : Instr} {s : State} {mem : Memory} {out inc bits : Nat} {a : Word} {e : BitVec 8}
    (h : Streamed s mem out) (he : e.toNat ≤ 0x0D) : CodecEnds i s (codecDone s mem out inc bits a e) :=
  Or.inl ⟨mem, out, inc, bits, a, e, rfl, h, he⟩

theorem codec_next {i : Instr} {s t : State} (hi : i = .encode ∨ i = .decode) (h : exec i s = .next t) :
    CodecEnds i s t := by
  rcases hi with rfl | rfl
  · rcases encode_next h with ⟨e, -, rfl⟩ | ⟨-, ⟨st, hd, rfl⟩ | ⟨st, e, hs, rfl⟩ | ⟨st, a, hs, rfl⟩ | ⟨st, hs, rfl⟩⟩
    · exact codecEnds_done (Streamed.start s) (errValue_le e)
    · exact codecEnds_done hd.streamed (by decide)
    · exact codecEnds_done hs.1.streamed (errValue_le e)
    · exact codecEnds_done hs.1.streamed (by decide)
    · exact Or.inr ⟨st.mem, st.out, rfl, hs.1.streamed⟩
  · rcases decode_next h with ⟨e, -, rfl⟩ | ⟨-, -, rfl⟩ |
      ⟨-, -, ⟨st, hd, rfl⟩ | ⟨st, e, hs, rfl⟩ | ⟨st, a, hs, rfl⟩ | ⟨st, hs, rfl⟩⟩
    · exact codecEnds_done (Streamed.start s) (errValue_le e)
    · exact codecEnds_done (Streamed.start s) (by decide)
    · exact codecEnds_done hd.1.streamed (by decide)
    · exact codecEnds_done hs.1.streamed (errValue_le e)
    · exact codecEnds_done hs.1.streamed (by decide)
    · exact Or.inr ⟨st.mem, st.out, rfl, hs.1.streamed⟩

/-! ### Frames -/

/-- Settles O43: every end of the two commands wrote inside the destination, and `codecDone` and `codecHung` name what else
they change. -/
theorem codecFrame : Obligations.CodecFrame := by
  unfold Obligations.CodecFrame
  intro s t i hi hx
  rcases codec_next hi hx with ⟨mem, out, inc, bits, a, e, rfl, hstr, -⟩ | ⟨mem, out, rfl, hstr⟩
  · refine ⟨rfl, fun _ => ⟨rfl, ?_, fun b hb => hstr.outside b ?_⟩, fun h => absurd rfl h⟩
    · exact (toNat_ofNat_le 32 out).trans hstr.out_le
    · have hb : ¬ inSpan s.dstAddr (BitVec.ofNat 32 out).toNat b := hb
      rwa [hstr.toNat_out] at hb
  · refine ⟨rfl, fun h => (nomatch h), fun _ => ⟨rfl, fun b hb => hstr.outside b (fun h => hb ⟨h.1, ?_⟩)⟩⟩
    have := hstr.out_le
    omega

/-- Settles O49: each of the four ends in `finish` or `raise E` behind a few register updates. -/
theorem otherCommandsFrame : Obligations.OtherCommandsFrame := by
  unfold Obligations.OtherCommandsFrame
  intro s i he hd
  cases i with
  | nop => exact ⟨_, rfl, by simp⟩
  | clrfreq => exact ⟨_, rfl, by simp⟩
  | build =>
    by_cases ho : observed s.freq = []
    · exact ⟨_, execBuild_of_empty ho, by simp [builtEmpty]⟩
    · exact ⟨_, execBuild_of_entries ho, by simp [builtTree]⟩
  | gencode =>
    cases hv : s.treeValid
    · exact ⟨_, execGencode_of_noTree hv, by simp⟩
    · exact ⟨_, execGencode_of_tree hv, by simp [generated]⟩
  | encode => exact absurd rfl he
  | decode => exact absurd rfl hd

/-! ### The tree that BUILD makes -/

section Projections
variable {s : State} {t : Shape}

theorem IsTree.held (h : IsTree s t) : t.heldBy s.node := h.1
theorem IsTree.proper (h : IsTree s t) : t.proper := h.2.1
theorem IsTree.root_eq (h : IsTree s t) : s.root = BitVec.ofNat 9 t.idx := h.2.2.1
theorem IsTree.indices_perm (h : IsTree s t) : t.indices.Perm (List.range s.nodeCount.toNat) := h.2.2.2.1
theorem IsTree.leaves_perm (h : IsTree s t) : t.leaves.Perm (observed s.freq) := h.2.2.2.2

end Projections

/-- The sum of a tree's leaf weights, leaf by leaf (10_state.md R49). -/
theorem Shape.weight_eq_sum (t : Shape) : t.weight = (t.leaves.map (fun e => e.2.toNat)).sum := by
  induction t with
  | leaf i x w => simp [Shape.weight, Shape.leaves]
  | wrap i t ih => exact ih
  | fork i l r ihl ihr => simp [Shape.weight, Shape.leaves, ihl, ihr]

/-- The root of a proper tree stands in the arena with the tree's weight. -/
theorem Shape.weight_nodeAt_idx {arena : Vector Node 511} {t : Shape} (h : t.heldBy arena) (hp : t.proper) :
    (nodeAt arena (BitVec.ofNat 9 t.idx)).weight = BitVec.ofNat 64 t.weight := by
  cases t with
  | leaf i x w => exact hp.elim
  | wrap i t =>
    obtain ⟨-, hnode, -⟩ := h
    rw [Shape.idx_wrap, hnode, Shape.weight]
  | fork i l r =>
    obtain ⟨-, hnode, -⟩ := h
    rw [Shape.idx_fork, hnode, Shape.weight]

theorem IsTree.weight_root {s : State} {t : Shape} (h : IsTree s t) :
    (nodeAt s.node s.root).weight = BitVec.ofNat 64 (freqTotal s.freq) := by
  rw [h.root_eq, Shape.weight_nodeAt_idx h.held h.proper, Shape.weight_eq_sum, (h.leaves_perm.map _).sum_eq, freqTotal]

/-- `NODE_COUNT` holds the number of nodes (10_state.md R40). -/
theorem toNat_nodeCount_builtTree (s : State) : (builtTree s).nodeCount.toNat = (growTree s.freq).length := by
  have := length_growTree_le s.freq
  exact Nat.mod_eq_of_lt (by omega)

/-- BUILD leaves the tree of the table (R49). -/
theorem builtTree_isTree {s : State} (h : observed s.freq ≠ []) : ∃ t, IsTree (builtTree s) t := by
  obtain ⟨t, hproper, hin, hidx, hleaves, hlast, -⟩ := growTree_spec h
  refine ⟨t, Shape.heldBy_writeArena s.node (length_growTree_le s.freq) hin, hproper, ?_, ?_, hleaves⟩
  · show BitVec.ofNat 9 ((growTree s.freq).length - 1) = BitVec.ofNat 9 t.idx
    rw [← hlast, Nat.add_sub_cancel]
  · rw [toNat_nodeCount_builtTree]
    exact hidx

/-- Settles O30: `growTree` makes a proper tree of the entries, and the arena holds it once it is written. -/
theorem buildMakesTheTree : Obligations.BuildMakesTheTree := by
  unfold Obligations.BuildMakesTheTree
  rintro s ⟨i, hi⟩
  have ho : observed s.freq ≠ [] := fun h => hi (observed_eq_nil.1 h i)
  obtain ⟨shape, hshape⟩ := builtTree_isTree ho
  exact ⟨_, shape, execBuild_of_entries ho, rfl, hshape, hshape.weight_root⟩

/-! ### The codes that GENCODE makes -/

theorem IsTree.length_leaves_le {s : State} {t : Shape} (h : IsTree s t) : t.leaves.length ≤ 256 := by
  rw [h.leaves_perm.length_eq]; exact length_observed_le s.freq

/-- Every code has 1 to 255 bits (42_code_generator.md R137). -/
theorem IsTree.length_paths {s : State} {t : Shape} (h : IsTree s t) {e : Byte × List Bool} (he : e ∈ t.paths) :
    1 ≤ e.2.length ∧ e.2.length ≤ 255 :=
  ⟨Shape.one_le_length_paths h.proper e he,
    (Shape.length_paths_le t e he).trans (Shape.depth_le_of_proper h.proper h.length_leaves_le)⟩

/-- The generated table holds the paths and nothing else (R135). -/
theorem IsTree.genTable_eq {s : State} {t : Shape} (h : IsTree s t) :
    genTable s.node s.root = writePaths [] t.paths emptyTable := by
  have hdepth := Shape.depth_le_of_proper h.proper h.length_leaves_le
  rw [genTable, h.root_eq]
  exact walkTree_eq s.node h.held Config.maxLeaves (Nat.lt_succ_of_le hdepth) [] emptyTable

theorem IsTree.codeAt_genTable_of_path {s : State} {t : Shape} (h : IsTree s t) {e : Byte × List Bool} (he : e ∈ t.paths) :
    codeAt (genTable s.node s.root) e.1 = codeEntry e.2 := by
  rw [h.genTable_eq, codeAt_writePaths_of_mem [] _ (Shape.map_fst_paths t ▸ h.nodup_leaves) he]
  rfl

/-- A symbol without a frequency has no leaf, and so no code (10_state.md R46). -/
theorem IsTree.codeAt_genTable_of_absent {s : State} {t : Shape} (h : IsTree s t) {x : Byte} (hx : freqAt s.freq x = 0#32) :
    codeAt (genTable s.node s.root) x = CodeEntry.blank := by
  rw [h.genTable_eq, codeAt_writePaths_of_not_mem, codeAt_blank]
  rw [Shape.map_fst_paths, (h.leaves_perm.map Prod.fst).mem_iff]
  intro hm
  obtain ⟨e, he, rfl⟩ := List.mem_map.1 hm
  exact (mem_observed.1 he).2 hx

theorem IsTree.isCodeTable_generated {s : State} {t : Shape} (h : IsTree s t) : IsCodeTable (generated s) t := by
  refine ⟨fun e he => ?_, fun x k hk => ?_, fun x hx => h.codeAt_genTable_of_absent hx⟩
  · have hlen := h.length_paths he
    refine ⟨?_, hlen⟩
    show codeString (codeAt (genTable s.node s.root) e.1) = e.2
    rw [h.codeAt_genTable_of_path he, codeString_codeEntry hlen.2]
  · change (codeAt (genTable s.node s.root) x).len.toNat ≤ k at hk
    show (codeAt (genTable s.node s.root) x).bits.getMsbD k = false
    by_cases hx : freqAt s.freq x = 0#32
    · simp [h.codeAt_genTable_of_absent hx, CodeEntry.blank]
    · obtain ⟨p, hp⟩ := h.exists_path hx
      have hlen := (h.length_paths hp).2
      rw [h.codeAt_genTable_of_path hp] at hk ⊢
      rw [length_codeEntry hlen] at hk
      rw [getMsbD_codeEntry hlen, List.getD_eq_default _ _ hk]

/-- `Σ_s FREQ[s] * CODE[s].len` is far below 2^64: GENCODE's sum is exact (42_code_generator.md R138). -/
theorem weightedLength_lt (s : State) : weightedLength s < 2 ^ 48 := by
  have h : weightedLength s ≤ allSymbols.length * ((2 ^ 32 - 1) * 255) := by
    refine sum_map_le _ _ _ (fun x _ => Nat.mul_le_mul ?_ ?_)
    · have := (freqAt s.freq x).isLt; omega
    · have := (codeAt s.code x).len.isLt; omega
  rw [length_allSymbols] at h
  omega

theorem IsTree.tbits_generated {s : State} {t : Shape} (h : IsTree s t) :
    (generated s).tbits.toNat = weightedLength (generated s) := by
  have hsum : totalBits s.node (genTable s.node s.root) s.nodeCount.toNat = weightedLength (generated s) := by
    rw [totalBits, ← (h.indices_perm.map _).sum_eq, sum_leafBits _ _ h.held, (h.leaves_perm.map _).sum_eq]
    exact sum_observed s.freq (fun x w => w.toNat * (codeAt (genTable s.node s.root) x).len.toNat)
      (fun x => Nat.zero_mul _)
  have hlt := weightedLength_lt (generated s)
  show (BitVec.ofNat 64 _).toNat = _
  rw [hsum, BitVec.toNat_ofNat, Nat.mod_eq_of_lt (by omega)]

end Sys2Proof.Machine
end

section
/-! The statements of 10_state.md on every step: the tree, the codes, the flags and the counts are kept (R36 to R54). -/

namespace Sys2Proof.Machine

/-! ### The results of BUILD and GENCODE through a step -/

/-- Two states agree on the frequency table and on all that BUILD and GENCODE leave. -/
structure SameResults (s t : State) : Prop where
  treeValid : t.treeValid = s.treeValid
  codesValid : t.codesValid = s.codesValid
  alpha : t.alpha = s.alpha
  total : t.total = s.total
  tbits : t.tbits = s.tbits
  root : t.root = s.root
  nodeCount : t.nodeCount = s.nodeCount
  freq : t.freq = s.freq
  node : t.node = s.node
  code : t.code = s.code

theorem sameResults_finish (s : State) : SameResults s (finish s) := by constructor <;> rfl

/-- Host stores leave the results alone. -/
theorem sameResults_storeBytes (s : State) (a : Word) (bs : List Byte) : SameResults s (storeBytes s a bs) := by
  obtain ⟨m, e, h, -⟩ := storeBytes_eq s a bs
  rw [h]
  constructor <;> rfl

/-- ENCODE and DECODE leave the results alone (30_encoding.md R90). -/
theorem CodecEnds.sameResults {i : Instr} {s t : State} (h : CodecEnds i s t) : SameResults s t := by
  rcases h with ⟨mem, out, inc, bits, a, e, rfl, -⟩ | ⟨mem, out, rfl, -⟩ <;> constructor <;> rfl

/-- A property of the results holds through every step if it holds at reset and survives a change of the frequency table with its
invalidation (10_state.md R51), BUILD and GENCODE: nothing else touches what it speaks of. -/
theorem step_keeps_results (P : State → Prop) (congr : ∀ s t, SameResults s t → P s → P t) (reset : P State.reset)
    (changed : ∀ s f, P s → P (invalidate { s with freq := f }))
    (build : ∀ s t, P s → exec .build s = .next t → P t)
    (gencode : ∀ s t, P s → exec .gencode s = .next t → P t) {s t : State} (h : P s) (hs : step s = .next t) : P t := by
  have same : ∀ {u v : State}, SameResults u v → P u → P v := congr _ _
  have command : ∀ s t i, s.engine.isSome = true → P s → exec i s = .next t → P t := by
    intro s t i _ hp hx
    cases i with
    | nop => cases hx; exact same (sameResults_finish s) hp
    | clrfreq => cases hx; exact same (sameResults_finish _) (changed s emptyFreq hp)
    | build => exact build s t hp hx
    | gencode => exact gencode s t hp hx
    | encode => exact same (codec_next (Or.inl rfl) hx).sameResults hp
    | decode => exact same (codec_next (Or.inr rfl) hx).sameResults hp
  refine step_keeps P (fun s _ _ _ => same ?_) (fun s _ _ => same ?_) (fun s a bs => same (sameResults_storeBytes s a bs))
    (fun s => same ?_) (fun s _ => same ?_ reset) (fun s _ => same ?_ reset) (fun s _ => same ?_) (fun s _ => same ?_)
    (fun s _ => same ?_) (fun s i v => changed s (s.freq.setIfInBounds i.toNat v)) (fun s _ _ _ _ => same ?_)
    (fun s => same ?_) command h hs
  all_goals constructor <;> rfl

/-! ### The tree and the codes -/

theorem IsTree.of_sameResults {s t : State} (hs : SameResults s t) {sh : Shape} (h : IsTree s sh) : IsTree t sh := by
  unfold IsTree
  rw [hs.node, hs.root, hs.nodeCount, hs.freq]
  exact h

theorem TreeOk.of_sameResults {s t : State} (hs : SameResults s t) (h : TreeOk s) : TreeOk t := fun hv =>
  (h (hs.treeValid ▸ hv)).imp fun _ => IsTree.of_sameResults hs

theorem CodesOk.of_sameResults {s t : State} (hs : SameResults s t) (h : CodesOk s) : CodesOk t := by
  intro hv
  obtain ⟨sh, htree, hcodes, htbits⟩ := h (hs.codesValid ▸ hv)
  refine ⟨sh, htree.of_sameResults hs, ?_, ?_⟩
  · unfold IsCodeTable
    rw [hs.freq, hs.code]
    exact hcodes
  · unfold weightedLength
    rw [hs.tbits, hs.freq, hs.code]
    exact htbits

theorem treeOk_of_invalid {s : State} (h : s.treeValid = false) : TreeOk s := fun hv => by rw [h] at hv; cases hv

theorem codesOk_of_invalid {s : State} (h : s.codesValid = false) : CodesOk s := fun hv => by rw [h] at hv; cases hv

/-- BUILD either clears `TREE_VALID` or makes the tree (R49, R51), and it always clears `CODES_VALID` (R52). -/
theorem build_treeOk {s t : State} (h : exec .build s = .next t) : TreeOk t := by
  rcases build_next h with ⟨-, rfl⟩ | ⟨ho, rfl⟩
  · exact treeOk_of_invalid rfl
  · exact fun _ => builtTree_isTree ho

theorem build_codesOk {s t : State} (h : exec .build s = .next t) : CodesOk t := by
  rcases build_next h with ⟨-, rfl⟩ | ⟨-, rfl⟩ <;> exact codesOk_of_invalid rfl

/-- GENCODE leaves the tree alone. -/
theorem gencode_treeOk {s t : State} (hs : TreeOk s) (h : exec .gencode s = .next t) : TreeOk t := by
  rcases gencode_next h with ⟨-, rfl⟩ | ⟨-, rfl⟩ <;> exact hs

/-- GENCODE makes the codes of the tree, or changes nothing where there is none (R50, R52). -/
theorem gencode_codesOk {s t : State} (ht : TreeOk s) (hc : CodesOk s) (h : exec .gencode s = .next t) : CodesOk t := by
  rcases gencode_next h with ⟨-, rfl⟩ | ⟨hv, rfl⟩
  · exact hc
  · obtain ⟨sh, hsh⟩ := ht hv
    exact fun _ => ⟨sh, hsh, hsh.isCodeTable_generated, hsh.tbits_generated⟩

/-- Settles O58: a change of `FREQ` clears the flag, and BUILD sets it for the tree it makes. -/
theorem stepKeepsTheTree : Obligations.StepKeepsTheTree := by
  unfold Obligations.StepKeepsTheTree
  intro s t
  exact step_keeps_results TreeOk (fun _ _ => TreeOk.of_sameResults) (treeOk_of_invalid rfl)
    (fun _ _ _ => treeOk_of_invalid rfl) (fun _ _ _ => build_treeOk) (fun _ _ => gencode_treeOk)

/-- Settles O59: the tree and the codes are kept together, for GENCODE reads the tree. -/
theorem stepKeepsTheCodes : Obligations.StepKeepsTheCodes := by
  unfold Obligations.StepKeepsTheCodes
  intro s t htree hcodes hs
  have h := step_keeps_results (fun s => TreeOk s ∧ CodesOk s) (fun _ _ h hp => ⟨hp.1.of_sameResults h, hp.2.of_sameResults h⟩)
    ⟨treeOk_of_invalid rfl, codesOk_of_invalid rfl⟩ (fun _ _ _ => ⟨treeOk_of_invalid rfl, codesOk_of_invalid rfl⟩)
    (fun _ _ _ hx => ⟨build_treeOk hx, build_codesOk hx⟩)
    (fun _ _ hp hx => ⟨gencode_treeOk hp.1 hx, gencode_codesOk hp.1 hp.2 hx⟩) ⟨htree, hcodes⟩ hs
  exact h.2

/-! ### The counts -/

theorem CountsOk.of_sameResults {s t : State} (hs : SameResults s t) (h : CountsOk s) : CountsOk t := by
  unfold CountsOk
  rw [hs.alpha, hs.total, hs.nodeCount, hs.root]
  exact h

/-- `ALPHA` and `TOTAL` hold the numbers that BUILD writes into them (10_state.md R36, R37). -/
theorem toNat_ofNat_length_observed (f : Vector Word 256) : (BitVec.ofNat 9 (observed f).length).toNat = (observed f).length :=
  Nat.mod_eq_of_lt (by have := length_observed_le f; omega)

theorem toNat_ofNat_freqTotal (f : Vector Word 256) : (BitVec.ofNat 64 (freqTotal f)).toNat = freqTotal f :=
  Nat.mod_eq_of_lt (by have := freqTotal_le f; omega)

theorem builtEmpty_countsOk (s : State) : CountsOk (builtEmpty s) :=
  ⟨(toNat_ofNat_length_observed s.freq).trans_le (length_observed_le s.freq),
    (toNat_ofNat_freqTotal s.freq).trans_le (freqTotal_le s.freq), Nat.zero_le _, fun _ => rfl,
    fun h => absurd h (Nat.lt_irrefl 0)⟩

/-- A tree has 2 to 511 nodes, and its root is the last (R39, R40; 41_tree_builder.md R126). -/
theorem builtTree_countsOk {s : State} (h : observed s.freq ≠ []) : CountsOk (builtTree s) := by
  have hle := length_growTree_le s.freq
  have hpos : 0 < (growTree s.freq).length := List.length_pos_iff.2 (mt growTree_eq_nil.1 h)
  have hcount := toNat_nodeCount_builtTree s
  have hroot : (builtTree s).root.toNat = (growTree s.freq).length - 1 := Nat.mod_eq_of_lt (by omega)
  exact ⟨(toNat_ofNat_length_observed s.freq).trans_le (length_observed_le s.freq),
    (toNat_ofNat_freqTotal s.freq).trans_le (freqTotal_le s.freq), by omega, by omega, by omega⟩

theorem build_countsOk {s t : State} (h : exec .build s = .next t) : CountsOk t := by
  rcases build_next h with ⟨-, rfl⟩ | ⟨ho, rfl⟩
  · exact builtEmpty_countsOk s
  · exact builtTree_countsOk ho

theorem gencode_countsOk {s t : State} (hs : CountsOk s) (h : exec .gencode s = .next t) : CountsOk t := by
  rcases gencode_next h with ⟨-, rfl⟩ | ⟨-, rfl⟩ <;> exact hs

theorem reset_countsOk : CountsOk State.reset := by unfold CountsOk; decide

/-- Settles O57: only BUILD writes these registers. -/
theorem stepKeepsTheCounts : Obligations.StepKeepsTheCounts := by
  unfold Obligations.StepKeepsTheCounts
  intro s t
  exact step_keeps_results CountsOk (fun _ _ => CountsOk.of_sameResults) reset_countsOk (fun _ _ h => h)
    (fun _ _ _ => build_countsOk) (fun _ _ => gencode_countsOk)

/-! ### The flags -/

theorem reset_flagsOk : FlagsOk State.reset := by unfold FlagsOk; decide

/-- A completion of a command keeps the flags' relations: the block is idle, and the code is one of 60_exceptions.md R206. -/
theorem flagsOk_of_idle {s : State} (hv : s.codesValid = true → s.treeValid = true) (hi : s.engine = none)
    (he : s.errcode.toNat ≤ 0x0D) : FlagsOk s :=
  ⟨hv, fun hb => by simp [State.busy, hi] at hb, he⟩

theorem CodecEnds.flagsOk {i : Instr} {s t : State} (hb : s.busy = true) (h : FlagsOk s) (hx : CodecEnds i s t) :
    FlagsOk t := by
  obtain ⟨hv, hbusy, he⟩ := h
  rcases hx with ⟨mem, out, inc, bits, a, e, rfl, -, he'⟩ | ⟨mem, out, rfl, -⟩
  · exact flagsOk_of_idle hv rfl he'
  · exact ⟨hv, fun _ => hbusy hb, he⟩

theorem exec_flagsOk {i : Instr} {s t : State} (hb : s.busy = true) (h : FlagsOk s) (hx : exec i s = .next t) :
    FlagsOk t := by
  have hkeep : s.codesValid = true → s.treeValid = true := h.1
  cases i with
  | nop => cases hx; exact flagsOk_of_idle hkeep rfl (Nat.zero_le _)
  | clrfreq => cases hx; exact flagsOk_of_idle (fun hv => nomatch hv) rfl (Nat.zero_le _)
  | build =>
    rcases build_next hx with ⟨-, rfl⟩ | ⟨-, rfl⟩
    · exact flagsOk_of_idle (fun hv => nomatch hv) rfl (errValue_le _)
    · exact flagsOk_of_idle (fun _ => rfl) rfl (Nat.zero_le _)
  | gencode =>
    rcases gencode_next hx with ⟨-, rfl⟩ | ⟨hv, rfl⟩
    · exact flagsOk_of_idle hkeep rfl (errValue_le _)
    · exact flagsOk_of_idle (fun _ => hv) rfl (Nat.zero_le _)
  | encode => exact (codec_next (Or.inl rfl) hx).flagsOk hb h
  | decode => exact (codec_next (Or.inr rfl) hx).flagsOk hb h

/-- The relations do not see what the engine runs, only whether it runs something. -/
theorem FlagsOk.of_engine {s : State} (h : FlagsOk s) (m : Memory) {e : Option Running} (he : e.isSome = s.engine.isSome) :
    FlagsOk { s with mem := m, engine := e } := by
  obtain ⟨hv, hbusy, hcode⟩ := h
  exact ⟨hv, fun hb => hbusy (he.symm.trans hb), hcode⟩

theorem flagsOk_storeBytes {s : State} (h : FlagsOk s) (a : Word) (bs : List Byte) : FlagsOk (storeBytes s a bs) := by
  obtain ⟨m, e, hst, he, -⟩ := storeBytes_eq s a bs
  rw [hst]
  exact h.of_engine m he

/-- A write to STATUS clears flags only (40_control_and_frequency.md R107). -/
theorem flagsOk_writeStatus {s : State} (h : FlagsOk s) (v : Word) : FlagsOk (writeStatus v s) := by
  obtain ⟨hv, hbusy, hcode⟩ := h
  refine ⟨hv, fun hb => ⟨?_, (hbusy hb).2⟩, hcode⟩
  simp [writeStatus, (hbusy hb).1]

/-- A command begins with `DONE` and `ERRCODE` clear (R100). -/
theorem flagsOk_acceptCommand {s : State} (h : FlagsOk s) (w : Word) : FlagsOk (acceptCommand w s) :=
  ⟨h.1, fun _ => ⟨rfl, rfl⟩, Nat.zero_le _⟩

theorem flagsOk_setFreq {s : State} (h : FlagsOk s) (i : Byte) (v : Word) : FlagsOk (setFreq i v s) :=
  ⟨fun hv => (nomatch hv), h.2⟩

/-- Settles O56: what the host does sets no flag these relations speak of, a command begins with `DONE` and `ERRCODE` clear, and
each way a command ends keeps them. -/
theorem stepKeepsTheFlags : Obligations.StepKeepsTheFlags := by
  unfold Obligations.StepKeepsTheFlags
  intro s t
  exact step_keeps FlagsOk (fun _ _ _ _ h => h) (fun s _ he h => h.of_engine s.mem he)
    (fun _ a bs h => flagsOk_storeBytes h a bs) (fun _ h => h) (fun _ _ => reset_flagsOk) (fun _ _ => reset_flagsOk)
    (fun _ _ h => h) (fun _ v h => flagsOk_writeStatus h v) (fun _ w h => flagsOk_acceptCommand h w)
    (fun _ i v h => flagsOk_setFreq h i v) (fun _ _ _ _ _ h => h) (fun _ h => flagsOk_of_idle h.1 rfl (errValue_le _))
    (fun _ _ _ hb h hx => exec_flagsOk hb h hx)

/-! ### Reset -/

/-- Settles O54: both valid flags are clear, so no tree and no code is claimed. -/
theorem resetMeetsTheInvariants : Obligations.ResetMeetsTheInvariants :=
  ⟨rfl, reset_flagsOk, reset_countsOk, treeOk_of_invalid rfl, codesOk_of_invalid rfl⟩

end Sys2Proof.Machine
end

section
/-! The register window (10_state.md R22 to R57): the map, the reads and the reset values. -/

namespace Sys2Proof.Machine

/-! ### The register map -/

theorem regAt_of_aligned {off : Word} (h4 : off.toNat % 4 = 0) (hn : off.toNat < 0x8000) :
    regAt off = some (regInMap off.toNat) := if_pos ⟨h4, hn⟩

theorem regAt_ofNat {n : Nat} (h4 : n % 4 = 0) (hn : n < 0x8000) : regAt (BitVec.ofNat 32 n) = some (regInMap n) := by
  have h : (BitVec.ofNat 32 n).toNat = n := Nat.mod_eq_of_lt (by omega)
  rw [regAt_of_aligned (by omega) (by omega), h]

theorem regAt_eq_some {off : Word} {r : Reg} (h : regAt off = some r) :
    off.toNat % 4 = 0 ∧ off.toNat < 0x8000 ∧ regInMap off.toNat = r := by
  unfold regAt at h
  split at h
  · next hw => exact ⟨hw.1, hw.2, Option.some.inj h⟩
  · cases h

/-- The first of the window's five ranges holds the named registers (R22); FREQ, reserved words, the NODE and the CODE window
follow it (R41, R42, R44, R47). -/
theorem regInMap_low {n : Nat} (h : n < 0x400) : regInMap n = lowReg (n / 4) := by
  rw [regInMap, if_pos h]

theorem regInMap_freq {n : Nat} (h1 : 0x400 ≤ n) (h2 : n < 0x800) :
    regInMap n = .freq (BitVec.ofNat 8 ((n - 0x400) / 4)) := by
  rw [regInMap, if_neg (by omega), if_pos h2]

theorem regInMap_reserved {n : Nat} (h1 : 0x800 ≤ n) (h2 : n < 0x2000) : regInMap n = .reserved := by
  rw [regInMap, if_neg (by omega), if_neg (by omega), if_pos h2]

theorem regInMap_node {n : Nat} (h1 : 0x2000 ≤ n) (h2 : n < 0x4000) :
    regInMap n = .nodeWord (BitVec.ofNat 9 ((n - 0x2000) / 16)) (BitVec.ofNat 2 (n % 16 / 4)) := by
  rw [regInMap, if_neg (by omega), if_neg (by omega), if_neg (by omega), if_pos h2]

theorem regInMap_code {n : Nat} (h : 0x4000 ≤ n) :
    regInMap n = .codeWord (BitVec.ofNat 8 ((n - 0x4000) / 64)) (BitVec.ofNat 4 (n % 64 / 4)) := by
  rw [regInMap, if_neg (by omega), if_neg (by omega), if_neg (by omega), if_neg (by omega)]

theorem lowReg_of_ge {k : Nat} (h : 21 ≤ k) : lowReg k = .reserved := by
  obtain ⟨d, rfl⟩ := Nat.exists_eq_add_of_le' h
  rfl

/-- The 21 named registers stand at their word index (R22). -/
theorem regOffset_lowReg {k : Nat} (h : lowReg k ≠ .reserved) : regOffset (lowReg k) = BitVec.ofNat 32 (4 * k) := by
  by_cases hk : k < 21
  · revert h
    revert k
    decide
  · exact absurd (lowReg_of_ge (by omega)) h

theorem regAt_freqOffset (x : Byte) : regAt (BitVec.ofNat 32 (0x400 + 4 * x.toNat)) = some (.freq x) := by
  have hx := x.isLt
  rw [regAt_ofNat (by omega) (by omega), regInMap_freq (by omega) (by omega)]
  rw [show (0x400 + 4 * x.toNat - 0x400) / 4 = x.toNat by omega, BitVec.ofNat_toNat, BitVec.setWidth_eq]

theorem regAt_nodeOffset (i : NodeIdx) (w : BitVec 2) :
    regAt (BitVec.ofNat 32 (0x2000 + 16 * i.toNat + 4 * w.toNat)) = some (.nodeWord i w) := by
  have hi := i.isLt
  have hw := w.isLt
  rw [regAt_ofNat (by omega) (by omega), regInMap_node (by omega) (by omega)]
  rw [show (0x2000 + 16 * i.toNat + 4 * w.toNat - 0x2000) / 16 = i.toNat by omega,
    show (0x2000 + 16 * i.toNat + 4 * w.toNat) % 16 / 4 = w.toNat by omega]
  simp

theorem regAt_codeOffset (x : Byte) (w : BitVec 4) :
    regAt (BitVec.ofNat 32 (0x4000 + 64 * x.toNat + 4 * w.toNat)) = some (.codeWord x w) := by
  have hx := x.isLt
  have hw := w.isLt
  rw [regAt_ofNat (by omega) (by omega), regInMap_code (by omega)]
  rw [show (0x4000 + 64 * x.toNat + 4 * w.toNat - 0x4000) / 64 = x.toNat by omega,
    show (0x4000 + 64 * x.toNat + 4 * w.toNat) % 64 / 4 = w.toNat by omega]
  simp

theorem regAt_regOffset {r : Reg} (h : r ≠ .reserved) : regAt (regOffset r) = some r := by
  cases r with
  | freq x => exact regAt_freqOffset x
  | nodeWord i w => exact regAt_nodeOffset i w
  | codeWord x w => exact regAt_codeOffset x w
  | reserved => exact absurd rfl h
  | _ => rfl

/-- A word that is not reserved stands at one offset only. -/
theorem eq_regOffset_of_regAt {off : Word} {r : Reg} (h : regAt off = some r) (hr : r ≠ .reserved) : off = regOffset r := by
  obtain ⟨h4, hlt, rfl⟩ := regAt_eq_some h
  apply BitVec.eq_of_toNat_eq
  generalize off.toNat = n at h4 hlt hr ⊢
  by_cases h1 : n < 0x400
  · rw [regInMap_low h1] at hr ⊢
    rw [regOffset_lowReg hr, BitVec.toNat_ofNat]
    omega
  by_cases h2 : n < 0x800
  · rw [regInMap_freq (by omega) h2]
    simp only [regOffset, BitVec.toNat_ofNat]
    omega
  by_cases h3 : n < 0x2000
  · exact absurd (regInMap_reserved (by omega) h3) hr
  by_cases h5 : n < 0x4000
  · rw [regInMap_node (by omega) h5]
    simp only [regOffset, BitVec.toNat_ofNat]
    omega
  · rw [regInMap_code (by omega)]
    simp only [regOffset, BitVec.toNat_ofNat]
    omega

/-- Settles O3: each range of the map is undone by the offsets of its words. -/
theorem registerMapIsABijection : Obligations.RegisterMapIsABijection := by
  unfold Obligations.RegisterMapIsABijection
  exact ⟨by decide, regAt_freqOffset, regAt_nodeOffset, regAt_codeOffset, fun _ => regAt_regOffset,
    fun _ _ => eq_regOffset_of_regAt⟩

theorem regAt_reserved {off : Word} (h4 : off.toNat % 4 = 0)
    (h : (0x054 ≤ off.toNat ∧ off.toNat < 0x400) ∨ (0x800 ≤ off.toNat ∧ off.toNat < 0x2000)) :
    regAt off = some .reserved := by
  rw [regAt_of_aligned h4 (by omega)]
  rcases h with ⟨h1, h2⟩ | ⟨h1, h2⟩
  · rw [regInMap_low h2, lowReg_of_ge (by omega)]
  · rw [regInMap_reserved h1 h2]

theorem readReg_nodeWord_reserved (s : State) (i : NodeIdx) : readReg s (.nodeWord i 3#2) = 0#32 := rfl

theorem readReg_codeWord_reserved (s : State) (x : Byte) {w : BitVec 4} (h : 9 ≤ w.toNat) :
    readReg s (.codeWord x w) = 0#32 := if_pos h

/-- Settles O4: they stand in two ranges of the map and behind the words in use of the two windows. -/
theorem reservedWordsReadZero : Obligations.ReservedWordsReadZero := by
  unfold Obligations.ReservedWordsReadZero
  exact ⟨fun _ => regAt_reserved, fun _ _ => ⟨rfl, rfl⟩,
    fun s i _ => ⟨regAt_nodeOffset i 3#2, readReg_nodeWord_reserved s i, rfl⟩,
    fun s x w _ hw => ⟨regAt_codeOffset x w, readReg_codeWord_reserved s x hw, rfl⟩⟩

/-- A 4-byte write at a register's offset is that register's write (20_memory.md R65). -/
theorem busWrite_of_regAt {off : Word} {r : Reg} (h : regAt off = some r) (v : Word) (s : State) :
    busWrite 4 off v s = writeReg s r v := by
  simp [busWrite, h]

theorem guardedWrite_of_idle {s : State} (h : s.busy = false) (stored : State) : guardedWrite s stored = stored := by
  simp [guardedWrite, h]

/-- Settles O9: an idle block stores the write. -/
theorem cmdWriteWhileIdleIsAccepted : Obligations.CmdWriteWhileIdleIsAccepted := by
  unfold Obligations.CmdWriteWhileIdleIsAccepted
  intro s w h
  have hreg : regAt 0x00C#32 = some .cmd := by decide
  rw [hostAct, busWrite_of_regAt hreg, writeReg, guardedWrite_of_idle h]
  rfl

/-! ### STATUS -/

theorem getLsbD_flagBit (b : Bool) {pos : Nat} (h : pos < 32) (k : Nat) :
    (flagBit b pos).getLsbD k = (b && decide (k = pos)) := by
  cases b
  · simp [flagBit]
  · simp [flagBit, BitVec.getLsbD_twoPow, h, eq_comm]

/-- Each bit of STATUS (R26). -/
theorem getLsbD_statusWord (s : State) (k : Nat) :
    (statusWord s).getLsbD k =
      (s.busy && decide (k = 0) || s.done && decide (k = 1) || !(s.errcodeRead == 0#8) && decide (k = 2) ||
        (validFlagsShown s).1 && decide (k = 3) || (validFlagsShown s).2 && decide (k = 4) || s.ovr && decide (k = 5)) := by
  simp only [statusWord, BitVec.getLsbD_or, getLsbD_flagBit _ (show 0 < 32 by omega), getLsbD_flagBit _ (show 1 < 32 by omega),
    getLsbD_flagBit _ (show 2 < 32 by omega), getLsbD_flagBit _ (show 3 < 32 by omega),
    getLsbD_flagBit _ (show 4 < 32 by omega), getLsbD_flagBit _ (show 5 < 32 by omega)]

/-- A valid flag shows its value before the command or after it (log 9). -/
theorem flagShown_cases (tick : Nat) (now after : Bool) :
    flagShown tick now after = now ∨ flagShown tick now after = after := by
  unfold flagShown
  split
  · exact Or.inl rfl
  · split
    · exact Or.inr rfl
    · exact Or.inl rfl

@[simp] theorem flagShown_same (tick : Nat) (b : Bool) : flagShown tick b b = b := if_pos rfl

theorem validFlagsShown_of_idle {s : State} (h : s.engine = none) : validFlagsShown s = (s.treeValid, s.codesValid) := by
  simp [validFlagsShown, h]

theorem validFlagsShown_of_running {s : State} {r : Running} (h : s.engine = some r) :
    validFlagsShown s = (flagShown s.tick s.treeValid (flagsAfter r.word s).1,
      flagShown s.tick s.codesValid (flagsAfter r.word s).2) := by
  simp [validFlagsShown, h]

/-- NOP, ENCODE, DECODE and an illegal word leave the valid flags alone (R51, R52). -/
theorem flagsAfter_of_keeps {w : Word} (s : State) (h : ∀ i, decode w = .ok i → i = .nop ∨ i = .encode ∨ i = .decode) :
    flagsAfter w s = (s.treeValid, s.codesValid) := by
  unfold flagsAfter
  cases hd : decode w with
  | error e => rfl
  | ok i => rcases h i hd with rfl | rfl | rfl <;> rfl

theorem busy_eq_false {s : State} : s.busy = false ↔ s.engine = none := by
  simp [State.busy]

theorem toNat_readReg_errcode (s : State) : (readReg s .errcode).toNat = s.errcodeRead.toNat :=
  BitVec.toNat_setWidth_of_le (by omega)

theorem readReg_errcode_eq_zero {s : State} : readReg s .errcode = 0#32 ↔ s.errcodeRead = 0#8 := by
  rw [BitVec.toNat_eq, BitVec.toNat_eq, toNat_readReg_errcode]
  rfl

/-- Settles O15: `flagsAfter` is what the command leaves, and a shown flag is the one before or the one after. -/
theorem statusBits : Obligations.StatusBits := by
  unfold Obligations.StatusBits
  intro s
  have h3 : (statusWord s).getLsbD 3 = (validFlagsShown s).1 := (getLsbD_statusWord s 3).trans (by simp)
  have h4 : (statusWord s).getLsbD 4 = (validFlagsShown s).2 := (getLsbD_statusWord s 4).trans (by simp)
  refine ⟨(getLsbD_statusWord s 0).trans (by simp), (getLsbD_statusWord s 1).trans (by simp), ?_, fun hb => ?_,
    fun r hr => ⟨fun i t hd hx => ?_, fun hk => ?_⟩, (getLsbD_statusWord s 5).trans (by simp), fun k hk => ?_⟩
  · rw [getLsbD_statusWord, ne_eq, readReg_errcode_eq_zero]
    simp
  · rw [h3, h4, validFlagsShown_of_idle (busy_eq_false.1 hb)]
    exact ⟨rfl, rfl⟩
  · rw [h3, h4, validFlagsShown_of_running hr, flagsAfter_eq hd hx]
    exact ⟨flagShown_cases _ _ _, flagShown_cases _ _ _⟩
  · rw [h3, h4, validFlagsShown_of_running hr, flagsAfter_of_keeps s hk]
    exact ⟨flagShown_same _ _, flagShown_same _ _⟩
  · rw [getLsbD_statusWord]
    simp [show k ≠ 0 by omega, show k ≠ 1 by omega, show k ≠ 2 by omega, show k ≠ 3 by omega, show k ≠ 4 by omega,
      show k ≠ 5 by omega]

/-! ### Reads that are defined while BUSY (R57) -/

/-- A legal command word is the word of its command (30_encoding.md R88). -/
theorem eq_encode_of_decode {w : Word} {i : Instr} (h : decode w = .ok i) : w = encode i := by
  unfold decode at h
  split at h
  · next hrsv =>
    have hop : opField w = opcode i := by
      unfold decodeOp at h
      split at h <;> cases h <;> exact BitVec.eq_of_toNat_eq ‹_›
    have hw : w = rsvField w ++ opField w := by
      unfold rsvField opField
      exact (BitVec.extractLsb'_append_extractLsb' (len := 4) (w := 28)).symm
    rw [hw, hrsv, hop]
    rfl
  · cases h

theorem clearingFreq_running {s : State} (h : clearingFreq s = true) : ∃ r, s.engine = some r ∧ r.word = 0x00000001#32 := by
  unfold clearingFreq at h
  split at h
  · next hw =>
    obtain ⟨w, hrun, hd⟩ := Option.map_eq_some_iff.1 hw
    obtain ⟨r, hr, rfl⟩ := Option.map_eq_some_iff.1 hrun
    exact ⟨r, hr, eq_encode_of_decode hd⟩
  · cases h

theorem clearingFreq_of_idle {s : State} (h : s.engine = none) : clearingFreq s = false := by
  simp [clearingFreq, State.runningWord, h]

/-- Settles O16: `busyRead` stands before none of these registers, and only CLRFREQ may show 0 for an entry of `FREQ`. -/
theorem definedReadsWhileBusy : Obligations.DefinedReadsWhileBusy := by
  unfold Obligations.DefinedReadsWhileBusy
  intro s
  refine ⟨fun hb => ⟨?_, ?_⟩, rfl, rfl, rfl, rfl, rfl, rfl, fun i => ?_, fun hb i => ?_⟩
  · simp [readReg, getLsbD_statusWord, hb]
  · simp [readReg, State.errcodeRead, hb]
  · simp only [readReg, readFreq]
    split
    · next hc => exact Or.inr ⟨rfl, clearingFreq_running (Bool.and_eq_true_iff.1 hc).1⟩
    · exact Or.inl rfl
  · simp [readReg, readFreq, clearingFreq_of_idle (busy_eq_false.1 hb)]

/-! ### Reads while idle (R59) -/

theorem unlessBusy_of_idle {s : State} (h : s.busy = false) (v : Word) : unlessBusy s v = v := by
  simp [unlessBusy, h]

/-- The two halves of a 64-bit quantity give it back (R59). -/
theorem highWord_lowWord (q : Quad) : (highWord q).toNat * 2 ^ 32 + (lowWord q).toNat = q.toNat := by
  have := q.isLt
  simp only [highWord, lowWord, BitVec.extractLsb'_toNat, Nat.shiftRight_eq_div_pow]
  omega

/-- Settles O19: while idle no register reads a free value, and the halves of a 64-bit quantity give it back. -/
theorem resultRegistersRead : Obligations.ResultRegistersRead := by
  unfold Obligations.ResultRegistersRead
  intro s hb
  have he : s.errcodeRead = s.errcode := by simp [State.errcodeRead, hb]
  refine ⟨(toNat_readReg_errcode s).trans (by rw [he]), ?_⟩
  simp only [readReg, unlessBusy_of_idle hb, highWord_lowWord, and_self, and_true, true_and]
  exact ⟨BitVec.toNat_setWidth_of_le (by omega), BitVec.toNat_setWidth_of_le (by omega),
    BitVec.toNat_setWidth_of_le (by omega)⟩

/-! ### The windows -/

/-- A concatenation as a number: the high part counts `2 ^ v`. -/
theorem toNat_append_eq_add {u v : Nat} (x : BitVec u) (y : BitVec v) : (x ++ y).toNat = x.toNat * 2 ^ v + y.toNat := by
  rw [BitVec.toNat_append, ← Nat.shiftLeft_add_eq_or_of_lt y.isLt, Nat.shiftLeft_eq]

/-- NODE_INFO, field by field (R44). -/
theorem toNat_nodeInfo (n : Node) :
    (nodeInfo n).toNat =
      2 ^ 31 + (if n.leaf then 2 ^ 30 else 0) + 2 ^ 18 * n.sym.toNat + 2 ^ 9 * n.right.toNat + n.left.toNat := by
  simp only [nodeInfo, toNat_append_eq_add]
  cases n.leaf <;> simp <;> omega

/-- CODE_INFO, field by field (R47). -/
theorem toNat_codeInfo (e : CodeEntry) :
    (codeInfo e).toNat = (if e.len.toNat = 0 then 0 else 2 ^ 31) + e.len.toNat := by
  have hz : e.len = 0#8 ↔ e.len.toNat = 0 := BitVec.toNat_eq
  simp only [codeInfo, toNat_append_eq_add]
  by_cases h : e.len.toNat = 0
  · simp [hz.2 h]
  · simp [h, beq_eq_false_iff_ne.2 (mt hz.1 h)]

/-- Code position `k` stands at bit `31 - (k mod 32)` of word `BITS(k / 32)` (R47). -/
theorem getLsbD_codeBitsWord (e : CodeEntry) {k : Nat} (hk : k < 256) :
    (codeBitsWord e (k / 32)).getLsbD (31 - k % 32) = e.bits.getMsbD k := by
  have h1 : 31 - k % 32 < 32 := by omega
  have h2 : 224 - 32 * (k / 32) + (31 - k % 32) = 256 - 1 - k := by omega
  rw [codeBitsWord, BitVec.getLsbD_extractLsb', BitVec.getMsbD, h2]
  simp [h1, hk]

theorem nodeWindow_of_invalid {s : State} {i : NodeIdx} (h : s.treeValid = false ∨ s.nodeCount.toNat ≤ i.toNat) (w : BitVec 2) :
    nodeWindow s i w = 0#32 := if_pos h

/-- The words of a node that the window shows (R44): 0 INFO, 1 WLO, 2 WHI, 3 reserved. -/
def nodeWindowWord (n : Node) (w : BitVec 2) : Word :=
  match w.toNat with
  | 0 => nodeInfo n
  | 1 => lowWord n.weight
  | 2 => highWord n.weight
  | _ => 0#32

theorem nodeWindow_of_valid {s : State} {i : NodeIdx} (hv : s.treeValid = true) (hi : i.toNat < s.nodeCount.toNat)
    (w : BitVec 2) : nodeWindow s i w = nodeWindowWord (nodeAt s.node i) w :=
  if_neg (by simp [hv, hi])

theorem codeWindow_of_invalid {s : State} (h : s.codesValid = false) (x : Byte) (w : BitVec 4) : codeWindow s x w = 0#32 :=
  if_pos h

/-- Settles O17: a valid entry reads as the words of its node, whose fields do not overlap. -/
theorem nodeWindowShowsTheArena : Obligations.NodeWindowShowsTheArena := by
  unfold Obligations.NodeWindowShowsTheArena
  intro s i w hb
  simp only [readReg, readNode_of_idle hb]
  refine ⟨fun h => nodeWindow_of_invalid h w, fun hv hi => ?_⟩
  rw [nodeWindow_of_valid hv hi, nodeWindow_of_valid hv hi, nodeWindow_of_valid hv hi]
  exact ⟨toNat_nodeInfo _, highWord_lowWord _⟩

/-- Settles O18: a valid entry reads as its INFO word and its 256 positions, 32 to a word. -/
theorem codeWindowShowsTheTable : Obligations.CodeWindowShowsTheTable := by
  unfold Obligations.CodeWindowShowsTheTable
  intro s x hb
  simp only [readReg, readCode_of_idle hb]
  refine ⟨fun hv w => codeWindow_of_invalid hv x w, fun hv => ⟨?_, fun k hk => ?_⟩⟩
  · simp only [codeWindow, hv]
    exact toNat_codeInfo _
  · have hw : (BitVec.ofNat 4 (1 + k / 32)).toNat = 1 + k / 32 := Nat.mod_eq_of_lt (by omega)
    have hword : codeWindow s x (BitVec.ofNat 4 (1 + k / 32)) = codeBitsWord (codeAt s.code x) (k / 32) := by
      rw [codeWindow, hw, if_neg (by simp [hv]), if_neg (by omega), if_pos (by omega), Nat.add_sub_cancel_left]
    rw [hword, getLsbD_codeBitsWord _ hk]

/-! ### Reset (R58) -/

/-- Settles O21: the block is idle and both valid flags are clear. -/
theorem resetLeavesTheStatedValues : Obligations.ResetLeavesTheStatedValues := by
  unfold Obligations.ResetLeavesTheStatedValues
  have hb : State.reset.busy = false := rfl
  refine ⟨rfl, rfl, by decide, by decide, by decide, by decide, fun i => ?_, fun i w => ?_, fun i w => ?_, rfl, rfl⟩
  · exact freqAt_replicate i
  · simp only [readReg, readNode_of_idle hb, nodeWindow_of_invalid (s := State.reset) (Or.inl rfl)]
  · simp only [readReg, readCode_of_idle hb, codeWindow_of_invalid (s := State.reset) rfl]

/-! ### Contents that no flag vouches for (R45, R48) -/

/-- A state with another arena and another code table. -/
def withContents (n : Vector Node 511) (c : Vector CodeEntry 256) (s : State) : State := { s with node := n, code := c }

section Contents
variable (n : Vector Node 511) (c : Vector CodeEntry 256)

/-- What a read returns depends on the arena and the table through the two windows only. -/
theorem readReg_withContents {s : State} (hn : ∀ i w, nodeWindow (withContents n c s) i w = nodeWindow s i w)
    (hc : ∀ x w, codeWindow (withContents n c s) x w = codeWindow s x w) (r : Reg) :
    readReg (withContents n c s) r = readReg s r := by
  cases r with
  | nodeWord i w =>
    simp only [readReg, readNode, hn]
    rfl
  | codeWord x w =>
    simp only [readReg, readCode, hc]
    rfl
  | _ => rfl

theorem codeWindow_withContents_of_invalid {s : State} (hc : s.codesValid = false) (x : Byte) (w : BitVec 4) :
    codeWindow (withContents n c s) x w = codeWindow s x w := by
  rw [codeWindow_of_invalid hc, codeWindow_of_invalid (show (withContents n c s).codesValid = false from hc)]

theorem readReg_withContents_of_invalid {s : State} (ht : s.treeValid = false) (hc : s.codesValid = false) (r : Reg) :
    readReg (withContents n c s) r = readReg s r := by
  refine readReg_withContents n c (fun i w => ?_) (codeWindow_withContents_of_invalid n c hc) r
  rw [nodeWindow_of_invalid (Or.inl ht), nodeWindow_of_invalid (Or.inl (show (withContents n c s).treeValid = false from ht))]

/-- After BUILD every read shows what BUILD wrote, whatever the arena held before (R45; 41_tree_builder.md R131). -/
theorem readReg_builtTree_withContents (s : State) (r : Reg) :
    readReg (builtTree (withContents n c s)) r = readReg (builtTree s) r := by
  have hlen := length_growTree_le s.freq
  have hcount := toNat_nodeCount_builtTree s
  have hcount' : (builtTree (withContents n c s)).nodeCount.toNat = (growTree s.freq).length := hcount
  have hbuilt : builtTree (withContents n c s) = withContents (writeArena 0 (growTree s.freq) n) c (builtTree s) := rfl
  rw [hbuilt]
  refine readReg_withContents _ c (fun i w => ?_) (codeWindow_withContents_of_invalid _ c rfl) r
  rw [← hbuilt]
  by_cases hi : i.toNat < (growTree s.freq).length
  · have hnode : nodeAt (builtTree (withContents n c s)).node i = nodeAt (builtTree s).node i :=
      (nodeAt_writeArena hi hlen).trans (nodeAt_writeArena hi hlen).symm
    rw [nodeWindow_of_valid rfl (by omega), nodeWindow_of_valid rfl (by omega), hnode]
  · rw [nodeWindow_of_invalid (Or.inr (by omega)), nodeWindow_of_invalid (Or.inr (by omega))]

/-- Without codes ENCODE and DECODE stop at their first check (60_exceptions.md R208). -/
theorem exec_codec_of_noCodes {s : State} {i : Instr} (hi : i = .encode ∨ i = .decode) (hc : s.codesValid = false) :
    exec i s = .next (codecDone s s.mem 0 0 0 0#32 (errValue .noCodes)) := by
  have hp : codecPrecheck s = some .noCodes := if_pos hc
  rcases hi with rfl | rfl
  · exact execEncode_halt (by rw [encodeStream, hp])
  · rw [execDecode_halt (by rw [decodeStream, hp]), endCodec_error, codecDone_decodeStart]

/-- While no flag vouches for them, every command but BUILD carries the contents along and does not look at them. -/
theorem exec_withContents_of_invalid {s t : State} {i : Instr} (ht : s.treeValid = false) (hc : s.codesValid = false)
    (hi : i ≠ .build) (h : exec i s = .next t) : exec i (withContents n c s) = .next (withContents n c t) := by
  have codec : i = .encode ∨ i = .decode → exec i (withContents n c s) = .next (withContents n c t) := fun hi => by
    rw [exec_codec_of_noCodes hi hc] at h
    cases h
    exact exec_codec_of_noCodes hi (show (withContents n c s).codesValid = false from hc)
  cases i with
  | nop => cases h; rfl
  | clrfreq => cases h; rfl
  | build => exact absurd rfl hi
  | gencode =>
    rw [execGencode_of_noTree ht] at h
    cases h
    exact execGencode_of_noTree (show (withContents n c s).treeValid = false from ht)
  | encode => exact codec (Or.inl rfl)
  | decode => exact codec (Or.inr rfl)

end Contents

/-- Settles O50: reads see the contents through the windows, commands through the checks of the flags, and BUILD writes every
node it counts. -/
theorem invalidContentsAreNotObservable : Obligations.InvalidContentsAreNotObservable := by
  unfold Obligations.InvalidContentsAreNotObservable
  intro s n c ht hc
  refine ⟨readReg_withContents_of_invalid n c ht hc, fun i t hi => exec_withContents_of_invalid n c ht hc hi, fun t hx => ?_⟩
  rcases build_next hx with ⟨ho, rfl⟩ | ⟨ho, rfl⟩
  · exact ⟨_, execBuild_of_empty (s := withContents n c s) ho,
      readReg_withContents_of_invalid n c (s := builtEmpty s) rfl rfl⟩
  · exact ⟨_, execBuild_of_entries (s := withContents n c s) ho, readReg_builtTree_withContents n c s⟩

end Sys2Proof.Machine
end

section
/-! The statements of 20_memory.md: the register bus, the canonical form of data memory, the host's stores and loads, the prechecks
of ENCODE and DECODE and what they write, devices, and aborts (R60 to R82). -/

namespace Sys2Proof.Machine

/-! ### The register bus (R65, R68) -/

theorem regAt_of_bad {off : Word} (h : off.toNat % 4 ≠ 0 ∨ 0x8000 ≤ off.toNat) : regAt off = none :=
  if_neg (fun ⟨h4, hlt⟩ => h.elim (fun hn => hn h4) (fun hge => absurd hlt (not_lt.2 hge)))

theorem busWrite_of_bad {size : Nat} {off : Word} (h : size ≠ 4 ∨ regAt off = none) (v : Word) (s : State) :
    busWrite size off v s = respond .busError s := by
  rcases h with h | h <;> simp [busWrite, h]

theorem busRead_of_bad {size : Nat} {off : Word} (h : size ≠ 4 ∨ regAt off = none) (s : State) :
    busRead size off s = respond .busError s := by
  rcases h with h | h <;> simp [busRead, h]

theorem busRead_of_regAt {off : Word} {r : Reg} (h : regAt off = some r) (s : State) :
    busRead 4 off s = respond (.word (readReg s r)) s := by
  simp [busRead, h]

/-- Settles O5: an access finds a register word exactly where it is a 32-bit one at an aligned offset of the window. -/
theorem badAccessGetsErrorAndNoEffect : Obligations.BadAccessGetsErrorAndNoEffect := by
  unfold Obligations.BadAccessGetsErrorAndNoEffect
  intro size off data s
  refine ⟨fun h => ?_, ?_⟩
  · have hbad : size ≠ 4 ∨ regAt off = none := h.imp_right regAt_of_bad
    exact ⟨congrArg _ (busWrite_of_bad hbad data s), congrArg _ (busRead_of_bad hbad s)⟩
  · rintro ⟨rfl, h4, hlt⟩
    have hreg := regAt_of_aligned h4 hlt
    exact ⟨_, hreg, congrArg _ (busWrite_of_regAt hreg data s), congrArg _ (busRead_of_regAt hreg s)⟩

/-- Settles O14: a read is an error response or the register's word. -/
theorem readsHaveNoSideEffect : Obligations.ReadsHaveNoSideEffect := by
  unfold Obligations.ReadsHaveNoSideEffect
  intro s size off
  by_cases hbad : size ≠ 4 ∨ regAt off = none
  · exact ⟨_, congrArg _ (busRead_of_bad hbad s)⟩
  · obtain ⟨hsize, hoff⟩ := not_or.1 hbad
    obtain rfl := not_not.1 hsize
    obtain ⟨r, hreg⟩ := Option.ne_none_iff_exists'.1 hoff
    exact ⟨_, congrArg _ (busRead_of_regAt hreg s)⟩

/-! ### The canonical form of data memory (R60) -/

/-- The four commands that touch no memory answer a next state, and leave the memory alone (R82). -/
theorem exec_of_not_codec {i : Instr} (s : State) (hi : ¬ (i = .encode ∨ i = .decode)) :
    ∃ t, exec i s = .next t ∧ t.mem = s.mem := by
  obtain ⟨he, hd⟩ := not_or.1 hi
  obtain ⟨t, hx, -, -, hmem, -⟩ := otherCommandsFrame s i he hd
  exact ⟨t, hx, hmem⟩

theorem exec_memoryOk {i : Instr} {s t : State} (h : MemoryOk s) (hx : exec i s = .next t) : MemoryOk t := by
  by_cases hi : i = .encode ∨ i = .decode
  · rcases codec_next hi hx with ⟨mem, out, inc, bits, a, e, rfl, hstr, -⟩ | ⟨mem, out, rfl, hstr⟩ <;> exact hstr.wf h
  · obtain ⟨t', hx', hmem⟩ := exec_of_not_codec s hi
    obtain rfl := Host.Outcome.next.inj (hx.symm.trans hx')
    unfold MemoryOk
    rwa [hmem]

theorem storeBytes_memoryOk {s : State} (a : Word) (bs : List Byte) (h : MemoryOk s) : MemoryOk (storeBytes s a bs) := by
  obtain ⟨m, e, heq, -, hwf⟩ := storeBytes_eq s a bs
  rw [heq]
  exact hwf h

/-- Settles O55: only host stores, aborts, power cycles and the two codec commands write data memory, and each keeps the form. -/
theorem stepKeepsMemoryCanonical : Obligations.StepKeepsMemoryCanonical := by
  unfold Obligations.StepKeepsMemoryCanonical
  intro s t
  exact step_keeps MemoryOk (fun _ _ _ _ h => h) (fun _ _ _ h => h) (fun _ a bs => storeBytes_memoryOk a bs) (fun _ h => h)
    (fun _ => softReset_mem_wf) (fun s _ => powerUpMemory_wf s.tick) (fun _ _ h => h) (fun _ _ h => h) (fun _ _ h => h)
    (fun _ _ _ h => h) (fun _ _ _ _ _ h => h) (fun _ h => h) (fun _ _ _ _ => exec_memoryOk)

/-! ### Host stores and loads (R60, R69, R80) -/

theorem spanAddrs_succ (a : Word) (n : Nat) : spanAddrs a (n + 1) = a :: spanAddrs (a + 1#32) n := by
  simp only [spanAddrs, List.range_succ_eq_map, List.map_cons, List.map_map]
  congr 1
  · simp
  · apply List.map_congr_left
    intro k _
    simp only [Function.comp_apply]
    bv_omega

theorem mem_spanAddrs {a x : Word} {n : Nat} : x ∈ spanAddrs a n ↔ ∃ k, k < n ∧ a + BitVec.ofNat 32 k = x := by
  simp [spanAddrs]

/-- A store of one byte leaves untouched what decides where a byte goes: BUSY and the destination range. -/
theorem inBusyDestination_storeByte (s : State) (a : Word) (v : Byte) (x : Word) :
    inBusyDestination (storeByte s a v) x = inBusyDestination s x := by
  simp [inBusyDestination, State.busy]

theorem storeBytes_engine (s : State) (a : Word) (bs : List Byte) :
    (storeBytes s a bs).engine = s.engine.map (fun r => { r with raced := (spanAddrs a bs.length).reverse ++ r.raced }) := by
  induction bs generalizing s a with
  | nil => cases h : s.engine <;> simp [storeBytes, spanAddrs, h]
  | cons b bs ih =>
    rw [storeBytes, ih, List.length_cons, spanAddrs_succ, storeByte_engine]
    cases h : s.engine <;> simp

/-- The bytes of a store behind its first one. Where there are none, the address behind may be 0. -/
theorem span_tail {a : Word} {n : Nat} (hle : a.toNat + (n + 1) ≤ 2 ^ 32) :
    (a + 1#32).toNat + n ≤ 2 ^ 32 ∧ ∀ x, inSpan (a + 1#32) n x ↔ a.toNat + 1 ≤ x ∧ x < a.toNat + 1 + n := by
  unfold inSpan
  rcases Nat.eq_zero_or_pos n with rfl | hpos
  · have := (a + 1#32).isLt
    exact ⟨by omega, fun x => by omega⟩
  · have hnext : (a + 1#32).toNat = a.toNat + 1 := by bv_omega
    rw [hnext]
    exact ⟨by omega, fun x => Iff.rfl⟩

theorem storeBytes_read_outside (s : State) {a : Word} {bs : List Byte} (hle : a.toNat + bs.length ≤ 2 ^ 32) {x : Nat}
    (hx : ¬ inSpan a bs.length x) : (storeBytes s a bs).mem.read x = s.mem.read x := by
  induction bs generalizing s a with
  | nil => rfl
  | cons b bs ih =>
    rw [List.length_cons] at hle hx
    obtain ⟨hle', hspan⟩ := span_tail hle
    unfold inSpan at hx
    rw [storeBytes, ih _ hle' (by rw [hspan]; omega), storeByte_mem, Memory.read_write_other (by omega)]

theorem storeBytes_read_inside {s : State} {a : Word} {bs : List Byte} (hm : MemoryOk s) (hle : a.toNat + bs.length ≤ 2 ^ 32)
    {k : Nat} (hk : k < bs.length) (hb : inBusyDestination s (a + BitVec.ofNat 32 k) = false) :
    (storeBytes s a bs).mem.read (a.toNat + k) = bs.getD k 0#8 := by
  induction bs generalizing s a k with
  | nil => exact absurd hk (Nat.not_lt_zero _)
  | cons b bs ih =>
    rw [List.length_cons] at hle hk
    obtain ⟨hle', hspan⟩ := span_tail hle
    rw [storeBytes]
    cases k with
    | zero =>
      have hb : inBusyDestination s a = false := by simpa using hb
      rw [Nat.add_zero, storeBytes_read_outside _ hle' (by rw [hspan]; omega), storeByte_mem, Memory.read_write_same hm]
      simp [hb]
    | succ k =>
      have hnext : (a + 1#32).toNat = a.toNat + 1 := by bv_omega
      have haddr : a + 1#32 + BitVec.ofNat 32 k = a + BitVec.ofNat 32 (k + 1) := by bv_omega
      have h := ih (s := storeByte s a b) (a := a + 1#32) (k := k) (Memory.write_word_wf hm) hle' (by omega)
        (by rw [inBusyDestination_storeByte, haddr]; exact hb)
      rwa [hnext, Nat.add_assoc, Nat.add_comm 1 k] at h

/-- A store outside both buffers is no race. -/
theorem NoRace.store {s : State} {as : List Word} (h : NoRace s) (m : Memory)
    (ha : ∀ a ∈ as, inBuffer s.srcAddr s.srcLen a = false ∧ inBuffer s.dstAddr s.dstCap a = false) :
    NoRace { s with mem := m, engine := s.engine.map (fun r => { r with raced := as.reverse ++ r.raced }) } := by
  cases he : s.engine with
  | none => exact NoRace.of_idle rfl
  | some r =>
    intro x hx
    rcases List.mem_append.1 (show x ∈ as.reverse ++ r.raced from hx) with hx | hx
    · exact ha x (List.mem_reverse.1 hx)
    · exact h x (by simpa [State.raced, he] using hx)

theorem storeBytes_eq_engine (s : State) (a : Word) (bs : List Byte) :
    storeBytes s a bs = { s with
      mem := (storeBytes s a bs).mem
      engine := s.engine.map (fun r => { r with raced := (spanAddrs a bs.length).reverse ++ r.raced }) } := by
  obtain ⟨m, e, heq, -⟩ := storeBytes_eq s a bs
  rw [← storeBytes_engine, heq]

theorem spanWf_iff {a : Word} {n : Nat} : spanWf a n = true ↔ a.toNat + n ≤ 2 ^ 32 := by simp [spanWf, Config.memSize]

theorem any_device_iff {s : State} {a : Word} {n : Nat} :
    (spanAddrs a n).any (fun x => writeAnswer s x == .device) = true ↔
      ∃ k, k < n ∧ writeAnswer s (a + BitVec.ofNat 32 k) = .device := by
  simp [spanAddrs]

theorem hostStore_of_long {s : State} {a : Word} {bs : List Byte} (h : 2 ^ 32 < a.toNat + bs.length) :
    hostStore a bs s = .fault .storeOutsideMemory :=
  if_pos (Bool.eq_false_iff.2 (fun hw => absurd (spanWf_iff.1 hw) (by omega)))

theorem hostStore_of_device {s : State} {a : Word} {bs : List Byte} (hle : a.toNat + bs.length ≤ 2 ^ 32)
    (h : ∃ k, k < bs.length ∧ writeAnswer s (a + BitVec.ofNat 32 k) = .device) :
    hostStore a bs s = .refused .notOrdinaryMemory := by
  rw [hostStore, if_neg (by simp [spanWf_iff.2 hle]), if_pos (any_device_iff.2 h)]

theorem hostStore_of_ordinary {s : State} {a : Word} {bs : List Byte} (hle : a.toNat + bs.length ≤ 2 ^ 32)
    (h : ∀ k, k < bs.length → writeAnswer s (a + BitVec.ofNat 32 k) ≠ .device) :
    hostStore a bs s = .next (storeBytes s a bs) := by
  rw [hostStore, if_neg (by simp [spanWf_iff.2 hle]), if_neg (fun hd => ?_)]
  obtain ⟨k, hk, hdev⟩ := any_device_iff.1 hd
  exact h k hk hdev

theorem hostLoad_of_device {s : State} {a : Word} (h : readAnswer s a = .device) :
    hostLoad a s = .refused .notOrdinaryMemory := if_pos (by simp [h])

theorem hostLoad_of_ordinary {s : State} {a : Word} (h : readAnswer s a ≠ .device) :
    hostLoad a s = .next (respond (.byte (loadByte s a)) s) := if_neg (by simpa using h)

theorem inBusyDestination_eq_false {s : State} {a : Word} (h : s.busy = false ∨ inBuffer s.dstAddr s.dstCap a = false) :
    inBusyDestination s a = false := Bool.and_eq_false_iff.2 h

theorem loadByte_of_ordinary {s : State} {a : Word} (h : s.busy = false ∨ inBuffer s.dstAddr s.dstCap a = false) :
    loadByte s a = s.mem.read a.toNat := by
  simp [loadByte, inBusyDestination_eq_false h]

/-- Settles O51, the store by induction on its bytes. -/
theorem hostStoresAndLoads : Obligations.HostStoresAndLoads := by
  unfold Obligations.HostStoresAndLoads
  refine ⟨fun s a bs hm hle hans => ?_, fun s a hans hb => ?_, fun s a hans => ⟨_, hostLoad_of_ordinary hans⟩,
    fun s a bs => hostStore_of_long, fun s a bs => hostStore_of_device, fun s a => hostLoad_of_device⟩
  · refine ⟨_, _, (hostStore_of_ordinary hle hans).trans (congrArg _ (storeBytes_eq_engine s a bs)),
      fun k hk hb => storeBytes_read_inside hm hle hk (inBusyDestination_eq_false hb),
      fun x => storeBytes_read_outside s hle, fun he => by rw [he]; rfl, fun r hr => by rw [hr]; rfl,
      fun hn hout => hn.store _ (fun x hx => ?_)⟩
    obtain ⟨k, hk, rfl⟩ := mem_spanAddrs.1 hx
    exact hout k hk
  · rw [← loadByte_of_ordinary hb]
    exact hostLoad_of_ordinary hans

/-! ### The prechecks of ENCODE and DECODE (R71, R72; 60_exceptions.md R208) -/

/-- A buffer runs past `2^32` (R71). -/
def BufferWraps (s : State) : Prop :=
  ¬ (s.srcAddr.toNat + s.srcLen.toNat ≤ 2 ^ 32 ∧ s.dstAddr.toNat + s.dstCap.toNat ≤ 2 ^ 32)

/-- The two buffers share a byte (R72). -/
def BuffersMeet (s : State) : Prop :=
  0 < s.srcLen.toNat ∧ 0 < s.dstCap.toNat ∧ s.srcAddr.toNat < s.dstAddr.toNat + s.dstCap.toNat ∧
    s.dstAddr.toNat < s.srcAddr.toNat + s.srcLen.toNat

/-- The common precheck with this error is the first that fails. -/
def FirstFailed (s : State) : ErrCode → Prop
  | .noCodes => s.codesValid = false
  | .addrRange => s.codesValid = true ∧ BufferWraps s
  | .overlap => s.codesValid = true ∧ ¬ BufferWraps s ∧ BuffersMeet s
  | _ => False

theorem bufferWraps_iff {s : State} :
    (!inRange s.srcAddr s.srcLen || !inRange s.dstAddr s.dstCap) = true ↔ BufferWraps s := by
  simp [BufferWraps, inRange, ← Bool.not_and, imp_iff_not_or]

theorem buffersMeet_iff {s : State} : overlaps s.srcAddr s.srcLen s.dstAddr s.dstCap = true ↔ BuffersMeet s := by
  simp [BuffersMeet, overlaps, and_assoc]

theorem codecPrecheck_of_firstFailed {s : State} {e : ErrCode} (h : FirstFailed s e) : codecPrecheck s = some e := by
  unfold codecPrecheck
  cases e with
  | noCodes => exact if_pos h
  | addrRange => rw [if_neg (by simp [h.1]), if_pos (bufferWraps_iff.2 h.2)]
  | overlap =>
    obtain ⟨hc, hw, hm⟩ := h
    rw [if_neg (by simp [hc]), if_neg (mt bufferWraps_iff.1 hw), if_pos (buffersMeet_iff.2 hm)]
  | _ => exact h.elim

theorem firstFailed_of_codecPrecheck {s : State} {e : ErrCode} (h : codecPrecheck s = some e) : FirstFailed s e := by
  unfold codecPrecheck at h
  split at h
  · next hc => cases h; exact hc
  · next hc =>
    have hc : s.codesValid = true := by simpa using hc
    split at h
    · next hw => cases h; exact ⟨hc, bufferWraps_iff.1 hw⟩
    · next hw =>
      split at h
      · next hm => cases h; exact ⟨hc, mt bufferWraps_iff.2 hw, buffersMeet_iff.1 hm⟩
      · cases h

theorem codecPrecheck_eq_none_iff {s : State} :
    codecPrecheck s = none ↔ s.codesValid = true ∧ ¬ BufferWraps s ∧ ¬ BuffersMeet s := by
  constructor
  · intro h
    obtain ⟨hc, hs, hd, ho⟩ := codecPrecheck_none h
    exact ⟨hc, by simp [← bufferWraps_iff, hs, hd], by simp [← buffersMeet_iff, ho]⟩
  · rintro ⟨hc, hw, hm⟩
    cases hp : codecPrecheck s with
    | none => rfl
    | some e =>
      have hf := firstFailed_of_codecPrecheck hp
      rcases codecPrecheck_some hp with rfl | rfl | rfl
      · exact absurd (hc.symm.trans hf) (by decide)
      · exact absurd hf.2 hw
      · exact absurd hf.2.2 hm

theorem exec_codec_of_precheck {s : State} {i : Instr} {e : ErrCode} (hi : i = .encode ∨ i = .decode)
    (hp : codecPrecheck s = some e) : exec i s = .next (codecDone s s.mem 0 0 0 0#32 (errValue e)) := by
  rcases hi with rfl | rfl
  · exact execEncode_halt (by rw [encodeStream, hp])
  · rw [execDecode_halt (by rw [decodeStream, hp]), endCodec_error, codecDone_decodeStart]

theorem exec_decode_of_truncated {s : State} (hp : codecPrecheck s = none) (ht : s.srcLen.toNat < ceilDiv s.tbits.toNat 8) :
    exec .decode s = .next (codecDone s s.mem 0 0 0 0#32 (errValue .truncated)) := by
  rw [execDecode_halt (by rw [decodeStream, hp]; exact if_pos ht), endCodec_error, codecDone_decodeStart]

/-- The errors that stand before a stream begins; no stream halts with one. -/
def ErrCode.isPrecheck : ErrCode → Bool
  | .noCodes | .addrRange | .overlap | .truncated => true
  | _ => false

theorem errValue_injective {e e' : ErrCode} (h : errValue e = errValue e') : e = e' := by
  have hidx : ∀ e, (errValue e).toNat = e.ctorIdx + 1 := fun e => by cases e <;> rfl
  have h' : e.ctorIdx = e'.ctorIdx := by
    have := congrArg BitVec.toNat h
    rw [hidx, hidx] at this
    exact Nat.succ.inj this
  rw [← ErrCode.ofNat_ctorIdx e, h', ErrCode.ofNat_ctorIdx]

theorem EncodeStops.error_isPrecheck {s : State} {st : EncodeRun} {e : ErrCode} (h : EncodeStops s st (.error e)) :
    e.isPrecheck = false := by
  obtain ⟨-, ⟨he, -⟩ | ⟨he, -⟩ | ⟨-, -, hh⟩ | ⟨-, -, hh⟩⟩ := h
  · cases he; rfl
  · cases he; rfl
  · exact absurd hh Answer.not_halts_error
  · exact absurd hh Answer.not_halts_error

theorem DecodeStops.error_isPrecheck {s : State} {st : DecodeRun} {e : ErrCode} (h : DecodeStops s st (.error e)) :
    e.isPrecheck = false := by
  obtain ⟨-, ⟨he, -⟩ | ⟨he, -⟩ | ⟨-, -, hh⟩ | ⟨-, -, hh⟩ | ⟨he, -⟩ | ⟨he, -⟩⟩ := h
  · cases he; rfl
  · cases he; rfl
  · exact absurd hh Answer.not_halts_error
  · exact absurd hh Answer.not_halts_error
  · cases he; rfl
  · cases he; rfl

/-- The code of a precheck is left by no other end of a codec command. -/
theorem codec_next_of_precheck {i : Instr} {s t : State} {e : ErrCode} (hi : i = .encode ∨ i = .decode)
    (hx : exec i s = .next t) (hidle : t.engine = none) (he : t.errcode = errValue e) (hpre : e.isPrecheck = true) :
    codecPrecheck s = some e ∨
      (e = .truncated ∧ i = .decode ∧ codecPrecheck s = none ∧ s.srcLen.toNat < ceilDiv s.tbits.toNat 8) := by
  have hne : ∀ {e' : ErrCode}, e'.isPrecheck = false → errValue e' ≠ errValue e := fun h' h => by
    rw [errValue_injective h, hpre] at h'; cases h'
  have hne0 : 0#8 ≠ errValue e := by cases e <;> decide
  rcases hi with rfl | rfl
  · rcases encode_next hx with ⟨e', hp, rfl⟩ | ⟨-, ⟨st, -, rfl⟩ | ⟨st, e', hs, rfl⟩ | ⟨st, a, -, rfl⟩ | ⟨st, -, rfl⟩⟩
    · exact Or.inl (errValue_injective he ▸ hp)
    · exact absurd he hne0
    · exact absurd he (hne hs.error_isPrecheck)
    · exact absurd he (hne (e' := .busError) rfl)
    · cases hidle
  · rcases decode_next hx with ⟨e', hp, rfl⟩ | ⟨hp, ht, rfl⟩ |
      ⟨-, -, ⟨st, -, rfl⟩ | ⟨st, e', hs, rfl⟩ | ⟨st, a, -, rfl⟩ | ⟨st, -, rfl⟩⟩
    · exact Or.inl (errValue_injective he ▸ hp)
    · exact Or.inr ⟨(errValue_injective (e := .truncated) he).symm, rfl, hp, ht⟩
    · exact absurd he hne0
    · exact absurd he (hne hs.error_isPrecheck)
    · exact absurd he (hne (e' := .busError) rfl)
    · cases hidle

/-- Settles O36: a precheck ends the command before its stream begins, and no stream ends with the code of a precheck. -/
theorem precheckErrorsInOrder : Obligations.PrecheckErrorsInOrder := by
  unfold Obligations.PrecheckErrorsInOrder
  intro s failed wraps meet
  have fails : ∀ {i e}, i = .encode ∨ i = .decode → FirstFailed s e → exec i s = .next (failed (errValue e)) :=
    fun hi hf => exec_codec_of_precheck hi (codecPrecheck_of_firstFailed hf)
  refine ⟨fun i hi => ⟨fun hc => fails (e := .noCodes) hi hc, fun hc hw => fails (e := .addrRange) hi ⟨hc, hw⟩,
    fun hc hw hm => fails (e := .overlap) hi ⟨hc, hw, hm⟩⟩,
    fun hc hw hm ht => exec_decode_of_truncated (codecPrecheck_eq_none_iff.2 ⟨hc, hw, hm⟩) ht, fun i t hi hx hidle => ?_⟩
  have failed_of : ∀ {e}, t.errcode = errValue e → e.isPrecheck = true → e ≠ .truncated → FirstFailed s e :=
    fun he hpre hne => firstFailed_of_codecPrecheck
      ((codec_next_of_precheck hi hx hidle he hpre).resolve_right (fun h => hne h.1))
  refine ⟨fun he => failed_of (e := .noCodes) he rfl (by decide), fun he => failed_of (e := .addrRange) he rfl (by decide),
    fun he => failed_of (e := .overlap) he rfl (by decide), fun he => ?_⟩
  rcases codec_next_of_precheck (e := .truncated) hi hx hidle he rfl with hp | ⟨-, rfl, hp, ht⟩
  · exact (firstFailed_of_codecPrecheck hp).elim
  · obtain ⟨hc, hw, hm⟩ := codecPrecheck_eq_none_iff.1 hp
    exact ⟨rfl, hc, hw, hm, ht⟩

/-! ### What ENCODE and DECODE write (R64, R82) -/

theorem overlaps_of_empty {src dst cap : Word} : overlaps src 0#32 dst cap = false := rfl

theorem inRange_of_empty (a : Word) : inRange a 0#32 = true := by
  have := a.isLt
  simp [inRange]; omega

/-- Settles O38: the stream has no byte to read, and no pending bit to write. -/
theorem encodeOfEmptySourceFinishes : Obligations.EncodeOfEmptySourceFinishes := by
  unfold Obligations.EncodeOfEmptySourceFinishes
  intro s hc hlen hd
  have hp : codecPrecheck s = none :=
    codecPrecheck_eq_none hc (hlen ▸ inRange_of_empty _) hd (hlen ▸ overlaps_of_empty)
  have hgo : encodeStream s = .go (encodeStart s) := by
    rw [encodeStream, hp]
    simp [hlen, encodeBytes, Flow.andThen, encodePad, encodeStart]
  exact execEncode_go hgo

/-- `BITS` holds the number of code bits of any source (30_encoding.md R98). -/
theorem length_codeStream_sourceBytes_lt (s : State) : (codeStream s (sourceBytes s)).length < 2 ^ 64 := by
  have h := length_codeStream_le s (sourceBytes s)
  have hlen := s.srcLen.isLt
  simp only [sourceBytes, Memory.length_readList] at h ⊢
  omega

/-- Settles O37: the stream reaches its end, and what it wrote is the codes, packed. -/
theorem encodePacksTheCodes : Obligations.EncodePacksTheCodes := by
  unfold Obligations.EncodePacksTheCodes
  intro s hm hn hc hr hw hs hd ho hcodes hroom
  obtain ⟨st, hgo, hdone⟩ := encodeStream_completes (codecPrecheck_eq_none hc hs hd ho) hn hr hw hcodes hroom
  have hbits : (BitVec.ofNat 64 st.bits).toNat = (codeStream s (sourceBytes s)).length := by
    rw [hdone.length hn]
    exact Nat.mod_eq_of_lt (length_codeStream_sourceBytes_lt s)
  have hout := hdone.streamed.toNat_out
  have hceil : st.out = ceilDiv (codeStream s (sourceBytes s)).length 8 := by rw [hdone.out, hdone.length hn]
  have hinc : BitVec.ofNat 32 st.inc = s.srcLen := by simp [hdone.inc]
  have hbit : ∀ j, j < 8 * st.out →
      bitOf (st.mem.readList s.dstAddr.toNat st.out) j = (codeStream s (sourceBytes s)).getD j false := fun j hj => by
    rw [hdone.bytes hn hm, hceil]
    exact bitOf_packAll_padded (hceil ▸ hj)
  refine ⟨st.mem, BitVec.ofNat 32 st.out, BitVec.ofNat 64 st.bits, ?_, hbits, ?_, fun j hj => ?_, fun j hge hj => ?_,
    fun a ha => ?_⟩
  · rw [execEncode_go hgo, codecDone, hinc]
  · rw [hout, hbits, hceil]
  · rw [hout]
    refine hbit j ?_
    rw [hbits] at hj
    rw [hceil]
    unfold ceilDiv
    omega
  · rw [hout] at hj ⊢
    rw [hbits] at hge
    rw [hbit j hj, List.getD_eq_default _ _ hge]
  · rw [hout] at ha
    exact hdone.streamed.outside a ha

/-- The first `TBITS` bits of the source, where they are the codes of a symbol sequence, are the paths of these symbols. -/
theorem sourceBits_eq_pathBits {s : State} {t : Shape} (hcodes : IsCodeTable s t) {es : List (Byte × List Bool)}
    (hes : ∀ e ∈ es, e ∈ t.paths) (hlen : (codeStream s (es.map Prod.fst)).length = s.tbits.toNat)
    (hroom : ceilDiv s.tbits.toNat 8 ≤ s.srcLen.toNat)
    (hbits : ∀ j, j < s.tbits.toNat → bitOf (sourceBytes s) j = (codeStream s (es.map Prod.fst)).getD j false) :
    sourceBits s s.tbits.toNat = pathBits es := by
  rw [← codeStream_map_fst hcodes hes, ← hlen]
  refine sourceBits_eq.2 (fun j hj => ?_)
  rw [← hbits j (hlen ▸ hj)]
  refine (bitOf_sourceBytes ?_).symm
  unfold ceilDiv at hroom
  omega

/-- At the end of a stream that is the paths `es`, their symbols are what was written. -/
theorem DecodeDone.bytes {s : State} {t : Shape} {st : DecodeRun} (h : DecodeDone s st) (ht : IsTree s t) (hm : MemoryOk s)
    (hn : NoRace s) {es : List (Byte × List Bool)} (hes : ∀ e ∈ es, e ∈ t.paths)
    (hbits : sourceBits s s.tbits.toNat = pathBits es) :
    st.mem.readList s.dstAddr.toNat st.out = es.map Prod.fst := by
  obtain ⟨hkeeps, hend, -, -⟩ := h
  obtain ⟨fs, p, c, hwalk⟩ := hkeeps.walk t ht
  obtain ⟨rfl, -⟩ := hwalk.whole ht hes (by rw [← hwalk.stream hn, hend, hbits])
  exact hwalk.bytes hn hm

/-- Settles O40: the codes are paths of the tree, so the walk follows them to its end and writes their symbols. -/
theorem decodeReadsTheCodes : Obligations.DecodeReadsTheCodes := by
  unfold Obligations.DecodeReadsTheCodes
  intro s x hm hcodesOk hn hc hr hw hs hd ho hx htotal hcap hlen hroom hbits
  obtain ⟨t, htree, htable, -⟩ := hcodesOk hc
  obtain ⟨es, hes, rfl⟩ := htree.exists_paths hx
  rw [List.length_map] at htotal hcap hw
  have hpaths := sourceBits_eq_pathBits htable hes hlen hroom hbits
  obtain ⟨st, hgo, hdone⟩ :=
    decodeStream_completes (codecPrecheck_eq_none hc hs hd ho) hroom hn htree hes hpaths htotal hcap hr hw
  have hbytes := hdone.bytes htree hm hn hes hpaths
  obtain ⟨hkeeps, hend, -, htot⟩ := hdone
  have hout := hkeeps.streamed.toNat_out
  have hbitsReg : BitVec.ofNat 64 st.bits = s.tbits := by simp [hend]
  refine ⟨st.mem, BitVec.ofNat 32 st.out, BitVec.ofNat 32 (ceilDiv st.bits 8), ?_, hout.trans htot, ?_, ?_, fun a ha => ?_⟩
  · rw [execDecode_go hgo, codecDone, hbitsReg]
  · rw [hend]
    exact Nat.mod_eq_of_lt (lt_of_le_of_lt hroom s.srcLen.isLt)
  · rw [List.length_map, htotal, ← htot]
    exact hbytes
  · rw [hout] at ha
    exact hkeeps.streamed.outside a ha

/-! ### Devices (R69; 70_reset_and_hazards.md R245) -/

/-- Some byte of a buffer lies at a device: one of the source for reads, or one of the destination for writes. -/
def DeviceInBuffers (s : State) : Prop :=
  (∃ k, k < s.srcLen.toNat ∧ readAnswer s (s.srcAddr + BitVec.ofNat 32 k) = .device) ∨
  (∃ k, k < s.dstCap.toNat ∧ writeAnswer s (s.dstAddr + BitVec.ofNat 32 k) = .device)

theorem Answer.Halts.of_device {a : Word} {ans : Answer} (h : ans.Halts a .device) : ans = .device := by
  cases ans <;> cases h
  rfl

theorem EncodeStops.device {s : State} {st : EncodeRun} (h : EncodeStops s st .device) : DeviceInBuffers s := by
  obtain ⟨-, ⟨he, -⟩ | ⟨he, -⟩ | ⟨hi, -, hh⟩ | ⟨ho, -, hh⟩⟩ := h
  · cases he
  · cases he
  · exact Or.inl ⟨_, hi, hh.of_device⟩
  · exact Or.inr ⟨_, ho, hh.of_device⟩

theorem DecodeStops.device {s : State} {st : DecodeRun} (h : DecodeStops s st .device)
    (hlen : ceilDiv s.tbits.toNat 8 ≤ s.srcLen.toNat) : DeviceInBuffers s := by
  obtain ⟨-, ⟨he, -⟩ | ⟨he, -⟩ | ⟨hi, -, hh⟩ | ⟨ho, -, hh⟩ | ⟨he, -⟩ | ⟨he, -⟩⟩ := h
  · cases he
  · cases he
  · exact Or.inl ⟨_, by unfold ceilDiv at hlen; omega, hh.of_device⟩
  · exact Or.inr ⟨_, ho, hh.of_device⟩
  · cases he
  · cases he

theorem encodeStream_device {s : State} (h : (encodeStream s).stop = some .device) : DeviceInBuffers s := by
  rcases encodeStream_cases s with ⟨e, -, hf⟩ | ⟨-, hpost⟩
  · rw [hf] at h; cases h
  · exact (hpost.of_stop h).device

theorem decodeStream_device {s : State} (h : (decodeStream s).stop = some .device) : DeviceInBuffers s := by
  rcases decodeStream_cases s with ⟨e, -, hf⟩ | ⟨-, -, hf⟩ | ⟨-, hlen, hpost⟩
  · rw [hf] at h; cases h
  · rw [hf] at h; cases h
  · exact (hpost.of_stop h).device hlen

theorem exec_ne_fault (i : Instr) (s : State) (f : Fault) : exec i s ≠ .fault f := by
  by_cases hi : i = .encode ∨ i = .decode
  · rcases hi with rfl | rfl
    · exact execEncode_eq s ▸ endCodec_ne_fault _ _ _ _ _ _ _ f
    · exact execDecode_eq s ▸ endCodec_ne_fault _ _ _ _ _ _ _ f
  · obtain ⟨t, hx, -⟩ := exec_of_not_codec s hi
    rw [hx]
    exact fun h => nomatch h

theorem exec_refused {i : Instr} {s : State} {r : Refusal} (hx : exec i s = .refused r) :
    r = .notOrdinaryMemory ∧ (i = .encode ∨ i = .decode) ∧ DeviceInBuffers s := by
  by_cases hi : i = .encode ∨ i = .decode
  · rcases hi with rfl | rfl
    · obtain ⟨hstop, hr⟩ := endCodec_refused hx
      exact ⟨hr, Or.inl rfl, encodeStream_device hstop⟩
    · obtain ⟨hstop, hr⟩ := endCodec_refused hx
      exact ⟨hr, Or.inr rfl, decodeStream_device hstop⟩
  · obtain ⟨t, hx', -⟩ := exec_of_not_codec s hi
    rw [hx'] at hx
    cases hx

theorem portRead_of_device {s : State} {m : Memory} {a : Word} (h : readAnswer s a = .device) :
    portRead s m a = .error .device := by
  simp [portRead, h]

/-- Settles O48: only a halt at a device is refused, every such halt is, and each is at an address of a buffer. -/
theorem commandsStopOnlyAtDevices : Obligations.CommandsStopOnlyAtDevices := by
  unfold Obligations.CommandsStopOnlyAtDevices
  refine ⟨fun s i => ⟨exec_ne_fault i s, fun r => exec_refused⟩, fun i s u a h => ?_,
    fun s hc hs hd ho hr => ⟨fun hlen => ?_, fun hbits hlen => ?_⟩⟩
  · obtain ⟨m, out, inc, bits, why, hh, hx, -⟩ := h.ends (by decide)
    obtain rfl : why = .device := hh
    exact hx
  · exact execEncode_halt (encodeStream_first (codecPrecheck_eq_none hc hs hd ho) hlen (portRead_of_device hr))
  · exact execDecode_halt
      (decodeStream_first (codecPrecheck_eq_none hc hs hd ho) hbits hlen (portRead_of_device hr))

/-! ### Aborts (R82; 70_reset_and_hazards.md R236, R237) -/

/-- How many destination bytes the stream of a codec command writes, and why it stops; nothing for the other commands. -/
def streamEnd (i : Instr) (s : State) : Nat × Option Halt :=
  match i with
  | .encode => ((encodeStream s).reached.out, (encodeStream s).stop)
  | .decode => ((decodeStream s).reached.out, (decodeStream s).stop)
  | _ => (0, none)

theorem streamEnd_le (i : Instr) (s : State) : (streamEnd i s).1 ≤ s.dstCap.toNat := by
  cases i with
  | encode => exact (encodeStream_out s).1
  | decode => exact (decodeStream_out s).1
  | _ => exact Nat.zero_le _

/-- A codec command in terms of the end of its stream. -/
theorem exec_codec_eq_endCodec {i : Instr} (hi : i = .encode ∨ i = .decode) (s : State) :
    ∃ m inc bits, exec i s = endCodec i s m (streamEnd i s).1 inc bits (streamEnd i s).2 := by
  rcases hi with rfl | rfl
  · exact ⟨_, _, _, execEncode_eq s⟩
  · exact ⟨_, _, _, execDecode_eq s⟩

/-- The count of an abort is the one with every access answered, whether or not the stream stops at one that is not. -/
theorem abortCount_of_running {s : State} {r : Running} {i : Instr} (hr : s.engine = some r) (hd : decode r.word = .ok i)
    (hi : i = .encode ∨ i = .decode) :
    abortCount s = (streamEnd i (answeredState s)).1 ∧
      abortCount s = streamExtent (streamEnd i s).1 (streamEnd i s).2 (streamEnd i (answeredState s)).1 := by
  have hrun : s.runningWord.map decode = some (.ok i) := by simp [State.runningWord, hr, hd]
  rcases hi with rfl | rfl
  · have hcount : abortCount s = streamExtent (encodeStream s).reached.out (encodeStream s).stop
        (encodeStream (answeredState s)).reached.out := by rw [abortCount, hrun]
    exact ⟨hcount.trans (streamExtent_answered (encodeStream_answered s)), hcount⟩
  · have hcount : abortCount s = streamExtent (decodeStream s).reached.out (decodeStream s).stop
        (decodeStream (answeredState s)).reached.out := by rw [abortCount, hrun]
    exact ⟨hcount.trans (streamExtent_answered (decodeStream_answered s)), hcount⟩

theorem abortCount_of_not_codec {s : State} (h : codecRunning s = false) : abortCount s = 0 := by
  unfold codecRunning at h
  unfold abortCount
  generalize s.runningWord.map decode = w at h ⊢
  rcases w with _ | _ | i
  · rfl
  · rfl
  · cases i with
    | encode => cases h
    | decode => cases h
    | _ => rfl

/-- A codec command that completes has written the bytes `OUT_LEN` counts, and its stream stops at no unanswered access. -/
theorem endCodec_completed {i : Instr} {s t : State} {m : Memory} {out inc bits : Nat} {why : Option Halt}
    (hout : out ≤ s.dstCap.toNat) (hx : endCodec i s m out inc bits why = .next t) (hidle : t.engine = none) :
    t.outLen.toNat = out ∧ ∀ n, streamExtent out why n = out := by
  have hreg : (BitVec.ofNat 32 out).toNat = out := Nat.mod_eq_of_lt (lt_of_le_of_lt hout s.dstCap.isLt)
  cases why with
  | none => cases hx; exact ⟨hreg, fun _ => rfl⟩
  | some why =>
    cases why with
    | error e => cases hx; exact ⟨hreg, fun _ => rfl⟩
    | busError a => cases hx; exact ⟨hreg, fun _ => rfl⟩
    | noAnswer => cases hx; cases hidle
    | device => cases hx

theorem exec_codec_completed {i : Instr} {s t : State} (hi : i = .encode ∨ i = .decode) (hx : exec i s = .next t)
    (hidle : t.engine = none) :
    t.outLen.toNat = (streamEnd i s).1 ∧ ∀ n, streamExtent (streamEnd i s).1 (streamEnd i s).2 n = (streamEnd i s).1 := by
  obtain ⟨m, inc, bits, heq⟩ := exec_codec_eq_endCodec hi s
  exact endCodec_completed (streamEnd_le i s) (heq ▸ hx) hidle

theorem Answer.ifAnswered_answers (ans : Answer) : ans.ifAnswered = .completes ∨ ans.ifAnswered = .refuses := by
  cases ans <;> decide

theorem answeredState_buffersAnswered (s : State) : BuffersAnswered (answeredState s) := by
  refine ⟨fun k _ => ?_, fun k _ => ?_⟩
  · rw [answeredState, readAnswer_answered]
    exact Answer.ifAnswered_answers _
  · rw [answeredState, writeAnswer_answered]
    exact Answer.ifAnswered_answers _

theorem softReset_read_of_abortCount_le {s : State} {n a : Nat} (hn : abortCount s ≤ n) (ha : ¬ inSpan s.dstAddr n a) :
    (softReset s).mem.read a = s.mem.read a := by
  refine (scrambleDestination_spec s _ (abortCount_spec s).1 (abortCount_spec s).2).2 a (fun h => ha ⟨h.1, ?_⟩)
  omega

/-- Settles O23: an abort writes `abortCount` bytes of the destination, as many as the command would have. -/
theorem abortWritesOnlyTheDestination : Obligations.AbortWritesOnlyTheDestination := by
  unfold Obligations.AbortWritesOnlyTheDestination
  intro s
  refine ⟨⟨rfl, rfl, rfl, rfl, fun a => softReset_read_of_abortCount_le (abortCount_spec s).1⟩,
    fun r i t hr hd hx hidle hi a => softReset_read_of_abortCount_le ?_, fun r i hr hd hi => ?_, fun h => ?_⟩
  · obtain ⟨hout, hextent⟩ := exec_codec_completed hi hx hidle
    rw [(abortCount_of_running hr hd hi).2, hextent, hout]
  · obtain ⟨t, hx, hidle, -, -⟩ := exec_completes i (answeredState_buffersAnswered s)
    refine ⟨t, hx, hidle, fun a => softReset_read_of_abortCount_le ?_⟩
    rw [(abortCount_of_running hr hd hi).1, (exec_codec_completed hi hx hidle).1]
  · rw [softReset_mem, abortCount_of_not_codec h]
    rfl

end Sys2Proof.Machine
end

section
/-! The statements of 30_encoding.md: the command words (R85 to R88), and what GENCODE writes (R90). -/

namespace Sys2Proof.Machine

/-! ### Command words (R85 to R88) -/

theorem encodingStatement : ∀ i : Instr, Laws.Encoding.Statement i
  | .nop => Laws.Encoding.nop
  | .clrfreq => Laws.Encoding.clrfreq
  | .build => Laws.Encoding.build
  | .gencode => Laws.Encoding.gencode
  | .encode => Laws.Encoding.encode
  | .decode => Laws.Encoding.decode

@[simp] theorem decode_encode (i : Instr) : decode (encode i) = .ok i := by
  obtain ⟨-, hrsv, hop, hok⟩ := encodingStatement i
  rw [decode, if_pos hrsv, hop, hok]

theorem decode_eq_ok_iff {w : Word} {i : Instr} : decode w = .ok i ↔ w = encode i :=
  ⟨eq_encode_of_decode, fun h => h ▸ decode_encode i⟩

theorem decode_of_rsvField_ne {w : Word} (h : rsvField w ≠ 0) : decode w = .error .reservedBits :=
  if_neg h

theorem toNat_encode_le (i : Instr) : (encode i).toNat ≤ 5 := by
  cases i <;> decide

/-- The opcode map leaves no gap (R87): each value up to 5 is the word of a command. -/
theorem exists_toNat_encode_eq : ∀ n ≤ 5, ∃ i : Instr, (encode i).toNat = n
  | 0, _ => ⟨.nop, rfl⟩
  | 1, _ => ⟨.clrfreq, rfl⟩
  | 2, _ => ⟨.build, rfl⟩
  | 3, _ => ⟨.gencode, rfl⟩
  | 4, _ => ⟨.encode, rfl⟩
  | 5, _ => ⟨.decode, rfl⟩
  | _ + 6, h => absurd h (by omega)

/-- The legal words are `0x00000000` to `0x00000005` (R88). -/
theorem exists_decode_iff {w : Word} : (∃ i, decode w = .ok i) ↔ w.toNat ≤ 5 := by
  constructor
  · rintro ⟨i, h⟩
    rw [eq_encode_of_decode h]
    exact toNat_encode_le i
  · intro h
    obtain ⟨i, hi⟩ := exists_toNat_encode_eq w.toNat h
    exact ⟨i, decode_eq_ok_iff.2 (BitVec.eq_of_toNat_eq hi.symm)⟩

/-- Settles O2: `decode` undoes `encode`, and a word that decodes is put together again from its two fields. -/
theorem legalWordsAreTheEncodings : Obligations.LegalWordsAreTheEncodings := by
  unfold Obligations.LegalWordsAreTheEncodings
  exact ⟨fun w => exists_decode_iff, fun i _ => decode_encode i, fun w i => eq_encode_of_decode⟩

/-- Settles O1: the six words are the encodings, the others fail at the opcode or at the reserved bits. -/
theorem commandWordsDecode : Obligations.CommandWordsDecode := by
  unfold Obligations.CommandWordsDecode
  exact ⟨decode_encode .nop, decode_encode .clrfreq, decode_encode .build, decode_encode .gencode, decode_encode .encode,
    decode_encode .decode, by decide, decode_of_rsvField_ne (by decide), decode_of_rsvField_ne (by decide)⟩

/-! ### What GENCODE writes (R90, R135) -/

/-- Settles O33: the state GENCODE leaves where a tree is valid is `generated`. -/
theorem gencodeCompletes : Obligations.GencodeCompletes := by
  unfold Obligations.GencodeCompletes
  intro s h
  exact ⟨_, _, execGencode_of_tree h⟩

end Sys2Proof.Machine
end

section
/-! The statements of 40_control_and_frequency.md: the step that runs the accepted command, the register writes, both resets, and NOP
and CLRFREQ (R100 to R110; 70_reset_and_hazards.md R235, R236). -/

namespace Sys2Proof.Machine

/-! ### The step that runs the accepted command (R100, R110) -/

/-- A pending command does not wait for a host that has nothing to do (log 2). -/
theorem step_of_due_of_script_nil {s : State} {r : Running} {d : Nat} (h : s.engine = some r) (hp : r.phase = .due (d + 1))
    (hs : s.script = []) : step s = runCommand r.word s.nextTick := by
  simp [step, turn, h, hp, hs]

theorem step_eq_runCommand {s : State} {r : Running} (h : s.engine = some r)
    (hp : r.phase = .due 0 ∨ (∃ d, r.phase = .due (d + 1) ∧ s.script = [])) : step s = runCommand r.word s.nextTick := by
  rcases hp with hp | ⟨d, hp, hs⟩
  · exact step_of_due_zero h hp
  · exact step_of_due_of_script_nil h hp hs

theorem runCommand_of_decode {w : Word} {i : Instr} (h : decode w = .ok i) (s : State) : runCommand w s = exec i s := by
  simp [runCommand, h]

theorem runCommand_of_illegal {w : Word} (h : 5 < w.toNat) (s : State) :
    runCommand w s = .next (raiseError .illegalCmd s) := by
  cases hd : decode w with
  | ok i => exact absurd (exists_decode_iff.1 ⟨i, hd⟩) (not_le.2 h)
  | error e => simp [runCommand, hd, execIllegal]

theorem withFetchWord_toNat (s : State) (w : Word) : s.withFetchWord 32 w.toNat = acceptNow w s := by
  rw [State.withFetchWord, Nat.mod_eq_of_lt w.isLt, BitVec.ofNat_toNat, BitVec.setWidth_eq]

/-- Settles O6: a fetched word is accepted and due, and a due word runs the command it decodes to. -/
theorem stepRunsTheDecodedCommand : Obligations.StepRunsTheDecodedCommand := by
  unfold Obligations.StepRunsTheDecodedCommand
  refine ⟨fun s r i he hp hd => ?_, fun s i => ?_⟩
  · rw [step_eq_runCommand he hp, runCommand_of_decode hd]
    rfl
  · rw [withFetchWord_toNat, step_of_due_zero (acceptNow_engine _ s) rfl, runCommand_of_decode (decode_encode i)]
    rfl

/-- Settles O7: no word above 5 decodes to a command. -/
theorem illegalWordRaisesIllegalCmd : Obligations.IllegalWordRaisesIllegalCmd := by
  unfold Obligations.IllegalWordRaisesIllegalCmd
  intro s r he hp hw
  rw [step_eq_runCommand he hp, runCommand_of_illegal hw]
  rfl

/-! ### Register writes (R103 to R109) -/

theorem guardedWrite_of_busy {s : State} (h : s.busy = true) (stored : State) : guardedWrite s stored = setOvr s :=
  if_pos h

/-- Settles O11: each of these writes is guarded, and a busy block sets `OVR` in its place. -/
theorem busyWritesAreDiscarded : Obligations.BusyWritesAreDiscarded := by
  unfold Obligations.BusyWritesAreDiscarded
  intro s r v hb hr
  rcases hr with rfl | rfl | rfl | rfl | rfl | ⟨i, rfl⟩ <;> exact guardedWrite_of_busy hb _

/-- Settles O12: an idle block stores the write, into the one entry. -/
theorem freqWriteStoresAndInvalidates : Obligations.FreqWriteStoresAndInvalidates := by
  unfold Obligations.FreqWriteStoresAndInvalidates
  intro s i v hb
  exact ⟨_, guardedWrite_of_idle hb (setFreq i v s), freqAt_set_same s.freq i v, fun _ => freqAt_set_other s.freq v⟩

theorem writeReg_ctrl_of_srst {v : Word} (h : v.getLsbD 1 = true) (s : State) : writeReg s .ctrl v = softReset s :=
  if_pos h

theorem writeReg_ctrl_of_not_srst {v : Word} (h : v.getLsbD 1 = false) (s : State) :
    writeReg s .ctrl v = { s with ctrlIE := v.getLsbD 0 } :=
  if_neg (Bool.eq_false_iff.1 h)

/-- A 1 in a W1C bit clears its flag, and a 0 leaves it (R107). -/
theorem and_not_eq_ite (flag bit : Bool) : (flag && !bit) = if bit then false else flag := by
  cases bit <;> simp

theorem writeStatus_eq (v : Word) (s : State) :
    writeStatus v s =
      { s with done := if v.getLsbD 1 then false else s.done, ovr := if v.getLsbD 5 then false else s.ovr } := by
  rw [writeStatus, and_not_eq_ite, and_not_eq_ite]

theorem writeReg_readOnly (s : State) {r : Reg} (v : Word) (hctrl : r ≠ .ctrl) (hstatus : r ≠ .status) (hcmd : r ≠ .cmd)
    (hsrcAddr : r ≠ .srcAddr) (hsrcLen : r ≠ .srcLen) (hdstAddr : r ≠ .dstAddr) (hdstCap : r ≠ .dstCap)
    (hfreq : ∀ i, r ≠ .freq i) : writeReg s r v = s := by
  cases r with
  | ctrl => exact absurd rfl hctrl
  | status => exact absurd rfl hstatus
  | cmd => exact absurd rfl hcmd
  | srcAddr => exact absurd rfl hsrcAddr
  | srcLen => exact absurd rfl hsrcLen
  | dstAddr => exact absurd rfl hdstAddr
  | dstCap => exact absurd rfl hdstCap
  | freq i => exact absurd rfl (hfreq i)
  | _ => rfl

/-- Settles O13: one lemma for each kind of register. -/
theorem registerWriteEffects : Obligations.RegisterWriteEffects := by
  unfold Obligations.RegisterWriteEffects
  exact ⟨fun _ _ hb => ⟨guardedWrite_of_idle hb _, guardedWrite_of_idle hb _, guardedWrite_of_idle hb _,
      guardedWrite_of_idle hb _⟩,
    fun s _ => ⟨fun h => writeReg_ctrl_of_srst h s, fun h => writeReg_ctrl_of_not_srst h s⟩,
    fun s v => writeStatus_eq v s, fun s _ v => writeReg_readOnly s v, fun _ => rfl⟩

/-! ### Reset and power (R106; 70_reset_and_hazards.md R235, R236) -/

/-- Settles O22: `softReset` and `powerCycle` are the reset state but for data memory and what stands around the block, and an
abort writes memory only where ENCODE or DECODE runs. -/
theorem softResetAppliesResetValues : Obligations.SoftResetAppliesResetValues := by
  unfold Obligations.SoftResetAppliesResetValues
  refine ⟨fun s => ⟨_, powerUpMemory_wf s.tick, rfl⟩, fun s v hv => ?_⟩
  obtain ⟨-, -, -, hmem⟩ := abortWritesOnlyTheDestination s
  rw [writeReg_ctrl_of_srst hv]
  exact ⟨_, rfl, rfl, hmem⟩

/-! ### NOP and CLRFREQ (R101, R102) -/

/-- Settles O24: NOP is `finish`. -/
theorem nopOnlyFinishes : Obligations.NopOnlyFinishes := by
  unfold Obligations.NopOnlyFinishes
  intro s
  rfl

/-- Settles O25: the table CLRFREQ leaves is `emptyFreq`. -/
theorem clrfreqEmptiesTheTable : Obligations.ClrfreqEmptiesTheTable := by
  unfold Obligations.ClrfreqEmptiesTheTable
  exact fun s => ⟨emptyFreq, rfl, freqAt_replicate⟩

end Sys2Proof.Machine
end

section
/-! The statements of 41_tree_builder.md: what BUILD leaves of an empty table, of a single symbol and of two and more, the order of
its merges, and what its arena depends on (R120 to R131). -/

namespace Sys2Proof.Machine

/-! ### Completion (R122, R126, R127) -/

/-- Settles O26: an empty table has no observed entry, so its counts are 0. -/
theorem buildOfEmptyTableRaises : Obligations.BuildOfEmptyTableRaises := by
  unfold Obligations.BuildOfEmptyTableRaises
  intro s hz
  have ho : observed s.freq = [] := observed_eq_nil.2 hz
  rw [execBuild_of_empty ho, builtEmpty, freqTotal, ho]
  rfl

/-- `n` leaves take `n - 1` merges; a single one is wrapped (R124, R126). -/
theorem length_growTree {f : Vector Word 256} (h : observed f ≠ []) :
    (growTree f).length = if (observed f).length = 1 then 2 else 2 * (observed f).length - 1 := by
  obtain ⟨-, -, -, -, -, -, hlen⟩ := growTree_spec h
  exact hlen

/-- The root is the node made last (R126). -/
theorem toNat_root_builtTree (s : State) : (builtTree s).root.toNat = (growTree s.freq).length - 1 := by
  have hle := length_growTree_le s.freq
  exact Nat.mod_eq_of_lt (by omega)

/-- Settles O27: `builtTree` names all that BUILD changes, and the counts follow from the number of nodes grown. -/
theorem buildCompletes : Obligations.BuildCompletes := by
  unfold Obligations.BuildCompletes
  rintro s ⟨i, hi⟩
  have ho : observed s.freq ≠ [] := fun h => hi (observed_eq_nil.1 h i)
  have hlen := length_growTree ho
  have hcount := toNat_nodeCount_builtTree s
  have hroot := toNat_root_builtTree s
  rw [← length_observed]
  refine ⟨_, _, _, _, _, execBuild_of_entries ho, toNat_ofNat_length_observed s.freq,
    (toNat_ofNat_freqTotal s.freq).trans (freqTotal_eq s.freq), fun h1 => ?_, fun h2 => ?_⟩
  · rw [if_pos h1] at hlen
    exact ⟨hcount.trans hlen, hroot.trans (by rw [hlen])⟩
  · rw [if_neg (by omega)] at hlen
    exact ⟨hcount.trans hlen, hroot.trans (by omega)⟩

/-! ### The nodes of the arena -/

/-- Below `NODE_COUNT` the arena BUILD leaves holds the nodes it grew. -/
theorem nodeAt_builtTree (s : State) {k : Nat} (h : k < (growTree s.freq).length) :
    nodeAt (builtTree s).node (BitVec.ofNat 9 k) = nodeIn (growTree s.freq) k := by
  have hle := length_growTree_le s.freq
  have hk : (BitVec.ofNat 9 k).toNat = k := Nat.mod_eq_of_lt (by omega)
  exact (nodeAt_writeArena (by rwa [hk]) hle).trans (by rw [hk, nodeIn])

/-- Settles O29: the only observed entry is the symbol's, and BUILD grows its leaf and the wrap. -/
theorem singleSymbolIsWrapped : Obligations.SingleSymbolIsWrapped := by
  unfold Obligations.SingleSymbolIsWrapped
  intro s x hx hother
  have ho : observed s.freq = [(x, freqAt s.freq x)] := observed_single hx hother
  have hg : growTree s.freq =
      [leafNode (x, freqAt s.freq x), internalNode 0#9 NIL (leafNode (x, freqAt s.freq x)).weight] := by
    rw [growTree, ho]
    rfl
  have hroot := toNat_root_builtTree s
  have hcount := toNat_nodeCount_builtTree s
  have h0 := nodeAt_builtTree s (k := 0) (by simp [hg])
  have h1 := nodeAt_builtTree s (k := 1) (by simp [hg])
  rw [hg] at hroot hcount h0 h1
  exact ⟨_, execBuild_of_entries (by simp [ho]), rfl, BitVec.eq_of_toNat_eq hroot, BitVec.eq_of_toNat_eq hcount, rfl, h0, h1⟩

/-- Settles O31: a table is its 256 entries, and below `NODE_COUNT` the arena holds the nodes grown from the table. -/
theorem buildDependsOnFrequenciesOnly : Obligations.BuildDependsOnFrequenciesOnly := by
  unfold Obligations.BuildDependsOnFrequenciesOnly
  intro s s' hfreq
  have hf : s'.freq = s.freq := (freq_ext hfreq).symm
  by_cases ho : observed s.freq = []
  · exact ⟨_, _, execBuild_of_empty ho, execBuild_of_empty (hf ▸ ho), by simp [builtEmpty, hf]⟩
  · refine ⟨_, _, execBuild_of_entries ho, execBuild_of_entries (hf ▸ ho), ?_⟩
    have hle := length_growTree_le s.freq
    have hcount := toNat_nodeCount_builtTree s
    rw [builtTree, builtTree, hf]
    refine ⟨rfl, rfl, rfl, rfl, rfl, rfl, fun i hi => ?_⟩
    have hlt : i.toNat < (growTree s.freq).length := hi.trans_eq hcount
    exact (nodeAt_writeArena hlt hle).trans (nodeAt_writeArena hlt hle).symm

/-! ### The merges (R121, R123, R125) -/

theorem mergeOnce_eq_none_iff {g : Growth} : mergeOnce g = none ↔ g.live.length < 2 := by
  refine ⟨fun h => ?_, mergeOnce_of_few⟩
  by_contra hlt
  obtain ⟨a, b, rest, g', hg', -⟩ := mergeOnce_of_two (Nat.le_of_not_lt hlt)
  rw [h] at hg'
  cases hg'

/-- The symbols that occur, in ascending order (R121). -/
def occurring (f : Vector Word 256) : List Byte := allSymbols.filter (fun x => !(freqAt f x == 0#32))

/-- The observed entries are the symbols that occur, each with its frequency. -/
theorem observed_eq_map_occurring (f : Vector Word 256) : observed f = (occurring f).map (fun x => (x, freqAt f x)) := by
  rw [observed_eq, List.filter_map]
  rfl

/-- The nodes grown from two entries and more begin with the leaves, in ascending symbol order (R121). -/
theorem nodeIn_growTree_of_lt {f : Vector Word 256} (h : 2 ≤ (observed f).length) {k : Nat} (hk : k < (observed f).length) :
    nodeIn (growTree f) k = leafNode ((occurring f).getD k 0#8, freqAt f ((occurring f).getD k 0#8)) := by
  obtain ⟨⟨merged, hgrow⟩, -⟩ := growTree_traced h
  have hk' : k < (occurring f).length := hk.trans_eq (length_observed f)
  rw [← hgrow, nodeIn_append_left _ (by simpa using hk), observed_eq_map_occurring]
  simp [nodeIn, hk']

section Built
variable {s : State} {n m k a b : Nat}

theorem liveBefore_builtTree (hm : m ≤ (growTree s.freq).length) :
    LiveBefore (builtTree s) n m k ↔ LiveIn (growTree s.freq) n m k := by
  unfold LiveBefore LiveIn
  refine and_congr_right fun _ => forall_congr' fun j => forall_congr' fun _ => forall_congr' fun hj => ?_
  rw [nodeAt_builtTree s (by omega)]

theorem lowerKey_builtTree (ha : a < (growTree s.freq).length) (hb : b < (growTree s.freq).length) :
    LowerKey (builtTree s) a b ↔ LowerIn (growTree s.freq) a b := by
  unfold LowerKey LowerIn
  rw [nodeAt_builtTree s ha, nodeAt_builtTree s hb]

end Built

/-- Settles O28: a merge pops the least key and then the least of the rest, and the arena BUILD leaves holds the nodes of the merge
loop, each of which joins the two least of the nodes live before it. -/
theorem mergeTakesTheTwoLeast : Obligations.MergeTakesTheTwoLeast := by
  unfold Obligations.MergeTakesTheTwoLeast
  refine ⟨fun g => mergeOnce_eq_none_iff, fun g g' => mergeOnce_some, fun s => ?_⟩
  intro present n hn
  have hobs : (observed s.freq).length = n := length_observed s.freq
  have ho : observed s.freq ≠ [] := List.ne_nil_of_length_pos (by omega)
  have hlen := length_growTree ho
  rw [hobs, if_neg (by omega)] at hlen
  have hcount := toNat_nodeCount_builtTree s
  refine ⟨_, execBuild_of_entries ho, hcount.trans hlen, fun k hk => ?_, fun m hnm hm => ?_⟩
  · exact (nodeAt_builtTree s (by omega)).trans (nodeIn_growTree_of_lt (by omega) (by omega))
  · rw [hcount] at hm
    obtain ⟨-, hjoined⟩ := growTree_traced (f := s.freq) (by omega)
    rw [hobs] at hjoined
    obtain ⟨a, b, ha, hb, hlow, hleast, hnode⟩ := hjoined m hnm hm
    have ham : a < m := ha.1
    have hbm : b < m := hb.1
    refine ⟨a, b, (liveBefore_builtTree hm.le).2 ha, (liveBefore_builtTree hm.le).2 hb,
      (lowerKey_builtTree (by omega) (by omega)).2 hlow, fun k hk hka hkb => ?_, ?_⟩
    · have hkm : k < m := hk.1
      exact (lowerKey_builtTree (by omega) (by omega)).2 (hleast k ((liveBefore_builtTree hm.le).1 hk) hka hkb)
    · rw [nodeAt_builtTree s hm, nodeAt_builtTree s (by omega), nodeAt_builtTree s (by omega), hnode]
      rfl

end Sys2Proof.Machine
end

section
/-! The statements of 42_code_generator.md: GENCODE without a tree, the codes it assigns, and that no code begins another
(R135 to R143). -/

namespace Sys2Proof.Machine

/-! ### What GENCODE leaves (R135 to R138, R142) -/

/-- Settles O32: without a tree GENCODE is `raise NO_TREE`. -/
theorem gencodeWithoutTreeRaises : Obligations.GencodeWithoutTreeRaises := by
  unfold Obligations.GencodeWithoutTreeRaises
  exact fun _ => execGencode_of_noTree

/-- Settles O34: GENCODE leaves the arena and `FREQ` alone, and its table and its sum are those of the tree. -/
theorem gencodeAssignsThePaths : Obligations.GencodeAssignsThePaths := by
  unfold Obligations.GencodeAssignsThePaths
  intro s shape hv htree
  have hsum := htree.tbits_generated
  exact ⟨_, execGencode_of_tree hv, rfl, htree, htree.isCodeTable_generated, hsum, hsum ▸ weightedLength_lt (generated s)⟩

/-! ### No code begins another (R141) -/

section Codes
variable {s : State} {t : Shape} {x y : Byte}

/-- The code of a symbol that occurs is the path to its leaf (R136). -/
theorem IsCodeTable.codeString_mem_paths (hc : IsCodeTable s t) (ht : IsTree s t) (hx : freqAt s.freq x ≠ 0#32) :
    (x, codeString (codeAt s.code x)) ∈ t.paths := by
  obtain ⟨hpaths, -, -⟩ := hc
  obtain ⟨p, hp⟩ := ht.exists_path hx
  obtain ⟨hcode, -, -⟩ := hpaths _ hp
  exact hcode ▸ hp

/-- A symbol has a code exactly when it occurs (10_state.md R50). -/
theorem IsCodeTable.one_le_len_iff (hc : IsCodeTable s t) (ht : IsTree s t) :
    1 ≤ (codeAt s.code x).len.toNat ↔ freqAt s.freq x ≠ 0#32 := by
  constructor
  · intro hlen hx
    obtain ⟨-, -, habsent⟩ := hc
    rw [habsent x hx] at hlen
    exact absurd hlen (by decide)
  · intro hx
    have hlen := ht.length_paths (hc.codeString_mem_paths ht hx)
    rw [length_codeString] at hlen
    exact hlen.1

/-- A symbol whose code begins the code of another is that symbol. -/
theorem IsCodeTable.eq_of_prefix (hc : IsCodeTable s t) (ht : IsTree s t) (hx : freqAt s.freq x ≠ 0#32)
    (hy : freqAt s.freq y ≠ 0#32) (hp : codeString (codeAt s.code x) <+: codeString (codeAt s.code y)) : x = y :=
  Shape.paths_prefix_free t ht.nodup_leaves (hc.codeString_mem_paths ht hx) (hc.codeString_mem_paths ht hy) hp

end Codes

/-- Settles O35: the codes are paths of one tree, to its leaves. -/
theorem codesFormAPrefixCode : Obligations.CodesFormAPrefixCode := by
  unfold Obligations.CodesFormAPrefixCode
  intro s hok hv
  obtain ⟨t, htree, hcodes, -⟩ := hok hv
  exact ⟨fun x => hcodes.one_le_len_iff htree,
    fun x y hne hx hy hp => hne (hcodes.eq_of_prefix htree hx hy (List.isPrefixOf_iff_prefix.1 hp))⟩

end Sys2Proof.Machine
end

section
/-! The statements of 43_encoder.md: what the result registers of ENCODE say at each of its ends (R150 to R156). -/

namespace Sys2Proof.Machine

/-- The code bits of a beginning of a run of bytes are no more than those of the run. -/
theorem length_codeStream_readList_mono (s : State) (m : Memory) (a : Nat) {n k : Nat} (h : n ≤ k) :
    (codeStream s (m.readList a n)).length ≤ (codeStream s (m.readList a k)).length := by
  obtain ⟨rest, hrest⟩ := Memory.readList_prefix m a h
  rw [← hrest, codeStream_append, List.length_append]
  omega

/-- A source address is outside the destination range, once the overlap check has passed (20_memory.md R72). -/
theorem source_notin_destination {s : State} {k : Nat} (hs : inRange s.srcAddr s.srcLen = true)
    (ho : overlaps s.srcAddr s.srcLen s.dstAddr s.dstCap = false) (hk : k < s.srcLen.toNat) :
    inBuffer s.dstAddr s.dstCap (s.srcAddr + BitVec.ofNat 32 k) = false := by
  have hout := source_outside_destination ho hk
  simp only [inBuffer, toNat_add_ofNat hs hk, Bool.and_eq_false_iff, decide_eq_false_iff_not]
  omega

/-! ### What is consumed and written (R150, R152, R208) -/

/-- What the counts of a stream say at every end of it that met no race: the bytes consumed have codes, whose bits are counted in
`bits` and stand, filled up with zeros, in the bytes written; those of all but the last were written before it was read. -/
structure EncodeAccount (s : State) (st : EncodeRun) : Prop where
  streamed : Streamed s st.mem st.out
  inc_le : st.inc ≤ s.srcLen.toNat
  codes : ∀ b ∈ s.mem.readList s.srcAddr.toNat st.inc, (codeAt s.code b).len ≠ 0#8
  length : st.bits = (st.stream s).length
  written : MemoryOk s → ∀ j, j < 8 * st.out →
    bitOf (st.mem.readList s.dstAddr.toNat st.out) j = (st.stream s).getD j false
  prior : (codeStream s (s.mem.readList s.srcAddr.toNat (st.inc - 1))).length / 8 ≤ st.out

theorem EncodeKeeps.account {s : State} {st : EncodeRun} (h : EncodeKeeps s st) (hn : NoRace s) : EncodeAccount s st where
  streamed := h.streamed
  inc_le := h.inc_le
  codes := h.codes hn
  length := h.length hn
  written := fun hm j hj => by
    have hlen := h.length hn
    have hcount := h.count
    rw [h.bytes hn hm, bitOf_packAll hj (by omega)]
  prior := h.prior hn

theorem EncodeDone.stream_eq {s : State} {st : EncodeRun} (h : EncodeDone s st) :
    st.stream s = codeStream s (sourceBytes s) := by
  rw [EncodeRun.stream, h.inc, sourceBytes]

theorem EncodeDone.account {s : State} {st : EncodeRun} (h : EncodeDone s st) (hn : NoRace s) : EncodeAccount s st := by
  have hlen := h.length hn
  have hout := h.out
  refine ⟨h.streamed, h.inc.le, h.inc ▸ h.codes hn, h.stream_eq ▸ hlen, fun hm j hj => ?_, ?_⟩
  · rw [hlen] at hout
    rw [h.bytes hn hm, h.stream_eq, hout, bitOf_packAll_padded (hout ▸ hj)]
  · have hmono := length_codeStream_readList_mono s s.mem s.srcAddr.toNat (Nat.sub_le st.inc 1)
    rw [h.inc, ← sourceBytes, ← hlen, ← h.inc] at hmono
    unfold ceilDiv at hout
    omega

/-! ### Where each end stands (R153 to R156) -/

/-- Where a stream stands that ends with `ERRCODE = e`, at the address `a` where it is a refused access. -/
structure EncodePoint (s : State) (st : EncodeRun) (a : Word) (e : BitVec 8) : Prop where
  success : e = 0x00#8 → st.inc = s.srcLen.toNat ∧ st.out = ceilDiv st.bits 8
  unread : e = 0x0D#8 → inBuffer s.srcAddr s.srcLen a = true → st.out = st.bits / 8
  noCode : e = 0x06#8 → st.inc < s.srcLen.toNat ∧ st.out = st.bits / 8 ∧
    (codeAt s.code (s.mem.read (s.srcAddr.toNat + st.inc))).len = 0#8
  full : e = 0x07#8 → st.out = s.dstCap.toNat
  due : e = 0x07#8 ∨ (e = 0x0D#8 ∧ inBuffer s.dstAddr s.dstCap a = true) →
    8 * st.out < st.bits ∧ (st.bits < 8 * (st.out + 1) → st.inc = s.srcLen.toNat)

/-- Fewer than eight bits are pending: the whole bytes are written. -/
theorem EncodeKeeps.out_eq {s : State} {st : EncodeRun} (h : EncodeKeeps s st) (hb : st.buf.length < 8) :
    st.out = st.bits / 8 := by
  have hcount := h.count
  omega

/-- Where a byte is due, there are eight pending bits, or fewer at the end of the source (R152, R153). -/
theorem EncodeKeeps.bits_of_due {s : State} {st : EncodeRun} (h : EncodeKeeps s st) (hd : ByteDue s st) :
    8 * st.out < st.bits ∧ (st.bits < 8 * (st.out + 1) → st.inc = s.srcLen.toNat) := by
  obtain ⟨hne, hend⟩ := hd
  have hcount := h.count
  have hpos := List.length_pos_iff.2 hne
  exact ⟨by omega, fun hlt => hend (by omega)⟩

/-- A precheck raises a code of its own, of which no clause speaks (20_memory.md R71, R72). -/
theorem encodePoint_of_precheck {s : State} {e : ErrCode} (hp : codecPrecheck s = some e) (st : EncodeRun) (a : Word) :
    EncodePoint s st a (errValue e) := by
  rcases codecPrecheck_some hp with rfl | rfl | rfl <;> constructor <;> simp [errValue]

theorem EncodeDone.point {s : State} {st : EncodeRun} (h : EncodeDone s st) (a : Word) : EncodePoint s st a 0x00#8 :=
  ⟨fun _ => ⟨h.inc, h.out⟩, nofun, nofun, nofun, by simp⟩

theorem EncodeStops.point_of_error {s : State} {st : EncodeRun} {e : ErrCode} (h : EncodeStops s st (.error e))
    (hn : NoRace s) (a : Word) : EncodePoint s st a (errValue e) := by
  obtain ⟨hk, ⟨he, hi, hb, -, hl⟩ | ⟨he, ho, hd⟩ | ⟨-, -, hh⟩ | ⟨-, -, hh⟩⟩ := h
  · cases he
    exact ⟨nofun, nofun, fun _ => ⟨hi, hk.out_eq hb, hl hn⟩, nofun, by simp [errValue]⟩
  · cases he
    exact ⟨nofun, nofun, nofun, fun _ => ho, fun _ => hk.bits_of_due hd⟩
  · exact absurd hh Answer.not_halts_error
  · exact absurd hh Answer.not_halts_error

theorem EncodeStops.point_of_busError {s : State} {st : EncodeRun} {a : Word} (h : EncodeStops s st (.busError a))
    (hp : codecPrecheck s = none) : EncodePoint s st a 0x0D#8 := by
  obtain ⟨-, hs, hd, ho⟩ := codecPrecheck_none hp
  obtain ⟨hk, ⟨he, -⟩ | ⟨he, -⟩ | ⟨hi, hb, hh⟩ | ⟨hlt, hdue, hh⟩⟩ := h
  · cases he
  · cases he
  · obtain ⟨rfl, -⟩ := hh.of_busError
    exact ⟨nofun, fun _ _ => hk.out_eq hb, nofun, nofun, by simp [source_notin_destination hs ho hi]⟩
  · obtain ⟨rfl, -⟩ := hh.of_busError
    exact ⟨nofun, by simp [destination_outside_source hd ho hlt], nofun, nofun, fun _ => hk.bits_of_due hdue⟩

/-- Every completion of ENCODE that met no race is the end of a stream with these counts, at such a point. -/
theorem encode_completed {s t : State} (hn : NoRace s) (hx : exec .encode s = .next t) (hidle : t.engine = none) :
    ∃ st a e, EncodeAccount s st ∧ EncodePoint s st a e ∧ t = codecDone s st.mem st.out st.inc st.bits a e := by
  rcases encode_next hx with ⟨e, hp, rfl⟩ | ⟨hp, ⟨st, hd, rfl⟩ | ⟨st, e, hs, rfl⟩ | ⟨st, a, hs, rfl⟩ | ⟨st, -, rfl⟩⟩
  · exact ⟨encodeStart s, _, _, (encodeStart_keeps s).account hn, encodePoint_of_precheck hp _ _, rfl⟩
  · exact ⟨st, _, _, hd.account hn, hd.point _, rfl⟩
  · exact ⟨st, _, _, hs.1.account hn, hs.point_of_error hn _, rfl⟩
  · exact ⟨st, _, _, hs.1.account hn, hs.point_of_busError hp, rfl⟩
  · cases hidle

/-! ### The result registers -/

theorem EncodeAccount.toNat_inc {s : State} {st : EncodeRun} (h : EncodeAccount s st) :
    (BitVec.ofNat 32 st.inc).toNat = st.inc :=
  Nat.mod_eq_of_lt (lt_of_le_of_lt h.inc_le s.srcLen.isLt)

theorem EncodeAccount.toNat_bits {s : State} {st : EncodeRun} (h : EncodeAccount s st) :
    (BitVec.ofNat 64 st.bits).toNat = st.bits := by
  have hle := length_codeStream_readList_mono s s.mem s.srcAddr.toNat h.inc_le
  rw [← sourceBytes, ← EncodeRun.stream, ← h.length] at hle
  exact Nat.mod_eq_of_lt (lt_of_le_of_lt hle (length_codeStream_sourceBytes_lt s))

/-- A register that holds its count in full equals an operand exactly when the count is the operand's value. -/
theorem ofNat_eq_iff_of_toNat {n : Nat} {v : Word} (h : (BitVec.ofNat 32 n).toNat = n) : BitVec.ofNat 32 n = v ↔ n = v.toNat := by
  rw [← BitVec.toNat_inj, h]

/-- Settles O39: each end of the stream stands at its point, and the registers hold the stream's counts. -/
theorem encodeErrorPoints : Obligations.EncodeErrorPoints := by
  unfold Obligations.EncodeErrorPoints
  intro s t hn hx hidle
  obtain ⟨st, a, e, hacc, hpoint, rfl⟩ := encode_completed hn hx hidle
  have hout := hacc.streamed.toNat_out
  have hinc := hacc.toNat_inc
  have hbits := hacc.toNat_bits
  simp only [codecDone, hout, hinc, hbits, Memory.dropLast_readList, ofNat_eq_iff_of_toNat hout, ofNat_eq_iff_of_toNat hinc]
  exact ⟨hacc.codes, hacc.length, hacc.written, hacc.prior, hpoint.success, hpoint.unread, hpoint.noCode, hpoint.full,
    hpoint.due⟩

end Sys2Proof.Machine
end

section
/-! The statements of 44_decoder.md on where DECODE ends: what its result registers say of every completion (R165 to R174), and the
missing child of a table with one symbol (R170). -/

namespace Sys2Proof.Machine

/-! ### Where each end stands (R170 to R174) -/

/-- The next bit of the stream is there, is `b`, and reaches a leaf (R171). -/
def AtLeaf (s : State) (st : DecodeRun) (b : Bool) : Prop :=
  ∃ d, AtBit s st b d ∧ d ≠ NIL ∧ (nodeAt s.node d).leaf = true

/-- Where a stream of DECODE stands that ends with `ERRCODE = e`, at the address `a` where it is a refused access. -/
structure DecodePoint (s : State) (st : DecodeRun) (a : Word) (e : BitVec 8) : Prop where
  success : e = 0x00#8 → st.bits = s.tbits.toNat ∧ st.cur = s.root ∧ st.out = s.total.toNat
  full : e = 0x07#8 → st.out = s.dstCap.toNat
  absent : e = 0x08#8 → ∃ b, AtBit s st b NIL
  part : e = 0x09#8 → st.bits = s.tbits.toNat ∧ st.cur ≠ s.root
  mismatch : e = 0x0A#8 → st.bits = s.tbits.toNat ∧ st.cur = s.root ∧ st.out ≠ s.total.toNat
  unread : e = 0x0D#8 → inBuffer s.srcAddr s.srcLen a = true → st.bits < s.tbits.toNat ∧ st.bits % 8 = 0
  due : e = 0x07#8 ∨ (e = 0x0D#8 ∧ inBuffer s.dstAddr s.dstCap a = true) → ∃ b, AtLeaf s st b
  room : st.bits ≠ 0 ∨ e = 0x07#8 ∨ e = 0x08#8 ∨ e = 0x0D#8 → ceilDiv s.tbits.toNat 8 ≤ s.srcLen.toNat

/-- A precheck raises a code of its own, of which no clause speaks, before any bit is read (R165, R167). -/
theorem decodePoint_of_precheck {e : ErrCode} (h : e = .truncated ∨ e = .noCodes ∨ e = .addrRange ∨ e = .overlap) (s : State)
    (a : Word) : DecodePoint s (decodeStart s) a (errValue e) := by
  rcases h with rfl | rfl | rfl | rfl <;> constructor <;> simp [errValue, decodeStart]

section Ends
variable {s : State} {st : DecodeRun} {a : Word} {e : ErrCode}

theorem DecodeDone.point (h : DecodeDone s st) (hlen : ceilDiv s.tbits.toNat 8 ≤ s.srcLen.toNat) (a : Word) :
    DecodePoint s st a 0x00#8 := by
  obtain ⟨-, hend⟩ := h
  exact ⟨fun _ => hend, nofun, nofun, nofun, nofun, nofun, by simp, fun _ => hlen⟩

theorem DecodeStops.point_of_error (h : DecodeStops s st (.error e)) (hlen : ceilDiv s.tbits.toNat 8 ≤ s.srcLen.toNat)
    (a : Word) : DecodePoint s st a (errValue e) := by
  obtain ⟨-, ⟨he, hat⟩ | ⟨he, hout, b, d, hleaf⟩ | ⟨-, -, hh⟩ | ⟨-, -, hh⟩ | ⟨he, hend⟩ | ⟨he, hend⟩⟩ := h
  · cases he
    exact ⟨nofun, nofun, fun _ => hat, nofun, nofun, nofun, by simp [errValue], fun _ => hlen⟩
  · cases he
    exact ⟨nofun, fun _ => hout, nofun, nofun, nofun, nofun, fun _ => ⟨b, d, hleaf⟩, fun _ => hlen⟩
  · exact absurd hh Answer.not_halts_error
  · exact absurd hh Answer.not_halts_error
  · cases he
    exact ⟨nofun, nofun, nofun, fun _ => hend, nofun, nofun, by simp [errValue], fun _ => hlen⟩
  · cases he
    exact ⟨nofun, nofun, nofun, nofun, fun _ => hend, nofun, by simp [errValue], fun _ => hlen⟩

theorem DecodeStops.point_of_busError (h : DecodeStops s st (.busError a)) (hp : codecPrecheck s = none)
    (hlen : ceilDiv s.tbits.toNat 8 ≤ s.srcLen.toNat) : DecodePoint s st a 0x0D#8 := by
  obtain ⟨-, hs, hd, ho⟩ := codecPrecheck_none hp
  obtain ⟨-, ⟨he, -⟩ | ⟨he, -⟩ | ⟨hlt, h8, hh⟩ | ⟨hlt, ⟨b, d, hleaf⟩, hh⟩ | ⟨he, -⟩ | ⟨he, -⟩⟩ := h
  · cases he
  · cases he
  · obtain ⟨rfl, -⟩ := hh.of_busError
    have hk : st.bits / 8 < s.srcLen.toNat := by unfold ceilDiv at hlen; omega
    exact ⟨nofun, nofun, nofun, nofun, nofun, fun _ _ => ⟨hlt, h8⟩, by simp [source_notin_destination hs ho hk],
      fun _ => hlen⟩
  · obtain ⟨rfl, -⟩ := hh.of_busError
    exact ⟨nofun, nofun, nofun, nofun, nofun, by simp [destination_outside_source hd ho hlt], fun _ => ⟨b, d, hleaf⟩,
      fun _ => hlen⟩
  · cases he
  · cases he

end Ends

/-- Every completion of DECODE is the end of a stream at such a point. -/
theorem decode_completed {s t : State} (hx : exec .decode s = .next t) (hidle : t.engine = none) :
    ∃ st a e, DecodeKeeps s st ∧ DecodePoint s st a e ∧ t = codecDone s st.mem st.out (ceilDiv st.bits 8) st.bits a e := by
  rcases decode_next hx with ⟨e, hp, rfl⟩ | ⟨-, -, rfl⟩ |
    ⟨hp, hlen, ⟨st, hd, rfl⟩ | ⟨st, e, hs, rfl⟩ | ⟨st, a, hs, rfl⟩ | ⟨st, -, rfl⟩⟩
  · exact ⟨_, _, _, decodeStart_keeps s, decodePoint_of_precheck (Or.inr (codecPrecheck_some hp)) s _,
      (codecDone_decodeStart s _).symm⟩
  · exact ⟨_, _, _, decodeStart_keeps s, decodePoint_of_precheck (Or.inl rfl) s _, (codecDone_decodeStart s _).symm⟩
  · exact ⟨st, _, _, hd.1, hd.point hlen _, rfl⟩
  · exact ⟨st, _, _, hs.1, hs.point_of_error hlen _, rfl⟩
  · exact ⟨st, _, _, hs.1, hs.point_of_busError hp hlen, rfl⟩
  · cases hidle

theorem DecodeKeeps.toNat_bits {s : State} {st : DecodeRun} (h : DecodeKeeps s st) : (BitVec.ofNat 64 st.bits).toNat = st.bits :=
  Nat.mod_eq_of_lt (lt_of_le_of_lt h.bits_le s.tbits.isLt)

/-- The first `TBITS` bits stand in the source bytes (R167). -/
theorem bitOf_sourceBytes_of_room {s : State} (h : ceilDiv s.tbits.toNat 8 ≤ s.srcLen.toNat) {j : Nat} (hj : j < s.tbits.toNat) :
    bitOf (sourceBytes s) j = sourceBit s j :=
  bitOf_sourceBytes (by unfold ceilDiv at h; omega)

/-! ### What was read (R169) -/

/-- The bits read are the codes of the bytes written and then `p`, with which the code `p ++ q` of a symbol begins. -/
structure ReadSoFar (s : State) (st : DecodeRun) (p q : List Bool) : Prop where
  occur : ∀ b ∈ st.mem.readList s.dstAddr.toNat st.out, freqAt s.freq b ≠ 0#32
  code : ∃ b, freqAt s.freq b ≠ 0#32 ∧ codeString (codeAt s.code b) = p ++ q
  missing : q ≠ []
  count : st.bits = (codeStream s (st.mem.readList s.dstAddr.toNat st.out) ++ p).length
  stream : ∀ j, j < st.bits → sourceBit s j = (codeStream s (st.mem.readList s.dstAddr.toNat st.out) ++ p).getD j false

section Walks
variable {s : State} {t : Shape} {st : DecodeRun} {es : List (Byte × List Bool)} {p : List Bool} {c : Shape}

/-- A symbol with a path occurs. -/
theorem IsTree.freqAt_ne_zero (ht : IsTree s t) {e : Byte × List Bool} (he : e ∈ t.paths) : freqAt s.freq e.1 ≠ 0#32 := by
  have hmem : e.1 ∈ t.leaves.map Prod.fst := Shape.map_fst_paths t ▸ List.mem_map_of_mem he
  rw [(ht.leaves_perm.map Prod.fst).mem_iff] at hmem
  obtain ⟨f, hf, hfe⟩ := List.mem_map.1 hmem
  rw [← hfe]
  exact (mem_observed.1 hf).2

theorem Walked.readSoFar (h : Walked s t st es p c) (ht : IsTree s t) (hc : IsCodeTable s t) (hm : MemoryOk s) (hn : NoRace s)
    {x : Byte} {q : List Bool} (hx : (x, p ++ q) ∈ t.paths) (hq : q ≠ []) : ReadSoFar s st p q := by
  have hbytes := h.bytes hn hm
  have hcodes := codeStream_map_fst hc h.done
  obtain ⟨hpaths, -, -⟩ := hc
  obtain ⟨hcode, -⟩ := hpaths _ hx
  refine ⟨?_, ⟨x, ht.freqAt_ne_zero hx, hcode⟩, hq, ?_, ?_⟩
  · rw [hbytes]
    intro b hb
    obtain ⟨e, he, rfl⟩ := List.mem_map.1 hb
    exact ht.freqAt_ne_zero (h.done e he)
  · rw [hbytes, hcodes, h.bits]
  · rw [hbytes, hcodes]
    have hstream := h.stream hn
    rw [h.bits] at hstream ⊢
    exact sourceBits_eq.1 hstream

/-- Below the cursor there is a path to a leaf, of one step and more. -/
theorem Walked.exists_rest (h : Walked s t st es p c) : ∃ x q, (x, p ++ q) ∈ t.paths ∧ q ≠ [] := by
  obtain ⟨e, he⟩ := List.exists_mem_of_ne_nil _ (Shape.paths_ne_nil c)
  exact ⟨e.1, e.2, h.sub e he, Shape.paths_of_inner h.held h.inner e he⟩

/-- One bit before a leaf, that bit is all that is missing of its path. -/
theorem Walked.path_of_atLeaf (h : Walked s t st es p c) (ht : IsTree s t) {b : Bool} (hb : AtLeaf s st b) :
    ∃ x, (x, p ++ [b]) ∈ t.paths := by
  obtain ⟨d, hat, hne, hl⟩ := hb
  exact ⟨_, (h.child ht hat.2.1 hne).1 hl⟩

end Walks

/-- At each end, what was read: with no code under way at the end of whole codes, a part of one at `PARTIAL_CODE`, and all of one but
the next bit where a byte is due. -/
theorem DecodePoint.readSoFar {s : State} {t : Shape} {st : DecodeRun} {a : Word} {e : BitVec 8} (h : DecodePoint s st a e)
    (hk : DecodeKeeps s st) (ht : IsTree s t) (hc : IsCodeTable s t) (hm : MemoryOk s) (hn : NoRace s) :
    ∃ p q, ReadSoFar s st p q ∧ (e = 0x00#8 → p = []) ∧ (e = 0x09#8 → p ≠ []) ∧ (e = 0x0A#8 → p = []) ∧
      (e = 0x07#8 ∨ (e = 0x0D#8 ∧ inBuffer s.dstAddr s.dstCap a = true) →
        st.bits < s.tbits.toNat ∧ q = [bitOf (sourceBytes s) st.bits]) := by
  obtain ⟨es, p, c, hwk⟩ := hk.walk t ht
  have hroot := hwk.at_root ht
  have hread : ∃ q, ReadSoFar s st p q ∧ (e = 0x07#8 ∨ (e = 0x0D#8 ∧ inBuffer s.dstAddr s.dstCap a = true) →
      st.bits < s.tbits.toNat ∧ q = [bitOf (sourceBytes s) st.bits]) := by
    by_cases hdue : e = 0x07#8 ∨ (e = 0x0D#8 ∧ inBuffer s.dstAddr s.dstCap a = true)
    · obtain ⟨b, hleaf⟩ := h.due hdue
      obtain ⟨x, hx⟩ := hwk.path_of_atLeaf ht hleaf
      obtain ⟨d, ⟨hlt, -, hbit⟩, -⟩ := hleaf
      refine ⟨[b], hwk.readSoFar ht hc hm hn hx (by simp), fun _ => ⟨hlt, ?_⟩⟩
      rw [bitOf_sourceBytes_of_room (h.room (Or.inr ?_)) hlt, hbit hn]
      exact hdue.imp_right (fun hd => Or.inr hd.1)
    · obtain ⟨x, q, hx, hq⟩ := hwk.exists_rest
      exact ⟨q, hwk.readSoFar ht hc hm hn hx hq, fun h => absurd h hdue⟩
  obtain ⟨q, hq, hdue⟩ := hread
  exact ⟨p, q, hq, fun he => hroot.1 (h.success he).2.1, fun he => mt hroot.2 (h.part he).2,
    fun he => hroot.1 (h.mismatch he).2.1, hdue⟩

/-! ### A table with one symbol (R170) -/

/-- A missing child means that one symbol occurs, and that the bit is 1. -/
theorem DecodeKeeps.single_of_absent {s : State} {st : DecodeRun} (hk : DecodeKeeps s st) (ht : ∃ t, IsTree s t) {b : Bool}
    (hb : AtBit s st b NIL) : b = true ∧ ∃ x, freqAt s.freq x ≠ 0#32 ∧ ∀ y, y ≠ x → freqAt s.freq y = 0#32 := by
  obtain ⟨t, ht⟩ := ht
  obtain ⟨es, p, c, hwk⟩ := hk.walk t ht
  obtain ⟨htrue, i, j, x, w, rfl⟩ := hwk.absent ht hb
  have hobs := ht.observed_of_wrap
  refine ⟨htrue, x, ?_, fun y hne => ?_⟩
  · have hx : (x, w) ∈ observed s.freq := by simp [hobs]
    exact (mem_observed.1 hx).2
  · by_contra hy
    have hmem : (y, freqAt s.freq y) ∈ observed s.freq := mem_observed.2 ⟨rfl, hy⟩
    rw [hobs, List.mem_singleton] at hmem
    exact hne (congrArg Prod.fst hmem)

/-- Where the child is missing, the table has one symbol and the next bit is 1. -/
theorem DecodePoint.single_of_absent {s : State} {st : DecodeRun} {a : Word} (h : DecodePoint s st a 0x08#8)
    (hk : DecodeKeeps s st) (ht : ∃ t, IsTree s t) :
    st.bits < s.tbits.toNat ∧ (NoRace s → bitOf (sourceBytes s) st.bits = true) ∧
      ∃ x, freqAt s.freq x ≠ 0#32 ∧ ∀ y, y ≠ x → freqAt s.freq y = 0#32 := by
  obtain ⟨b, hb⟩ := h.absent rfl
  obtain ⟨rfl, hsingle⟩ := hk.single_of_absent ht hb
  obtain ⟨hlt, -, hbit⟩ := hb
  exact ⟨hlt, fun hn => by rw [bitOf_sourceBytes_of_room (h.room (by simp)) hlt, ← hbit hn], hsingle⟩

/-- The code of a lone symbol is the bit 0 (41_tree_builder.md R124). -/
theorem IsTree.paths_of_single {s : State} {t : Shape} (ht : IsTree s t) (h : (observed s.freq).length = 1) :
    ∀ e ∈ t.paths, e.2 = [false] := by
  have hproper := ht.proper
  have hleaves := ht.leaves_perm.length_eq.trans h
  cases t with
  | leaf i x w => exact hproper.elim
  | wrap i d =>
    obtain ⟨j, x, w, rfl⟩ := hproper
    simp [Shape.paths]
  | fork i l r =>
    have hpos : ∀ d : Shape, 0 < d.leaves.length := fun d => by
      have := congrArg List.length (Shape.map_fst_paths d)
      rw [List.length_map, List.length_map] at this
      exact this ▸ List.length_pos_iff.2 (Shape.paths_ne_nil d)
    have hl := hpos l
    have hr := hpos r
    rw [Shape.leaves, List.length_append] at hleaves
    omega

/-- Paths of one step 0 each are as many zeros. -/
theorem pathBits_of_single {es : List (Byte × List Bool)} (h : ∀ e ∈ es, e.2 = [false]) :
    pathBits es = List.replicate es.length false := by
  induction es with
  | nil => rfl
  | cons e es ih =>
    rw [pathBits_cons, h e (by simp), ih (fun e he => h e (by simp [he])), List.length_cons, List.replicate_succ]
    rfl

section Single
variable {s : State} {st : DecodeRun} {t : Shape}

/-- With one symbol every bit read is 0 and has written a byte, and only a bit 0 reaches a leaf. -/
theorem DecodeKeeps.single (hk : DecodeKeeps s st) (ht : IsTree s t) (h : (observed s.freq).length = 1) (hn : NoRace s) :
    st.out = st.bits ∧ (∀ i, i < st.bits → sourceBit s i = false) ∧ ∀ b, AtLeaf s st b → sourceBit s st.bits = false := by
  have hpaths := ht.paths_of_single h
  obtain ⟨es, p, c, hwk⟩ := hk.walk t ht
  obtain ⟨x, q, hx, hq⟩ := hwk.exists_rest
  obtain rfl : p = [] := by
    have hlen := congrArg List.length (hpaths _ hx)
    have hpos := List.length_pos_iff.2 hq
    rw [List.length_append, List.length_singleton] at hlen
    exact List.length_eq_zero_iff.1 (by omega)
  have hzeros := pathBits_of_single (fun e he => hpaths e (hwk.done e he))
  have hbits := hwk.bits
  have hstream := hwk.stream hn
  rw [List.append_nil, hzeros] at hbits hstream
  rw [List.length_replicate] at hbits
  refine ⟨hwk.out.trans hbits.symm, fun i hi => ?_, fun b hleaf => ?_⟩
  · have hmem : sourceBit s i ∈ sourceBits s st.bits := List.mem_map_of_mem (List.mem_range.2 hi)
    rw [hstream] at hmem
    exact List.eq_of_mem_replicate hmem
  · obtain ⟨y, hy⟩ := hwk.path_of_atLeaf ht hleaf
    obtain ⟨d, ⟨-, -, hbit⟩, -⟩ := hleaf
    rw [← hbit hn]
    exact List.singleton_inj.1 (hpaths _ hy)

/-- The first bit 1 of the stream, at `j`, stops a table of one symbol at the missing child, where the accesses before it complete
and the output fits. -/
theorem DecodeStops.absent_of_single {why : Halt} (hs : DecodeStops s st why) (ht : IsTree s t)
    (h : (observed s.freq).length = 1) (hn : NoRace s) {j : Nat} (hj : j < s.tbits.toNat) (hone : sourceBit s j = true)
    (hzero : ∀ i, i < j → sourceBit s i = false) (hcap : j ≤ s.dstCap.toNat) (hr : ReadsComplete s s.srcAddr (j / 8 + 1))
    (hw : WritesComplete s s.dstAddr j) : why = .error .absentChild ∧ st.bits = j ∧ st.out = j := by
  obtain ⟨hk, hs⟩ := hs
  obtain ⟨hout, hread, hleaf⟩ := hk.single ht h hn
  have hle : st.bits ≤ j := by
    by_contra hlt
    exact absurd (hone.symm.trans (hread j (by omega))) (by decide)
  have hbefore : ∀ b, AtLeaf s st b → st.bits < j := fun b hb => by
    refine lt_of_le_of_ne hle (fun heq => ?_)
    exact absurd (hone.symm.trans (heq ▸ hleaf b hb)) (by decide)
  rcases hs with ⟨rfl, b, hb⟩ | ⟨-, hfull, b, d, hb⟩ | ⟨-, -, ha⟩ | ⟨-, ⟨b, d, hb⟩, ha⟩ | ⟨-, hb, -⟩ | ⟨-, hb, -⟩
  · have htrue := (hk.single_of_absent ⟨t, ht⟩ hb).1
    have hge : ¬ st.bits < j := fun hlt => by
      have hbit := hb.2.2 hn
      rw [htrue, hzero _ hlt] at hbit
      cases hbit
    exact ⟨rfl, by omega, by omega⟩
  · have := hbefore b ⟨d, hb⟩
    omega
  · exact absurd (hr _ (by omega)) ha.ne_completes
  · have := hbefore b ⟨d, hb⟩
    exact absurd (hw _ (by omega)) ha.ne_completes
  · omega
  · omega

/-- With one symbol the whole stream ends at its first bit 1. -/
theorem decodeStream_absent_of_single (hp : codecPrecheck s = none) (hlen : ceilDiv s.tbits.toNat 8 ≤ s.srcLen.toNat)
    (ht : IsTree s t) (h : (observed s.freq).length = 1) (hn : NoRace s) {j : Nat} (hj : j < s.tbits.toNat)
    (hone : sourceBit s j = true) (hzero : ∀ i, i < j → sourceBit s i = false) (hcap : j ≤ s.dstCap.toNat)
    (hr : ReadsComplete s s.srcAddr (j / 8 + 1)) (hw : WritesComplete s s.dstAddr j) :
    ∃ st, decodeStream s = .halt st (.error .absentChild) ∧ DecodeKeeps s st ∧ st.bits = j ∧ st.out = j := by
  rcases decodeStream_cases s with ⟨e, he, -⟩ | ⟨-, hlt, -⟩ | ⟨-, -, hpost⟩
  · rw [hp] at he
    cases he
  · omega
  · cases hf : decodeStream s with
    | go st =>
      rw [hf] at hpost
      obtain ⟨hk, hend, -⟩ := hpost
      obtain ⟨-, hread, -⟩ := hk.single ht h hn
      exact absurd (hone.symm.trans (hread j (by omega))) (by decide)
    | halt st why =>
      rw [hf] at hpost
      obtain ⟨rfl, hbits, hout⟩ := DecodeStops.absent_of_single hpost ht h hn hj hone hzero hcap hr hw
      obtain ⟨hk, -⟩ := hpost
      exact ⟨st, rfl, hk, hbits, hout⟩

end Single

/-- Settles O41: each end of the stream stands at its point, what was read is what the walk has followed, and with one symbol the
first bit 1 has no child. -/
theorem decodeErrorPoints : Obligations.DecodeErrorPoints := by
  unfold Obligations.DecodeErrorPoints
  constructor
  · intro s t hx hidle
    obtain ⟨st, a, e, hk, hpt, rfl⟩ := decode_completed hx hidle
    have hout := hk.streamed.toNat_out
    have hbits := hk.toNat_bits
    have htbits : BitVec.ofNat 64 st.bits = s.tbits ↔ st.bits = s.tbits.toNat := by rw [← BitVec.toNat_inj, hbits]
    simp only [codecDone, hout, hbits, htbits, ofNat_eq_iff_of_toNat hout]
    refine ⟨fun he => ⟨hpt.full he, ?_⟩, fun he htree hv => ?_, hpt.unread, fun he => (hpt.part he).1,
      fun he => ⟨(hpt.mismatch he).1, (hpt.mismatch he).2.2⟩, fun he => ⟨(hpt.success he).1, (hpt.success he).2.2⟩,
      fun hm hcodes hn hv => ?_⟩
    · obtain ⟨b, d, ⟨hlt, -⟩, -⟩ := hpt.due (Or.inl he)
      exact hlt
    · subst he
      exact hpt.single_of_absent hk (htree hv)
    · obtain ⟨sh, htree, htable, -⟩ := hcodes hv
      obtain ⟨p, q, hread, hends⟩ := hpt.readSoFar hk htree htable hm hn
      obtain ⟨hoccur, ⟨b, hb, hcode⟩, hmissing, hcount, hstream⟩ := hread
      refine ⟨hoccur, p, q, b, hb, hcode, hmissing, hcount, fun j hj => ?_, hends⟩
      rw [bitOf_sourceBytes_of_room (hpt.room (Or.inl (by omega))) (hj.trans_le hk.bits_le), hstream j hj]
  · intro s x j hcodes hn hv hs hd ho hlen hx hother hj hone hzero hcap hr hw
    obtain ⟨sh, htree, -⟩ := hcodes hv
    have hsingle : (observed s.freq).length = 1 := by simp [observed_single hx hother]
    have hbit : ∀ {i}, i < s.tbits.toNat → bitOf (sourceBytes s) i = sourceBit s i := bitOf_sourceBytes_of_room hlen
    obtain ⟨st, hhalt, hk, hbits, hout⟩ := decodeStream_absent_of_single (codecPrecheck_eq_none hv hs hd ho) hlen htree hsingle
      hn hj (hbit hj ▸ hone) (fun i hi => hbit (hi.trans hj) ▸ hzero i hi) hcap hr hw
    exact ⟨_, execDecode_halt hhalt, rfl, rfl, rfl, hk.toNat_bits.trans hbits, hk.streamed.toNat_out.trans hout⟩

end Sys2Proof.Machine
end

section
/-! The pad bits of 44_decoder.md R175: DECODE runs alike from two memories that agree on the first TBITS bits of its source. -/

namespace Sys2Proof.Machine

/-! ### The ports with another memory -/

/-- Whether a read completes depends on the platform only. -/
theorem portRead_of_memory (s : State) (m0 m m' : Memory) (a : Word) :
    (∃ b b', portRead s m a = .ok b ∧ portRead { s with mem := m0 } m' a = .ok b') ∨
    ∃ why, portRead s m a = .error why ∧ portRead { s with mem := m0 } m' a = .error why := by
  have hu : readAnswer { s with mem := m0 } a = readAnswer s a := rfl
  unfold portRead
  rw [hu]
  cases readAnswer s a with
  | completes => exact Or.inl ⟨_, _, rfl, rfl⟩
  | refuses => exact Or.inr ⟨_, rfl, rfl⟩
  | silent => exact Or.inr ⟨_, rfl, rfl⟩
  | device => exact Or.inr ⟨_, rfl, rfl⟩

/-- Whether a write completes depends on the platform only. -/
theorem portWrite_of_memory (s : State) (m0 m m' : Memory) (a : Word) (v : Byte) :
    (∃ w w', portWrite s m a v = .ok w ∧ portWrite { s with mem := m0 } m' a v = .ok w') ∨
    ∃ why, portWrite s m a v = .error why ∧ portWrite { s with mem := m0 } m' a v = .error why := by
  have hu : writeAnswer { s with mem := m0 } a = writeAnswer s a := rfl
  unfold portWrite
  rw [hu]
  cases writeAnswer s a with
  | completes => exact Or.inl ⟨_, _, rfl, rfl⟩
  | refuses => exact Or.inr ⟨_, rfl, rfl⟩
  | silent => exact Or.inr ⟨_, rfl, rfl⟩
  | device => exact Or.inr ⟨_, rfl, rfl⟩

/-- A codec command ends alike with another memory. -/
theorem endCodec_of_memory {i : Instr} {s t : State} {m : Memory} {out inc bits : Nat} {why : Option Halt}
    (h : endCodec i s m out inc bits why = .next t) (m0 m' : Memory) :
    endCodec i { s with mem := m0 } m' out inc bits why = .next { t with mem := m' } ∧
      t.mem = m ∧ (t.engine = none → t.outLen = BitVec.ofNat 32 out) := by
  cases why with
  | none => cases h; exact ⟨rfl, rfl, fun _ => rfl⟩
  | some why =>
    cases why with
    | error e => cases h; exact ⟨rfl, rfl, fun _ => rfl⟩
    | busError a => cases h; exact ⟨rfl, rfl, fun _ => rfl⟩
    | noAnswer => cases h; exact ⟨rfl, rfl, nofun⟩
    | device => cases h

/-! ### Two runs side by side -/

/-- Another memory under DECODE's premises: both are canonical, no host store interferes, and the two agree on the first `TBITS`
bits of the source. -/
structure SameSourceBits (s : State) (m0 : Memory) : Prop where
  memory : MemoryOk s
  memory' : m0.wf = true
  noRace : NoRace s
  bits : ∀ j, j < s.tbits.toNat → sourceBit s j = sourceBit { s with mem := m0 } j

/-- Two DECODE streams at the same point, with the same bytes written. -/
structure SameRun (s : State) (m0 : Memory) (st st' : DecodeRun) : Prop where
  same : st' = { st with mem := st'.mem, byte := st'.byte }
  left : Streamed s st.mem st.out
  right : Streamed { s with mem := m0 } st'.mem st.out
  written : st'.mem.readList s.dstAddr.toNat st.out = st.mem.readList s.dstAddr.toNat st.out

/-- The two current source bytes agree on the bits below `TBITS` of the byte in which bit `j` stands. -/
def SameByte (s : State) (j : Nat) (st st' : DecodeRun) : Prop :=
  ∀ i, i < s.tbits.toNat → i / 8 = j / 8 → streamBit st'.byte i = streamBit st.byte i

/-- The second stream halts as the first does. -/
def SameHalt (s : State) (m0 : Memory) (st : DecodeRun) (why : Halt) (g : Flow DecodeRun) : Prop :=
  ∃ st', g = .halt st' why ∧ SameRun s m0 st st'

theorem SameHalt.andThen {s : State} {m0 : Memory} {st : DecodeRun} {why : Halt} {g : Flow DecodeRun}
    (h : SameHalt s m0 st why g) (k : DecodeRun → Flow DecodeRun) : SameHalt s m0 st why (g.andThen k) := by
  obtain ⟨st', rfl, hrun⟩ := h
  exact ⟨st', rfl, hrun⟩

section Runs
variable {s : State} {m0 : Memory} {st st' : DecodeRun} {j : Nat}

theorem SameRun.start (s : State) (m0 : Memory) : SameRun s m0 (decodeStart s) (decodeStart { s with mem := m0 }) :=
  ⟨rfl, Streamed.start s, Streamed.start { s with mem := m0 }, rfl⟩

/-- A fetch brings bytes that agree on the bits that count. -/
theorem fetchByte_sameRun (hsrc : SameSourceBits s m0) (hp : codecPrecheck s = none)
    (hlen : ceilDiv s.tbits.toNat 8 ≤ s.srcLen.toNat) (hrun : SameRun s m0 st st') (hj : j < s.tbits.toNat)
    (hbyte : j % 8 ≠ 0 → SameByte s j st st') :
    (fetchByte s j st).Follows (fun a a' => SameRun s m0 a a' ∧ SameByte s j a a') (SameHalt s m0)
      (fetchByte { s with mem := m0 } j st') := by
  obtain ⟨-, hs, -, ho⟩ := codecPrecheck_none hp
  have hk : j / 8 < s.srcLen.toNat := by unfold ceilDiv at hlen; omega
  obtain ⟨hsame, hleft, hright, hwritten⟩ := hrun
  unfold fetchByte
  split
  · rcases portRead_of_memory s m0 st.mem st'.mem (s.srcAddr + BitVec.ofNat 32 (j / 8)) with
      ⟨b, b', hb, hb'⟩ | ⟨why, hw, hw'⟩
    · have hv := (hleft.read hs ho hk hb).2 hsrc.noRace
      have hv' := (hright.read hs ho hk hb').2 hsrc.noRace
      simp only [hb, hb']
      refine ⟨_, rfl, ⟨by rw [hsame], hleft, hright, hwritten⟩, fun i hi hij => ?_⟩
      have hbit := hsrc.bits i hi
      unfold sourceBit at hbit
      rw [hij] at hbit
      rw [hv, hv', hbit]
    · simp only [hw, hw']
      exact Or.inr ⟨_, rfl, hsame, hleft, hright, hwritten⟩
  · next h8 => exact ⟨_, rfl, ⟨hsame, hleft, hright, hwritten⟩, hbyte h8⟩

/-- Equal bits take the two streams the same way. -/
theorem walkBit_sameRun (hsrc : SameSourceBits s m0) (hp : codecPrecheck s = none) (hrun : SameRun s m0 st st')
    (hj : j < s.tbits.toNat) (hbyte : SameByte s j st st') :
    (walkBit s j st).Follows (fun a a' => SameRun s m0 a a' ∧ SameByte s j a a') (SameHalt s m0)
      (walkBit { s with mem := m0 } j st') := by
  obtain ⟨-, -, hd, -⟩ := codecPrecheck_none hp
  have hbit : streamBit st'.byte j = streamBit st.byte j := hbyte j hj rfl
  have hcur : st'.cur = st.cur := by rw [hrun.same]
  have hout : st'.out = st.out := by rw [hrun.same]
  obtain ⟨hsame, hleft, hright, hwritten⟩ := hrun
  unfold walkBit
  simp only [hbit, hcur, hout]
  split
  · exact Or.inr ⟨_, rfl, hsame, hleft, hright, hwritten⟩
  · split
    · split
      · exact Or.inr ⟨_, rfl, hsame, hleft, hright, hwritten⟩
      · next hfull =>
        have hlt : st.out < s.dstCap.toNat := lt_of_le_of_ne hleft.out_le hfull
        rcases portWrite_of_memory s m0 st.mem st'.mem (s.dstAddr + BitVec.ofNat 32 st.out)
            (nodeAt s.node (childOf (nodeAt s.node st.cur) (streamBit st.byte j))).sym with ⟨m, m', hm, hm'⟩ | ⟨why, hw, hw'⟩
        · obtain ⟨hleft', happ⟩ := hleft.write hd hlt hm
          obtain ⟨hright', happ'⟩ := hright.write hd hlt hm'
          simp only [hm, hm']
          refine ⟨_, rfl, ⟨by rw [hsame], hleft', hright', ?_⟩, hbyte⟩
          exact (happ' hsrc.noRace hsrc.memory').trans ((congrArg (· ++ _) hwritten).trans (happ hsrc.noRace hsrc.memory).symm)
        · simp only [hw, hw']
          exact Or.inr ⟨_, rfl, hsame, hleft, hright, hwritten⟩
    · exact ⟨_, rfl, ⟨by rw [hsame], hleft, hright, hwritten⟩, hbyte⟩

theorem decodeBits_sameRun (hsrc : SameSourceBits s m0) (hp : codecPrecheck s = none)
    (hlen : ceilDiv s.tbits.toNat 8 ≤ s.srcLen.toNat) (n : Nat) (hrun : SameRun s m0 st st')
    (hbyte : j % 8 ≠ 0 → SameByte s j st st') (hn : j + n = s.tbits.toNat) :
    (decodeBits s n j st).Follows (SameRun s m0) (SameHalt s m0) (decodeBits { s with mem := m0 } n j st') := by
  induction n generalizing j st st' with
  | zero => exact ⟨_, rfl, hrun⟩
  | succ n ih =>
    unfold decodeBits
    exact Flow.Follows.andThen (Flow.Follows.andThen (fetchByte_sameRun hsrc hp hlen hrun (by omega) hbyte)
      (fun a a' _ h => walkBit_sameRun hsrc hp h.1 (by omega) h.2) (fun _ _ h => h) (fun _ _ h => h.andThen _))
      (fun a a' _ h => ih h.1 (fun h8 i hi hij => h.2 i hi (by omega)) (by omega)) (fun _ _ h => h.1)
      (fun _ _ h => h.andThen _)

theorem decodeEnd_sameRun (hrun : SameRun s m0 st st') :
    (decodeEnd s st).Follows (SameRun s m0) (SameHalt s m0) (decodeEnd { s with mem := m0 } st') := by
  have hcur : st'.cur = st.cur := by rw [hrun.same]
  have hout : st'.out = st.out := by rw [hrun.same]
  unfold decodeEnd
  rw [hcur, hout]
  split
  · exact Or.inr ⟨_, rfl, hrun⟩
  · split
    · exact Or.inr ⟨_, rfl, hrun⟩
    · exact ⟨_, rfl, hrun⟩

/-- The whole of DECODE from two memories with the same first `TBITS` source bits. -/
theorem decodeStream_sameRun (hsrc : SameSourceBits s m0) :
    (decodeStream s).Follows (SameRun s m0) (SameHalt s m0) (decodeStream { s with mem := m0 }) := by
  have hsame : codecPrecheck { s with mem := m0 } = codecPrecheck s := rfl
  unfold decodeStream
  rw [hsame]
  cases hp : codecPrecheck s with
  | some e => exact Or.inr ⟨_, rfl, SameRun.start s m0⟩
  | none =>
    by_cases hlen : s.srcLen.toNat < ceilDiv s.tbits.toNat 8
    · simp only [if_pos hlen]
      exact Or.inr ⟨_, rfl, SameRun.start s m0⟩
    · simp only [if_neg hlen]
      exact (decodeBits_sameRun hsrc hp (by omega) _ (SameRun.start s m0) (fun h => absurd rfl h) (by omega)).andThen
        (fun _ _ _ => decodeEnd_sameRun) (fun _ _ h => h) (fun _ _ h => h.andThen _)

/-- The two streams stop for the same reason, at the same point. -/
theorem SameRun.of_follows {f g : Flow DecodeRun} (h : f.Follows (SameRun s m0) (SameHalt s m0) g) :
    SameRun s m0 f.reached g.reached ∧ g.stop = f.stop := by
  cases f with
  | go st =>
    obtain ⟨st', rfl, hrun⟩ := h
    exact ⟨hrun, rfl⟩
  | halt st why =>
    obtain ⟨st', rfl, hrun⟩ | ⟨st', rfl, hrun⟩ := h <;> exact ⟨hrun, rfl⟩

/-- The same bytes are written, one by one. -/
theorem SameRun.read_eq (h : SameRun s m0 st st') {a : Nat} (ha : inSpan s.dstAddr st.out a) : st'.mem.read a = st.mem.read a := by
  obtain ⟨hle, hlt⟩ := ha
  have hget := fun m : Memory => Memory.getD_readList m s.dstAddr.toNat 0#8 (show a - s.dstAddr.toNat < st.out by omega)
  rw [Nat.add_sub_cancel' hle] at hget
  rw [← hget, ← hget, h.written]

end Runs

/-- Settles O42: the two streams see the same bits, so they take the same way and write the same bytes. -/
theorem decodeIgnoresPadAndTrailingBytes : Obligations.DecodeIgnoresPadAndTrailingBytes := by
  unfold Obligations.DecodeIgnoresPadAndTrailingBytes
  intro s t m0 hm hm0 hn hbits hx
  obtain ⟨hrun, hstop⟩ := SameRun.of_follows (decodeStream_sameRun ⟨hm, hm0, hn, hbits⟩)
  have hout : (decodeStream { s with mem := m0 }).reached.out = (decodeStream s).reached.out := by rw [hrun.same]
  have hcount : (decodeStream { s with mem := m0 }).reached.bits = (decodeStream s).reached.bits := by rw [hrun.same]
  rw [execDecode_eq] at hx
  obtain ⟨hx', hmem, hlen⟩ := endCodec_of_memory hx m0 (decodeStream { s with mem := m0 }).reached.mem
  refine ⟨(decodeStream { s with mem := m0 }).reached.mem, ?_, fun hidle a ha => ?_⟩
  · rw [execDecode_eq, hout, hcount, hstop]
    exact hx'
  · rw [hlen hidle, hrun.left.toNat_out] at ha
    rw [hmem, hrun.read_eq ha]

end Sys2Proof.Machine
end

section
/-! The round trip of 44_decoder.md R176: BUILD and GENCODE code the symbol counts of an input, ENCODE packs its codes, and DECODE
reads them back. -/

namespace Sys2Proof.Machine

/-! ### A frequency table that counts an input -/

section Counts
variable {s : State} {f : Vector Word 256} {x : List Byte}

theorem freqAt_ne_zero_of_mem (h : ∀ b, (freqAt f b).toNat = x.count b) {b : Byte} (hb : b ∈ x) : freqAt f b ≠ 0#32 := by
  intro h0
  have hpos := List.count_pos_iff.2 hb
  rw [← h b, h0] at hpos
  exact absurd hpos (by decide)

/-- The weights sum up to the number of symbols counted (R37). -/
theorem freqTotal_of_counts (h : ∀ b, (freqAt f b).toNat = x.count b) : freqTotal f = x.length := by
  have hsum := sum_by_count x (fun _ => 1)
  simp only [List.map_const', List.sum_replicate, smul_eq_mul, Nat.mul_one] at hsum
  rw [freqTotal_eq, hsum]
  simp only [h]

/-- The input's codes take as many bits as the table says (42_code_generator.md R138). -/
theorem length_codeStream_of_counts (h : ∀ b, (freqAt s.freq b).toNat = x.count b) :
    (codeStream s x).length = weightedLength s := by
  rw [length_codeStream, sum_by_count, weightedLength]
  simp only [h]

end Counts

/-! ### What accesses and codes depend on -/

section Congruence
variable {s t : State}

theorem ReadsComplete.of_platform (h : t.platform = s.platform) {a : Word} {n : Nat} (hr : ReadsComplete s a n) :
    ReadsComplete t a n := by
  intro k hk
  rw [readAnswer, h]
  exact hr k hk

theorem WritesComplete.of_platform (h : t.platform = s.platform) {a : Word} {n : Nat} (hw : WritesComplete s a n) :
    WritesComplete t a n := by
  intro k hk
  rw [writeAnswer, h]
  exact hw k hk

theorem codeStream_of_code (h : t.code = s.code) (x : List Byte) : codeStream t x = codeStream s x := by
  rw [codeStream, h, codeStream]

end Congruence

/-! ### The machine that has the codes of an input -/

/-- An idle machine whose tree and codes are those of the symbol counts of `x`. -/
structure CodedFor (s : State) (x : List Byte) : Prop where
  memory : MemoryOk s
  idle : s.engine = none
  codes : CodesOk s
  valid : s.codesValid = true
  counts : ∀ b, (freqAt s.freq b).toNat = x.count b
  total : s.total.toNat = x.length

section CodedFor
variable {s t : State} {x : List Byte}

/-- BUILD and GENCODE make the codes of the input that `FREQ` counts. -/
theorem codedFor_generated (hm : MemoryOk s) (ho : observed s.freq ≠ [])
    (hcount : ∀ b, (freqAt s.freq b).toNat = x.count b) : CodedFor (generated (builtTree s)) x where
  memory := hm
  idle := rfl
  codes := gencode_codesOk (fun _ => builtTree_isTree ho) (codesOk_of_invalid rfl) (execGencode_of_tree rfl)
  valid := rfl
  counts := hcount
  total := (toNat_ofNat_freqTotal s.freq).trans (freqTotal_of_counts hcount)

theorem CodedFor.of_sameResults (h : CodedFor s x) (hst : SameResults s t) (hm : MemoryOk t) (hidle : t.engine = none) :
    CodedFor t x where
  memory := hm
  idle := hidle
  codes := h.codes.of_sameResults hst
  valid := hst.codesValid.trans h.valid
  counts := hst.freq ▸ h.counts
  total := hst.total ▸ h.total

theorem CodedFor.freqAt_ne_zero (h : CodedFor s x) {b : Byte} (hb : b ∈ x) : freqAt s.freq b ≠ 0#32 :=
  freqAt_ne_zero_of_mem h.counts hb

theorem CodedFor.length_codeStream (h : CodedFor s x) : (codeStream s x).length = s.tbits.toNat := by
  obtain ⟨t, -, -, htbits⟩ := h.codes h.valid
  rw [htbits, length_codeStream_of_counts h.counts]

theorem CodedFor.len_ne_zero (h : CodedFor s x) {b : Byte} (hb : b ∈ x) : (codeAt s.code b).len ≠ 0#8 := by
  obtain ⟨t, htree, htable, -⟩ := h.codes h.valid
  have hlen := (htable.one_le_len_iff htree).2 (h.freqAt_ne_zero hb)
  intro h0
  rw [h0] at hlen
  exact absurd hlen (by decide)

theorem bitOf_readList (m : Memory) (a : Nat) {n j : Nat} (h : j / 8 < n) :
    bitOf (m.readList a n) j = streamBit (m.read (a + j / 8)) j := by
  rw [bitOf, Memory.getD_readList _ _ _ h]

/-- ENCODE of the input leaves its code bits at the destination, and the codes as they are (43_encoder.md R150 to R153). -/
theorem CodedFor.encode (h : CodedFor s x) (hx : sourceBytes s = x) (hs : inRange s.srcAddr s.srcLen = true)
    (hd : inRange s.dstAddr s.dstCap = true) (ho : overlaps s.srcAddr s.srcLen s.dstAddr s.dstCap = false)
    (hr : ReadsComplete s s.srcAddr s.srcLen.toNat) (hw : WritesComplete s s.dstAddr (ceilDiv s.tbits.toNat 8))
    (hroom : ceilDiv s.tbits.toNat 8 ≤ s.dstCap.toNat) :
    ∃ t, exec .encode s = .next t ∧ CodedFor t x ∧ SameResults s t ∧ t.platform = s.platform ∧ t.errcode = 0#8 ∧
      t.bits = s.tbits ∧ t.outLen.toNat = ceilDiv s.tbits.toNat 8 ∧
      ∀ j, j < s.tbits.toNat → streamBit (t.mem.read (s.dstAddr.toNat + j / 8)) j = (codeStream s x).getD j false := by
  have hlen := h.length_codeStream
  obtain ⟨m, out, n, hexec, hn, hout, hbits, -, -⟩ := encodePacksTheCodes s h.memory (NoRace.of_idle h.idle) h.valid hr
    (by rwa [hx, hlen]) hs hd ho (by rw [hx]; exact fun b => h.len_ne_zero) (by rwa [hx, hlen])
  rw [hx] at hn hbits
  have hn : n.toNat = s.tbits.toNat := hn.trans hlen
  rw [hn] at hout hbits
  have hsame := (codec_next (Or.inl rfl) hexec).sameResults
  refine ⟨_, hexec, h.of_sameResults hsame (exec_memoryOk h.memory hexec) rfl, hsame, rfl, rfl, BitVec.eq_of_toNat_eq hn, hout,
    fun j hj => ?_⟩
  rw [← hbits j hj, bitOf_readList]
  unfold ceilDiv at hout
  omega

/-- DECODE of the input's code bits writes the input (R169, R176). -/
theorem CodedFor.decode (h : CodedFor s x) (hs : inRange s.srcAddr s.srcLen = true) (hd : inRange s.dstAddr s.dstCap = true)
    (ho : overlaps s.srcAddr s.srcLen s.dstAddr s.dstCap = false)
    (hr : ReadsComplete s s.srcAddr (ceilDiv s.tbits.toNat 8)) (hw : WritesComplete s s.dstAddr x.length)
    (hlen : ceilDiv s.tbits.toNat 8 ≤ s.srcLen.toNat) (hroom : x.length ≤ s.dstCap.toNat)
    (hbits : ∀ j, j < s.tbits.toNat → sourceBit s j = (codeStream s x).getD j false) :
    ∃ t, exec .decode s = .next t ∧ t.errcode = 0#8 ∧ t.outLen.toNat = x.length ∧
      t.mem.readList s.dstAddr.toNat x.length = x := by
  have hsource : ∀ j, j < s.tbits.toNat → bitOf (sourceBytes s) j = (codeStream s x).getD j false := fun j hj => by
    rw [← hbits j hj, bitOf_sourceBytes]
    unfold ceilDiv at hlen
    omega
  obtain ⟨m, out, inc, hexec, hout, -, hbytes, -⟩ := decodeReadsTheCodes s x h.memory h.codes (NoRace.of_idle h.idle) h.valid
    hr hw hs hd ho (fun b => h.freqAt_ne_zero) h.total.symm hroom h.length_codeStream hlen hsource
  exact ⟨_, hexec, rfl, hout.trans h.total, hbytes⟩

end CodedFor

/-- Settles O60: the codes that BUILD and GENCODE make are those of the input, ENCODE leaves them in memory and DECODE follows
them. -/
theorem decodeOfEncodeIsTheInput : Obligations.DecodeOfEncodeIsTheInput := by
  unfold Obligations.DecodeOfEncodeIsTheInput
  intro s x src dst hm hne hlt hx hcount
  have ho : observed s.freq ≠ [] := fun h => by
    obtain ⟨b, hb⟩ := List.exists_mem_of_ne_nil x hne
    exact freqAt_ne_zero_of_mem hcount hb (observed_eq_nil.1 h b)
  have hcoded := codedFor_generated hm ho hcount
  have hlen : (BitVec.ofNat 32 x.length).toNat = x.length := Nat.mod_eq_of_lt hlt
  refine ⟨_, generated (builtTree s), execBuild_of_entries ho, execGencode_of_tree rfl, rfl, rfl, ?_⟩
  intro cap hroom hsrc hdst hdisj hreads hwrites
  obtain ⟨s3, hencode, hcoded3, hsame, hplat, herr, hbits, hout, hstream⟩ :=
    CodedFor.encode
      (s := { generated (builtTree s) with srcAddr := src, srcLen := BitVec.ofNat 32 x.length, dstAddr := dst, dstCap := cap })
      (hcoded.of_sameResults (by constructor <;> rfl) hm rfl) (by rw [sourceBytes, hlen]; exact hx) hsrc hdst hdisj
      (by rw [hlen]; exact hreads) hwrites hroom
  refine ⟨s3, hencode, herr, hbits, hout, ?_⟩
  intro len out cap2 hle hroom2 hsrc2 hdst2 hdisj2 hreads2 hwrites2
  exact CodedFor.decode (s := { s3 with srcAddr := dst, srcLen := len, dstAddr := out, dstCap := cap2 })
    (hcoded3.of_sameResults (by constructor <;> rfl) hcoded3.memory hcoded3.idle) hsrc2 hdst2 hdisj2
    (hsame.tbits ▸ hreads2.of_platform hplat) (hwrites2.of_platform hplat) (hsame.tbits ▸ hout ▸ hle) hroom2
    (fun j hj => (hstream j (hsame.tbits ▸ hj)).trans (congrArg (·.getD j false) (codeStream_of_code hsame.code x).symm))

end Sys2Proof.Machine
end

section
/-! The file format of 46_host_procedures.md R187 to R195: how a file is read back, and what decompress answers to it. -/

namespace Sys2Proof.Machine

/-! ### Reading a file (R191 to R194) -/

theorem headerConsistent_iff {a t : Word} {es : List (Byte × Word)} :
    headerConsistent a t es = true ↔ 1 ≤ a.toNat ∧ a.toNat ≤ 256 ∧ (es.map Prod.fst).Nodup ∧ (∀ e ∈ es, e.2 ≠ 0#32) ∧
      (es.map (fun e => e.2.toNat)).sum = t.toNat := by
  simp [headerConsistent, and_assoc]

theorem parseFile_of_tag_ne {magic f : List Byte} (h : f.take magic.length ≠ magic) :
    parseFile magic f = .error .badMagicTag := if_pos h

section Tagged
/-! A file with the tag in front is `magic ++ r`. -/

variable (magic : List Byte) {r : List Byte}

theorem parseFile_of_no_counts (h : r.length < 8) : parseFile magic (magic ++ r) = .error .truncated := by
  simp [parseFile, h]

theorem parseFile_of_no_entries (h : r.length < 8 + 5 * (ofLe32 r).toNat) :
    parseFile magic (magic ++ r) = .error .truncated := by
  simp [parseFile, h]

theorem parseFile_of_entries (h : 8 + 5 * (ofLe32 r).toNat ≤ r.length) :
    parseFile magic (magic ++ r) =
      if headerConsistent (ofLe32 r) (ofLe32 (r.drop 4)) (readEntries (ofLe32 r).toNat (r.drop 8)) then
        .ok { alphabet := ofLe32 r, total := ofLe32 (r.drop 4), entries := readEntries (ofLe32 r).toNat (r.drop 8),
              payload := r.drop (8 + 5 * (ofLe32 r).toNat) }
      else .error .inconsistent := by
  have h8 : ¬ r.length < 8 := by omega
  simp [parseFile, h8, Nat.not_lt.2 h]

end Tagged

theorem drop_le32 (v : Word) (rest : List Byte) : (le32 v ++ rest).drop 4 = rest := rfl

theorem drop_two_le32 (v w : Word) (rest : List Byte) : (le32 v ++ (le32 w ++ rest)).drop 8 = rest := rfl

/-- Settles O52: each field of the file reads back at its place. -/
theorem fileFormatReadsBack : Obligations.FileFormatReadsBack := by
  unfold Obligations.FileFormatReadsBack
  intro magic payload alphabet total entries hpos hle hcount hnodup hweight hsum
  have hfile : fileHeader magic alphabet total entries ++ payload =
      magic ++ (le32 alphabet ++ (le32 total ++ (entryBytes entries ++ payload))) := by simp [fileHeader]
  have hlength : 8 + 5 * alphabet.toNat ≤ (le32 alphabet ++ (le32 total ++ (entryBytes entries ++ payload))).length := by
    simp only [List.length_append, length_le32, length_entryBytes, hcount]
    omega
  have hconsistent : headerConsistent alphabet total entries = true :=
    headerConsistent_iff.2 ⟨hcount ▸ hpos, hcount ▸ hle, hnodup, hweight, hsum⟩
  have hpayload : (entryBytes entries ++ payload).drop (5 * entries.length) = payload :=
    List.drop_left' (length_entryBytes entries)
  rw [hfile, parseFile_of_entries magic (by rwa [ofLe32_le32]), ← List.drop_drop, drop_two_le32, drop_le32, ofLe32_le32,
    ofLe32_le32, hcount, readEntries_append, hpayload, if_pos hconsistent]

/-! ### The outcomes of decompress (R195) -/

theorem decompress_of_parseFile_error {magic f : List Byte} {e : FormatError} (h : parseFile magic f = .error e)
    (src dst : Word) (s : State) : decompress magic f src dst s = .error (.format e) := by
  simp [decompress, h]

section Decoded

variable {magic f : List Byte} {src dst : Word} {s s' : State} {p : ParsedFile} (hp : parseFile magic f = .ok p)
  (hs : runScript (decompressScript p src dst) s = .ok s')
include hp hs

theorem decompress_of_errcode_zero (h : s'.errcode = 0#8) :
    decompress magic f src dst s = .ok (s'.mem.readList s'.dstAddr.toNat s'.outLen.toNat, s') := by
  simp [decompress, hp, hs, decompressOutput, h]

theorem decompress_of_errcode_ne_zero (h : s'.errcode ≠ 0#8) :
    decompress magic f src dst s = .error (decodeFailure s'.errcode) := by
  simp [decompress, hp, hs, decompressOutput, h]

end Decoded

theorem decodeFailure_truncated : decodeFailure 0x02#8 = .format .truncated := by decide

theorem decodeFailure_inconsistent : ∀ v ∈ [0x08#8, 0x09#8, 0x0A#8], decodeFailure v = .format .inconsistent := by decide

theorem decodeFailure_block : ∀ v ∈ [0x07#8, 0x0B#8, 0x0C#8, 0x0D#8], decodeFailure v = .block v := by decide

theorem compress_nil (magic : List Byte) (src dst : Word) (s : State) :
    compress magic [] src dst s = .error .emptyInput := rfl

/-- Settles O53: a file with the tag is read as far as its length reaches, and `decodeFailure` is the mapping of R195. -/
theorem headerErrorsInOrder : Obligations.HeaderErrorsInOrder := by
  unfold Obligations.HeaderErrorsInOrder
  refine ⟨fun magic f => ?_, fun _ _ src dst s _ h => decompress_of_parseFile_error h src dst s,
    fun magic f src dst s s' p hp hs => ?_, compress_nil⟩
  · have hfile : f.take magic.length = magic → magic ++ f.drop magic.length = f := fun htag =>
      List.prefix_iff_eq_append.1 (List.prefix_iff_eq_take.2 htag.symm)
    intro r a t es consistent
    have ha : a = ofLe32 r := ofLe32_take r
    have ht : t = ofLe32 (r.drop 4) := ofLe32_take _
    refine ⟨parseFile_of_tag_ne, fun htag h8 => ?_, fun htag _ h => ?_, fun htag _ h => ?_⟩
    · rw [← hfile htag]; exact parseFile_of_no_counts magic h8
    · rw [← hfile htag]; exact parseFile_of_no_entries magic (ha ▸ h)
    · have hread := parseFile_of_entries magic (ha ▸ h)
      rw [hfile htag, ← ha, ← ht] at hread
      rw [hread]
      exact ⟨fun hc => if_neg (headerConsistent_iff.not.2 hc), fun hc => if_pos (headerConsistent_iff.2 hc)⟩
  · have hfail := decompress_of_errcode_ne_zero hp hs
    refine ⟨decompress_of_errcode_zero hp hs, fun h => ?_, fun h => ?_, fun h => ?_⟩
    · rw [hfail (by simp [h]), h, decodeFailure_truncated]
    · rw [hfail (ne_of_mem_of_not_mem h (by decide)), decodeFailure_inconsistent _ h]
    · rw [hfail (ne_of_mem_of_not_mem h (by decide)), decodeFailure_block _ h]

end Sys2Proof.Machine
end

section
/-! The statements of 60_exceptions.md on the error codes of each command and on `irq` (R206 to R208, R214). -/

namespace Sys2Proof.Machine

/-! ### The error codes of each command (R206 to R208) -/

theorem EncodeStops.error_eq {s : State} {st : EncodeRun} {e : ErrCode} (h : EncodeStops s st (.error e)) :
    e = .noCodeForSymbol ∨ e = .dstFull := by
  obtain ⟨-, ⟨he, -⟩ | ⟨he, -⟩ | ⟨-, -, hh⟩ | ⟨-, -, hh⟩⟩ := h
  · exact Or.inl (Halt.error.inj he)
  · exact Or.inr (Halt.error.inj he)
  · exact absurd hh Answer.not_halts_error
  · exact absurd hh Answer.not_halts_error

theorem DecodeStops.error_eq {s : State} {st : DecodeRun} {e : ErrCode} (h : DecodeStops s st (.error e)) :
    e = .absentChild ∨ e = .dstFull ∨ e = .partialCode ∨ e = .countMismatch := by
  obtain ⟨-, ⟨he, -⟩ | ⟨he, -⟩ | ⟨-, -, hh⟩ | ⟨-, -, hh⟩ | ⟨he, -⟩ | ⟨he, -⟩⟩ := h
  · exact Or.inl (Halt.error.inj he)
  · exact Or.inr (Or.inl (Halt.error.inj he))
  · exact absurd hh Answer.not_halts_error
  · exact absurd hh Answer.not_halts_error
  · exact Or.inr (Or.inr (Or.inl (Halt.error.inj he)))
  · exact Or.inr (Or.inr (Or.inr (Halt.error.inj he)))

@[simp] theorem codecDone_errcode (s : State) (mem : Memory) (out inc bits : Nat) (a : Word) (e : BitVec 8) :
    (codecDone s mem out inc bits a e).errcode = e := rfl

theorem build_errcode {s t : State} (hx : exec .build s = .next t) : t.errcode ∈ [0x00#8, 0x01#8] := by
  rcases build_next hx with ⟨-, rfl⟩ | ⟨-, rfl⟩
  · simp [builtEmpty, errValue]
  · simp [builtTree]

theorem gencode_errcode {s t : State} (hx : exec .gencode s = .next t) : t.errcode ∈ [0x00#8, 0x04#8] := by
  rcases gencode_next hx with ⟨-, rfl⟩ | ⟨-, rfl⟩
  · simp [errValue]
  · simp [generated]

theorem encode_errcode {s t : State} (hx : exec .encode s = .next t) (hidle : t.engine = none) :
    t.errcode ∈ [0x00#8, 0x05#8, 0x06#8, 0x07#8, 0x0B#8, 0x0C#8, 0x0D#8] := by
  rcases encode_next hx with ⟨e, hp, rfl⟩ | ⟨-, ⟨st, -, rfl⟩ | ⟨st, e, hs, rfl⟩ | ⟨st, a, -, rfl⟩ | ⟨st, -, rfl⟩⟩
  · rcases codecPrecheck_some hp with rfl | rfl | rfl <;> simp [errValue]
  · simp
  · rcases hs.error_eq with rfl | rfl <;> simp [errValue]
  · simp
  · cases hidle

theorem decode_errcode {s t : State} (hx : exec .decode s = .next t) (hidle : t.engine = none) :
    t.errcode ∈ [0x00#8, 0x02#8, 0x05#8, 0x07#8, 0x08#8, 0x09#8, 0x0A#8, 0x0B#8, 0x0C#8, 0x0D#8] := by
  rcases decode_next hx with ⟨e, hp, rfl⟩ | ⟨-, -, rfl⟩ |
    ⟨-, -, ⟨st, -, rfl⟩ | ⟨st, e, hs, rfl⟩ | ⟨st, a, -, rfl⟩ | ⟨st, -, rfl⟩⟩
  · rcases codecPrecheck_some hp with rfl | rfl | rfl <;> simp [errValue]
  · simp
  · simp
  · rcases hs.error_eq with rfl | rfl | rfl | rfl <;> simp [errValue]
  · simp
  · cases hidle

/-- Settles O45: one lemma for each command that can raise an error; NOP and CLRFREQ always end in `finish`. -/
theorem errorCodesOfEachCommand : Obligations.ErrorCodesOfEachCommand := by
  unfold Obligations.ErrorCodesOfEachCommand
  refine fun s t i hx hidle => ⟨fun hi => ?_, ?_, ?_, ?_, ?_⟩
  · rcases hi with rfl | rfl <;> cases hx <;> rfl
  · rintro rfl; exact build_errcode hx
  · rintro rfl; exact gencode_errcode hx
  · rintro rfl; exact encode_errcode hx hidle
  · rintro rfl; exact decode_errcode hx hidle

/-! ### `irq` (R214) -/

theorem irq_of_done {s : State} (h : s.done = true) : s.irq = s.ctrlIE := by
  rw [State.irq, h, Bool.true_and]

theorem irq_of_not_done {s : State} (h : s.done = false) : s.irq = false := by
  rw [State.irq, h, Bool.false_and]

/-- A CTRL write without SRST gates `DONE` with the written `IE`. -/
theorem irq_writeReg_ctrl {v : Word} (h : v.getLsbD 1 = false) (s : State) :
    (writeReg s .ctrl v).irq = (s.done && v.getLsbD 0) := by
  rw [writeReg_ctrl_of_not_srst h]
  rfl

/-- Of a STATUS write `irq` sees the W1C bit of `DONE` only. -/
theorem irq_writeReg_status (s : State) (v : Word) :
    (writeReg s .status v).irq = if v.getLsbD 1 then false else s.irq := by
  show (writeStatus v s).irq = _
  rw [writeStatus_eq, State.irq, State.irq]
  split <;> rfl

/-- Settles O20: `irq` follows the `DONE` and the `IE` that each of these leaves. -/
theorem interruptRisesAndFalls : Obligations.InterruptRisesAndFalls := by
  unfold Obligations.InterruptRisesAndFalls
  refine fun s e v w => ⟨irq_of_done (finish_done s), irq_of_done (raiseError_done e s),
    irq_of_not_done (acceptCommand_done w s), fun hsrst hie => ?_, fun hsrst hie => ?_, fun hdone => ?_, fun hdone => ?_,
    irq_of_not_done (softReset_done s), fun _ => rfl⟩
  · rw [irq_writeReg_ctrl hsrst, hie, Bool.and_true]
  · rw [irq_writeReg_ctrl hsrst, hie, Bool.and_false]
  · rw [irq_writeReg_status, if_pos hdone]
  · rw [irq_writeReg_status, if_neg (Bool.eq_false_iff.1 hdone)]

end Sys2Proof.Machine
end

section
/-! The statement of 70_reset_and_hazards.md on a command that waits for an access that is never answered: where it comes to wait,
and what ends it (R236, R248). -/

namespace Sys2Proof.Machine

/-! ### Where a command comes to wait (R248) -/

/-- The platform gives the answer `ans` at some byte of a buffer: to a read of the source, or to a write of the destination
(`DeviceInBuffers` is the case of a device). -/
def AnswerInBuffers (s : State) (ans : Answer) : Prop :=
  (∃ k, k < s.srcLen.toNat ∧ readAnswer s (s.srcAddr + BitVec.ofNat 32 k) = ans) ∨
  (∃ k, k < s.dstCap.toNat ∧ writeAnswer s (s.dstAddr + BitVec.ofNat 32 k) = ans)

theorem Answer.Halts.of_noAnswer {a : Word} {ans : Answer} (h : ans.Halts a .noAnswer) : ans = .silent := by
  cases ans <;> cases h
  rfl

/-- Unless it raises an error of its own, ENCODE halts at an access to a buffer. -/
theorem EncodeStops.access {s : State} {st : EncodeRun} {why : Halt} (h : EncodeStops s st why) (hne : ∀ e, why ≠ .error e) :
    ∃ a ans, ans.Halts a why ∧ AnswerInBuffers s ans := by
  obtain ⟨-, ⟨he, -⟩ | ⟨he, -⟩ | ⟨hi, -, hh⟩ | ⟨ho, -, hh⟩⟩ := h
  · exact absurd he (hne _)
  · exact absurd he (hne _)
  · exact ⟨_, _, hh, Or.inl ⟨_, hi, rfl⟩⟩
  · exact ⟨_, _, hh, Or.inr ⟨_, ho, rfl⟩⟩

/-- Unless it raises an error of its own, DECODE halts at an access to a buffer. -/
theorem DecodeStops.access {s : State} {st : DecodeRun} {why : Halt} (h : DecodeStops s st why) (hne : ∀ e, why ≠ .error e)
    (hlen : ceilDiv s.tbits.toNat 8 ≤ s.srcLen.toNat) : ∃ a ans, ans.Halts a why ∧ AnswerInBuffers s ans := by
  obtain ⟨-, ⟨he, -⟩ | ⟨he, -⟩ | ⟨hi, -, hh⟩ | ⟨ho, -, hh⟩ | ⟨he, -⟩ | ⟨he, -⟩⟩ := h
  · exact absurd he (hne _)
  · exact absurd he (hne _)
  · exact ⟨_, _, hh, Or.inl ⟨_, by unfold ceilDiv at hlen; omega, rfl⟩⟩
  · exact ⟨_, _, hh, Or.inr ⟨_, ho, rfl⟩⟩
  · exact absurd he (hne _)
  · exact absurd he (hne _)

theorem EncodeStops.silent {s : State} {st : EncodeRun} (h : EncodeStops s st .noAnswer) : AnswerInBuffers s .silent := by
  obtain ⟨a, ans, hh, hin⟩ := h.access nofun
  exact hh.of_noAnswer ▸ hin

theorem DecodeStops.silent {s : State} {st : DecodeRun} (h : DecodeStops s st .noAnswer)
    (hlen : ceilDiv s.tbits.toNat 8 ≤ s.srcLen.toNat) : AnswerInBuffers s .silent := by
  obtain ⟨a, ans, hh, hin⟩ := h.access nofun hlen
  exact hh.of_noAnswer ▸ hin

theorem encode_hung {s t : State} (hx : exec .encode s = .next t) (hbusy : t.engine ≠ none) :
    (∃ m, t = codecHung .encode s m) ∧ AnswerInBuffers s .silent := by
  rcases encode_next hx with ⟨e, -, rfl⟩ | ⟨-, ⟨st, -, rfl⟩ | ⟨st, e, -, rfl⟩ | ⟨st, a, -, rfl⟩ | ⟨st, hs, rfl⟩⟩
  · exact absurd rfl hbusy
  · exact absurd rfl hbusy
  · exact absurd rfl hbusy
  · exact absurd rfl hbusy
  · exact ⟨⟨_, rfl⟩, hs.silent⟩

theorem decode_hung {s t : State} (hx : exec .decode s = .next t) (hbusy : t.engine ≠ none) :
    (∃ m, t = codecHung .decode s m) ∧ AnswerInBuffers s .silent := by
  rcases decode_next hx with ⟨e, -, rfl⟩ | ⟨-, -, rfl⟩ |
    ⟨-, hlen, ⟨st, -, rfl⟩ | ⟨st, e, -, rfl⟩ | ⟨st, a, -, rfl⟩ | ⟨st, hs, rfl⟩⟩
  · exact absurd rfl hbusy
  · exact absurd rfl hbusy
  · exact absurd rfl hbusy
  · exact absurd rfl hbusy
  · exact absurd rfl hbusy
  · exact ⟨⟨_, rfl⟩, hs.silent hlen⟩

/-- A command that does not complete is a codec command, and it waits for an access to a buffer. -/
theorem exec_hung {i : Instr} {s t : State} (hx : exec i s = .next t) (hbusy : t.engine ≠ none) :
    (i = .encode ∨ i = .decode) ∧ (∃ m, t = codecHung i s m) ∧ AnswerInBuffers s .silent := by
  by_cases he : i = .encode
  · subst he
    exact ⟨Or.inl rfl, encode_hung hx hbusy⟩
  by_cases hd : i = .decode
  · subst hd
    exact ⟨Or.inr rfl, decode_hung hx hbusy⟩
  obtain ⟨t', hx', hidle, -⟩ := otherCommandsFrame s i he hd
  obtain rfl := Host.Outcome.next.inj (hx.symm.trans hx')
  exact absurd hidle hbusy

theorem portRead_of_silent {s : State} {m : Memory} {a : Word} (h : readAnswer s a = .silent) :
    portRead s m a = .error .noAnswer := by
  simp [portRead, h]

/-! ### What ends the wait (R236) -/

/-- The host actions that reset the block (R235): the reset input, a power cycle, and a CTRL write with SRST. -/
def HostAction.Resets (a : HostAction) : Prop :=
  a = .resetInput ∨ a = .powerCycle ∨ ∃ v, a = .write 4 0x004#32 v ∧ v.getLsbD 1 = true

/-- A busy block goes on through every register write but SRST. -/
theorem writeReg_engine_of_busy {s : State} {r : Reg} {v : Word} (hb : s.busy = true)
    (hr : ¬ (r = .ctrl ∧ v.getLsbD 1 = true)) : (writeReg s r v).engine = s.engine := by
  have guarded (stored : State) : (guardedWrite s stored).engine = s.engine := by
    rw [guardedWrite_of_busy hb, setOvr_engine]
  cases r with
  | ctrl => rw [writeReg_ctrl_of_not_srst (Bool.eq_false_iff.2 fun hv => hr ⟨rfl, hv⟩)]
  | cmd => exact guarded _
  | srcAddr => exact guarded _
  | srcLen => exact guarded _
  | dstAddr => exact guarded _
  | dstCap => exact guarded _
  | freq i => exact guarded _
  | _ => rfl

theorem busWrite_engine_of_busy {s : State} {size : Nat} {off v : Word} (hb : s.busy = true)
    (ha : ¬ (HostAction.write size off v).Resets) : (busWrite size off v s).engine = s.engine := by
  by_cases hbad : size ≠ 4 ∨ regAt off = none
  · rw [busWrite_of_bad hbad, respond_engine]
  · obtain ⟨hsize, hoff⟩ := not_or.1 hbad
    obtain rfl := not_not.1 hsize
    obtain ⟨r, hreg⟩ := Option.ne_none_iff_exists'.1 hoff
    rw [busWrite_of_regAt hreg]
    refine writeReg_engine_of_busy hb fun ⟨hctrl, hv⟩ => ha (Or.inr (Or.inr ⟨v, ?_, hv⟩))
    subst hctrl
    rw [eq_regOffset_of_regAt hreg (by decide)]
    rfl

theorem hostWait_engine (s : State) : (hostWait s).engine = s.engine := by
  unfold hostWait
  split <;> rfl

theorem hostStore_next {a : Word} {bs : List Byte} {s t : State} (h : hostStore a bs s = .next t) :
    t = storeBytes s a bs := by
  unfold hostStore at h
  split at h
  · cases h
  · split at h
    · cases h
    · exact (Host.Outcome.next.inj h).symm

theorem hostLoad_next {a : Word} {s t : State} (h : hostLoad a s = .next t) :
    t = respond (.byte (loadByte s a)) s := by
  unfold hostLoad at h
  split at h
  · cases h
  · exact (Host.Outcome.next.inj h).symm

/-- A host action that does not reset the block leaves it busy. -/
theorem hostAct_busy {a : HostAction} {s t : State} (hb : s.busy = true) (ha : ¬ a.Resets) (h : hostAct a s = .next t) :
    t.busy = true := by
  cases a with
  | write size off v =>
    cases h
    rw [State.busy, busWrite_engine_of_busy hb ha]
    exact hb
  | read size off =>
    obtain ⟨rs, hx⟩ := readsHaveNoSideEffect s size off
    cases hx.symm.trans h
    exact hb
  | wait =>
    cases h
    rw [State.busy, hostWait_engine]
    exact hb
  | store addr bs =>
    obtain rfl := hostStore_next h
    rw [State.busy, storeBytes_engine, Option.isSome_map]
    exact hb
  | load addr =>
    obtain rfl := hostLoad_next h
    exact hb
  | resetInput => exact absurd (Or.inl rfl) ha
  | powerCycle => exact absurd (Or.inr (Or.inl rfl)) ha

/-- A step that ends the wait of a hung block is a host action that resets it. -/
theorem step_of_hung_idles {s t : State} {r : Running} (he : s.engine = some r) (hp : r.phase = .hung)
    (hs : step s = .next t) (hidle : t.engine = none) : ∃ a rest, s.script = a :: rest ∧ a.Resets := by
  have hb : s.nextTick.busy = true := by simp [State.busy, he]
  have ht : t.busy ≠ true := by simp [State.busy, hidle]
  rw [step_of_hung he hp] at hs
  rcases hostStep_next hs with rfl | ⟨a, rest, hscript, hact⟩
  · exact absurd hb ht
  · exact ⟨a, rest, hscript, by_contra fun ha => ht (hostAct_busy (s := { s.nextTick with script := rest }) hb ha hact)⟩

/-- Settles O47: a codec command is the only one that can wait, and does so where its stream halts without an answer; a block that
waits takes the host's actions only, of which the resets alone make it idle. -/
theorem onlyResetEndsAnUnansweredCommand : Obligations.OnlyResetEndsAnUnansweredCommand := by
  unfold Obligations.OnlyResetEndsAnUnansweredCommand
  refine ⟨fun s t i hx hbusy => ?_, fun s t r => step_of_hung_idles, fun i s u a h => ?_,
    fun s hc hs hd ho hr => ⟨fun hlen => ?_, fun hbits hlen => ?_⟩⟩
  · obtain ⟨hi, ⟨m, rfl⟩, hsilent⟩ := exec_hung hx hbusy
    exact ⟨rfl, hi, hsilent⟩
  · obtain ⟨m, out, inc, bits, why, hh, hx, rfl⟩ := h.ends (by decide)
    obtain rfl : why = .noAnswer := hh
    exact hx
  · exact execEncode_halt (encodeStream_first (codecPrecheck_eq_none hc hs hd ho) hlen (portRead_of_silent hr))
  · exact execDecode_halt (decodeStream_first (codecPrecheck_eq_none hc hs hd ho) hbits hlen (portRead_of_silent hr))

end Sys2Proof.Machine
end
